-- ==== Sys2Proof/Word.lean ====
section
/-! DEFINITION. The words of the TVG-PCD (00_scope.md R10, R12, R15) and the value types its
registers and datapath are read as: pixels, colour spaces, binary32 values, runs. -/

namespace Sys2Proof

/-- A 32-bit word: a register value, a pixel, an engine address (00_scope.md R10). -/
abbrev Word := BitVec 32

/-- An 8-bit value: a memory byte, a colour channel, a coverage (00_scope.md R10, R15). -/
abbrev Byte := BitVec 8

/-- The engine's address space is 2^32 bytes (20_memory.md R70). -/
abbrev addressSpace : Nat := 2 ^ 32

/-- The two colour spaces (00_scope.md R3); code 0 and code 1 of `SURF_CS` (10_state.md R41). -/
inductive ColourSpace where
  | argb8888
  | abgr8888
  deriving DecidableEq, Repr

/-- The `CS_SEL` bit of a colour space (10_state.md R27, R54). -/
def ColourSpace.bit : ColourSpace → Bool
  | .argb8888 => false
  | .abgr8888 => true

/-- A binary32 value (00_scope.md R14). `fin s m k` is the number (-1)^s * m * 2^k in units of 2^-149,
the least positive subnormal; the values the machine forms have `m < 2^24` and, when `k > 0`,
`2^23 ≤ m`, with `k ≤ 253`. A NaN keeps its 32-bit pattern. -/
inductive Binary32 where
  | nan (bits : Word)
  | inf (sign : Bool)
  | fin (sign : Bool) (sig : Nat) (shift : Nat)
  deriving DecidableEq, Repr

/-- +0.0. -/
abbrev Binary32.zero : Binary32 := .fin false 0 0

/-- 1.0, which is 2^23 * 2^126 units of 2^-149. -/
abbrev Binary32.one : Binary32 := .fin false (2 ^ 23) 126

/-- The four rounded binary32 operations (00_scope.md R14). -/
inductive FloatOp where
  | add
  | sub
  | mul
  | div
  deriving DecidableEq, Repr

/-- The first two rows of a 3 by 3 matrix, at an entry type (10_state.md R52, 43_image.md R207). -/
structure MatrixRows (α : Type) where
  e11 : α
  e12 : α
  e13 : α
  e21 : α
  e22 : α
  e23 : α
  deriving DecidableEq, Repr

/-- A run of the walk: `len` pixels from column `x0` of row `y`, of one coverage (42_fill.md R161). -/
structure Run where
  y : Nat
  x0 : Nat
  len : Nat
  cov : Byte
  deriving DecidableEq, Repr

/-- A span record as read from memory (20_memory.md R78). -/
structure Span where
  x : Nat
  y : Nat
  len : Nat
  cov : Byte
  deriving DecidableEq, Repr

/-- The run a span of positive length contributes (42_fill.md R161). -/
def Span.run (sp : Span) : Run := ⟨sp.y, sp.x, sp.len, sp.cov⟩

end Sys2Proof
end

