-- ==== Sys2Proof/Config.lean ====
section
/-! DEFINITION. What an implementation or a platform fixes (00_scope.md R7 to R9, R11) and the one
value the spec leaves free. The parameters are plain data: State carries a `Platform` that no step
changes, so a statement over all states holds for every choice of them. -/

namespace Sys2Proof

/-- The kinds of access `MEM_ADMIT` is asked about (00_scope.md R9). -/
inductive AccessKind where
  | read
  | write
  deriving DecidableEq, Repr

/-- A range of `size` bytes at `base`, and the kinds of access it denies. -/
structure Region where
  base : Nat
  size : Nat
  denyRead : Bool
  denyWrite : Bool
  deriving DecidableEq, Repr

/-- The parameters left OPEN: `HAS_SIMD4` (00_scope.md R7), `PCD_BASE` (R8), `MEM_ADMIT` (R9) as the
ranges it does not admit, and the ranges that hold devices with read side effects (20_memory.md R83).
The default values are those `State.reset` carries (DESIGN CHOICE: log 6, 7, 8, 13; unsafe for a claim
about `State.reset` alone). -/
structure Platform where
  hasSimd4 : Bool := true
  pcdBase : Nat := 0
  denied : List Region := []
  devices : List Region := []
  deriving DecidableEq, Repr

/-- FREE VALUE (log 9): the NaN a rounded operation gives, as a function of the operation and of its
operands' patterns. 00_scope.md R14 asks for IEEE 754 results, which does not fix a NaN's sign or
payload; nothing constrains this constant, and `Machine.nanResult` makes any pattern it gives a NaN. -/
opaque Config.nanBits : FloatOp → Word → Word → Word

/-- `FLT_EPS` is 2^-23, the binary32 pattern 0x34000000 (00_scope.md R11). -/
def Config.fltEps : Word := 0x34000000

end Sys2Proof
end

