-- ==== Sys2Proof/Syntax.lean ====
section
/-! DEFINITION. The seven commands (30_encoding.md R102), the registers of the register map
(10_state.md R22) and the host's statements (30_encoding.md R109, R111). -/

namespace Sys2Proof

/-- The commands, one constructor per row of the opcode table (30_encoding.md R102). `mat` is bit 8 of
an image command's word: a matrix is supplied in `M_E11` to `M_E33` (R100). -/
inductive Instr where
  | nop
  | setup
  | clear
  | fillRect
  | fillRle
  | imageRect (mat : Bool)
  | imageRle (mat : Bool)
  deriving DecidableEq, Repr

/-- The registers of 10_state.md R22, in the map's order. -/
inductive Reg where
  | id | caps | ctrl | status | cmd | pixcount | errinfo
  | surfBase | surfW | surfH | surfStride | surfCs
  | maskMethod | maskBase
  | colorIn | colorPm
  | bboxMin | bboxMax
  | rleBase | rleCount
  | imgBase | imgW | imgH | imgStride | imgOpacity | imgOrigin
  | m11 | m12 | m13 | m21 | m22 | m23 | m31 | m32 | m33
  | inv11 | inv12 | inv13 | inv21 | inv22 | inv23
  deriving DecidableEq, Repr

/-- What the host can do. `wr`, `rd`, `cmd` and `wait` are the statements of the assembly language
(30_encoding.md R109, R111). `busWrite` and `busRead` are register accesses at a host physical address
and of any width in bytes (10_state.md R21); `memWrite` and `memRead` are host accesses to one byte of
the engine's memory (10_state.md R20, 20_memory.md R91). -/
inductive HostStmt where
  | wr (r : Reg) (v : Word)
  | rd (r : Reg)
  | cmd (i : Instr)
  | wait
  | busWrite (addr : Nat) (bytes : Nat) (v : Word)
  | busRead (addr : Nat) (bytes : Nat)
  | memWrite (a : Word) (v : Byte)
  | memRead (a : Word)
  deriving DecidableEq, Repr

/-- The two agents (10_state.md R20). -/
inductive Agent where
  | host
  | engine
  deriving DecidableEq, Repr

end Sys2Proof
end

