-- ==== Sys2Proof/Machine/State.lean ====
section
/-! DEFINITION. The state of the TVG-PCD and its host (10_state.md), the reasons a step can stop, and
the state after reset (10_state.md R63). -/

namespace Sys2Proof.Machine

/-- Why the machine stops with a fault. No rule of the spec gives a meaning to any of these cases, and no
state that satisfies `Sys2Proof.Machine.State.Inv` reaches one (log 16). Each is SAFE: the machine stops
where the engine, by 20_memory.md R73 and 60_exceptions.md R248, never is. -/
inductive Fault where
  /-- Raised by `readWord` and `writeWord` for a word not wholly below 2^32, which is no address of the
  engine's space (20_memory.md R70). Safe. -/
  | outsideAddressSpace (addr : Nat)
  /-- Raised by `readImagePixel` for a source pixel outside the image, which the engine never reads
  (20_memory.md R76). Safe. -/
  | imageIndex (sx sy : Int)
  /-- Raised by `maskFactorAt` when a mask factor is asked for with method 0 or 1, for which it is not
  defined (40_color_algebra.md R131). Safe. -/
  | noMaskFactor (method : BitVec 2)
  /-- Raised by a walk step with no pixel to process: the cursor is off the run list, or the command has
  no walk (42_fill.md R160, R164). Safe. -/
  | noWalkStep (ri off : Nat)
  deriving DecidableEq, Repr

/-- Why the machine gives a step no meaning. -/
inductive Refusal where
  /-- Raised by the dispatcher for a command without a meaning yet; no command is in that case. Safe. -/
  | notModelled (mnemonic : String)
  /-- Raised by a host memory access that breaks 20_memory.md R91 ("A model treats a host access that
  breaks this as refused"), log 12. Safe. -/
  | hostTouchesBuffers (addr : Word)
  /-- Raised by the validation step of a drawing command about to walk whose destination range shares a
  byte with its own image, mask or span range (20_memory.md R92, "A model treats such a command as
  refused"), log 11. Safe. -/
  | overlappingBuffers
  /-- Raised by the range check of a command whose buffer range is admitted though it touches a device
  with read side effects (20_memory.md R83; 93_implementation_defined.md U18), log 13. Safe. -/
  | deviceBuffer (base : Word)
  deriving DecidableEq, Repr

/-- The engine's memory: (address, byte) pairs in one canonical form (`Memory.wf`); an address not listed
reads as `unlistedByte`. -/
abbrev Memory := List Host.Cell

/-- The RW parameter registers (10_state.md R38 to R51) at their implemented widths: the bits above them
read 0 and ignore writes. Every default is the reset value of 10_state.md R63. -/
structure Params where
  surfBase : Word := 0
  surfW : BitVec 16 := 0
  surfH : BitVec 16 := 0
  surfStride : Word := 0
  surfCs : BitVec 8 := 0
  maskMethod : BitVec 2 := 0
  maskBase : Word := 0
  colorIn : Word := 0
  bboxMin : Word := 0
  bboxMax : Word := 0
  rleBase : Word := 0
  rleCount : Word := 0
  imgBase : Word := 0
  imgW : BitVec 16 := 0
  imgH : BitVec 16 := 0
  imgStride : Word := 0
  imgOpacity : BitVec 8 := 0
  imgOrigin : Word := 0
  m11 : Word := 0
  m12 : Word := 0
  m13 : Word := 0
  m21 : Word := 0
  m22 : Word := 0
  m23 : Word := 0
  m31 : Word := 0
  m32 : Word := 0
  m33 : Word := 0
  deriving DecidableEq, Repr

/-- The parameter snapshot `P` (10_state.md R56). -/
structure Snapshot where
  cmd : Word := 0
  simdEn : Bool := false
  params : Params := {}
  deriving DecidableEq, Repr

/-- Engine phase `PH` (10_state.md R55). -/
inductive Phase where
  | idle
  | validate
  | walk
  deriving DecidableEq, Repr

/-- `FPATH` (10_state.md R58, 42_fill.md R170). -/
inductive FillPath where
  | opaqueFill
  | maskedFill
  | translucentFill
  deriving DecidableEq, Repr

/-- `IPATH` (10_state.md R58, 43_image.md R204). -/
inductive ImagePath where
  | direct
  | resample
  deriving DecidableEq, Repr

/-- The whole state. The fields from `params` to `invE` are the register file, `blValid` to `inv` the
hidden state of 10_state.md section 3, `mem` the memory; `platform` holds the OPEN parameters, and
`host`, `turns` and `rdata` are the model's own (log 1, 2, 17). -/
structure State where
  platform : Platform
  params : Params
  simdEn : Bool
  irqEn : Bool
  busy : Bool
  done : Bool
  err : Bool
  ovf : Bool
  errcode : BitVec 4
  pixcount : Word
  errinfo : Word
  colorPm : Word
  invE : MatrixRows Word
  blValid : Bool
  blCs : ColourSpace
  ph : Phase
  p : Snapshot
  runs : List Run
  ri : Nat
  off : Nat
  fpath : FillPath
  ipath : ImagePath
  maskOn : Bool
  c : Word
  inv : MatrixRows Binary32
  mem : Memory
  host : List HostStmt
  turns : List Agent
  rdata : Word
  deriving DecidableEq, Repr

/-- The machine right after reset (10_state.md R63, 70_reset_and_hazards.md R280): every register 0, no
blender, idle. DESIGN CHOICE where the spec gives no value: `p`, `runs`, `ri`, `off`, `fpath`, `ipath`,
`maskOn`, `c`, `inv` (log 5), the memory's contents (log 4), `platform` (log 6, 7, 8, 13) and the
model's own fields (log 1, 2, 17). -/
def State.reset : State where
  platform := {}
  params := {}
  simdEn := false
  irqEn := false
  busy := false
  done := false
  err := false
  ovf := false
  errcode := 0
  pixcount := 0
  errinfo := 0
  colorPm := 0
  invE := ⟨0, 0, 0, 0, 0, 0⟩
  blValid := false
  blCs := .argb8888
  ph := .idle
  p := {}
  runs := []
  ri := 0
  off := 0
  fpath := .opaqueFill
  ipath := .direct
  maskOn := false
  c := 0
  inv := ⟨.zero, .zero, .zero, .zero, .zero, .zero⟩
  mem := []
  host := []
  turns := []
  rdata := 0

end Sys2Proof.Machine
end

