-- ==== Sys2Proof/Machine/Flags.lean ====
section
/-! DEFINITION. The status bits and the interrupt line: what `STATUS` reads as (10_state.md R27, R33), its
write-one-to-clear (R34), the error codes (60_exceptions.md R241) and `IRQ` (10_state.md R60). -/

namespace Sys2Proof.Machine

/-- The error codes a command can fail with (60_exceptions.md R241). -/
inductive ErrCode where
  | illegal
  | cs
  | surface
  | align
  | addr
  | mask
  | image
  | rle
  | singular
  | bounds
  | srcBounds
  deriving DecidableEq, Repr

/-- The 4-bit code of `STATUS.ERRCODE` (60_exceptions.md R241). -/
def ErrCode.code : ErrCode → BitVec 4
  | .illegal => 1
  | .cs => 2
  | .surface => 3
  | .align => 4
  | .addr => 5
  | .mask => 6
  | .image => 7
  | .rle => 8
  | .singular => 9
  | .bounds => 10
  | .srcBounds => 11

/-- What a read of `STATUS` returns (10_state.md R27; CS_VALID and CS_SEL by R33). -/
def statusWord (s : State) : Word :=
  (0 : BitVec 14) ++ BitVec.ofBool s.blCs.bit ++ BitVec.ofBool s.blValid ++ (0 : BitVec 4) ++ s.errcode ++
    (0 : BitVec 4) ++ BitVec.ofBool s.ovf ++ BitVec.ofBool s.err ++ BitVec.ofBool s.done ++
    BitVec.ofBool s.busy

/-- A host write of `v` to `STATUS` (10_state.md R34): writing 1 clears DONE, ERR, OVF. -/
def writeStatus (s : State) (v : Word) : State :=
  { s with
    done := s.done && !v.getLsbD 1
    err := s.err && !v.getLsbD 2
    ovf := s.ovf && !v.getLsbD 3 }

/-- `CTRL.SIMD_EN` as it reads: 0 without the combiner (10_state.md R25, 00_scope.md R7). -/
def simdBit (s : State) : Bool := s.simdEn && s.platform.hasSimd4

/-- What a read of `CTRL` returns (10_state.md R25). -/
def ctrlWord (s : State) : Word :=
  (0 : BitVec 30) ++ BitVec.ofBool s.irqEn ++ BitVec.ofBool (simdBit s)

/-- The interrupt output `IRQ = CTRL.IRQ_EN & (STATUS.DONE | STATUS.ERR)` (10_state.md R60,
60_exceptions.md R254). -/
def State.irq (s : State) : Bool := s.irqEn && (s.done || s.err)

end Sys2Proof.Machine
end

