-- ==== Sys2Proof/Machine/Binary32.lean ====
section
/-! DEFINITION. The binary32 primitives (00_scope.md R14): each rounded operation computes the exact
result in units of 2^-149, as a quotient of natural numbers, and rounds it once (log 10). -/

namespace Sys2Proof.Machine

/-- `f32(bits)`: the value of a 32-bit pattern (00_scope.md R14). -/
def f32 (b : Word) : Binary32 :=
  let sign := b.getLsbD 31
  let e := (b.extractLsb' 23 8).toNat
  let f := (b.extractLsb' 0 23).toNat
  if e = 255 then (if f = 0 then .inf sign else .nan b)
  else if e = 0 then .fin sign f 0
  else .fin sign (2 ^ 23 + f) (e - 1)

/-- The pattern of a sign, an exponent field and a fraction. -/
def packF32 (sign : Bool) (e f : Nat) : Word :=
  (BitVec.ofBool sign ++ (BitVec.ofNat 8 e ++ BitVec.ofNat 23 f : BitVec 31) : BitVec 32)

/-- `bits(v)`: the 32-bit pattern of a value (00_scope.md R14, 43_image.md R206). -/
def bits : Binary32 → Word
  | .nan b => b
  | .inf s => packF32 s 255 0
  | .fin s m k => if m < 2 ^ 23 then packF32 s 0 m else packF32 s (k + 1) (m - 2 ^ 23)

/-- Is the value a NaN? -/
def isNaN : Binary32 → Bool
  | .nan _ => true
  | _ => false

/-- A 32-bit pattern that is a NaN's. -/
def nanPattern (b : Word) : Bool :=
  (b.extractLsb' 23 8).toNat == 255 && (b.extractLsb' 0 23).toNat != 0

/-- The quiet NaN 0x7FC00000 of 95_test_vectors.md vector V-IM10. -/
def canonicalNaN : Word := 0x7FC00000

/-- May this operand of a NaN-giving operation be there in vector V-IM10's case: no NaN, or the NaN
0x7FC00000? -/
def canonicalOrNumber : Binary32 → Bool
  | .nan b => b == canonicalNaN
  | _ => true

/-- The NaN an operation gives (log 9). DEDUCED from 95_test_vectors.md V-IM10: with an operand that is the
NaN 0x7FC00000 and none that is another NaN, it is 0x7FC00000. In every other case the spec does not
state its sign and payload: a FREE VALUE, made a NaN whatever `Config.nanBits` is. -/
def nanResult (op : FloatOp) (a b : Binary32) : Binary32 :=
  if (isNaN a || isNaN b) && canonicalOrNumber a && canonicalOrNumber b then .nan canonicalNaN
  else
    let raw := Config.nanBits op (bits a) (bits b)
    .nan (if nanPattern raw then raw else canonicalNaN)

/-- Round the quotient `n / d` to an integer, ties to even (00_scope.md R14). -/
def divNearestEven (n d : Nat) : Nat :=
  let q := n / d
  let r := n % d
  if 2 * r < d then q
  else if d < 2 * r then q + 1
  else if q % 2 = 0 then q else q + 1

/-- The binary32 value nearest to (-1)^sign * (n / d) in units of 2^-149, ties to even, subnormals kept, a
magnitude past the largest finite value giving an infinity (00_scope.md R14). -/
def roundNearest (sign : Bool) (n d : Nat) : Binary32 :=
  let k := Nat.log2 (n / d) - 23
  let m := divNearestEven n (d * 2 ^ k)
  if m < 2 ^ 24 then (if k ≤ 253 then .fin sign m k else .inf sign)
  else if k + 1 ≤ 253 then .fin sign (2 ^ 23) (k + 1) else .inf sign

/-- The magnitude of a finite value in units of 2^-149; 0 for the others. -/
def magnitude : Binary32 → Nat
  | .fin _ m k => m * 2 ^ k
  | _ => 0

/-- The sign bit of a value (of a NaN, its pattern's). -/
def signOf : Binary32 → Bool
  | .nan b => b.getLsbD 31
  | .inf s => s
  | .fin s _ _ => s

/-- A finite value in units of 2^-149, with its sign. -/
def signedUnits (a : Binary32) : Int := if signOf a then -(magnitude a : Int) else magnitude a

/-- 2^149, the number of units in 1.0. -/
def unitsPerOne : Nat := 2 ^ 149

/-- `to_f32(n)` (00_scope.md R14). -/
def toF32 (n : Nat) : Binary32 := roundNearest false (n * unitsPerOne) 1

/-- Change the sign. -/
def negF32 : Binary32 → Binary32
  | .nan b => .nan (b ^^^ 0x80000000)
  | .inf s => .inf (!s)
  | .fin s m k => .fin (!s) m k

/-- `fabs` clears the sign (00_scope.md R14). -/
def fabs : Binary32 → Binary32
  | .nan b => .nan (b &&& 0x7FFFFFFF)
  | .inf _ => .inf false
  | .fin _ m k => .fin false m k

/-- The sum of two numbers; `op` names the operation asked for, of operands `x` and `y` as written, for a
NaN result. An exact zero sum has the operands' common sign, and +0 when their signs differ. -/
def addNumbers (op : FloatOp) (x y a b : Binary32) : Binary32 :=
  match a, b with
  | .inf s, .inf t => if s = t then .inf s else nanResult op x y
  | .inf s, _ => .inf s
  | _, .inf t => .inf t
  | a, b =>
    let sum := signedUnits a + signedUnits b
    if sum = 0 then .fin (signOf a && signOf b) 0 0
    else roundNearest (decide (sum < 0)) sum.natAbs 1

/-- `fadd` (00_scope.md R14). -/
def fadd (a b : Binary32) : Binary32 :=
  if isNaN a || isNaN b then nanResult .add a b else addNumbers .add a b a b

/-- `fsub` (00_scope.md R14): the exact difference, rounded once. -/
def fsub (a b : Binary32) : Binary32 :=
  if isNaN a || isNaN b then nanResult .sub a b else addNumbers .sub a b a (negF32 b)

/-- `fmul` (00_scope.md R14): the exact product, rounded once; zero times infinity is a NaN. -/
def fmul (a b : Binary32) : Binary32 :=
  if isNaN a || isNaN b then nanResult .mul a b
  else
    let sign := signOf a != signOf b
    match a, b with
    | .fin _ m k, .fin _ n l => roundNearest sign (m * 2 ^ k * (n * 2 ^ l)) unitsPerOne
    | .fin _ 0 _, _ => nanResult .mul a b
    | _, .fin _ 0 _ => nanResult .mul a b
    | _, _ => .inf sign

/-- `fdiv` (00_scope.md R14): the exact quotient, rounded once; 0/0 and infinity over infinity are NaNs,
a non-zero number over 0 is an infinity. -/
def fdiv (a b : Binary32) : Binary32 :=
  if isNaN a || isNaN b then nanResult .div a b
  else
    let sign := signOf a != signOf b
    match a, b with
    | .inf _, .inf _ => nanResult .div a b
    | .inf _, _ => .inf sign
    | _, .inf _ => .fin sign 0 0
    | a, b =>
      if magnitude b = 0 then (if magnitude a = 0 then nanResult .div a b else .inf sign)
      else roundNearest sign (magnitude a * unitsPerOne) (magnitude b)

/-- A number of units beyond every finite magnitude, which is below 2^24 * 2^253. -/
def infinityKey : Int := 2 ^ 200 * 2 ^ 100

/-- The value as an extended integer for comparison: infinities beyond every finite magnitude. -/
def orderKey : Binary32 → Int
  | .nan _ => 0
  | .inf s => if s then -infinityKey else infinityKey
  | a => signedUnits a

/-- `feq`: IEEE equality, false if either is a NaN, +0 = -0 (00_scope.md R14). -/
def feq (a b : Binary32) : Bool := !isNaN a && !isNaN b && orderKey a == orderKey b

/-- `flt`: IEEE less-than, false if either is a NaN (00_scope.md R14). -/
def flt (a b : Binary32) : Bool := !isNaN a && !isNaN b && decide (orderKey a < orderKey b)

/-- The integer nearest to a finite magnitude, halves away from zero. -/
def roundHalfAway (units : Nat) : Nat := (2 * units + unitsPerOne) / (2 * unitsPerOne)

/-- `fround`: the nearest integral value, ties away from zero, keeping the sign of zero, NaNs and
infinities (00_scope.md R14). -/
def fround : Binary32 → Binary32
  | .nan b => .nan b
  | .inf s => .inf s
  | .fin s m k => roundNearest s (roundHalfAway (m * 2 ^ k) * unitsPerOne) 1

/-- The integer a non-negative integral value stands for (43_image.md R213: -0.0 gives 0). -/
def toInteger (a : Binary32) : Nat := magnitude a / unitsPerOne

end Sys2Proof.Machine
end

