-- ==== Sys2Proof/Machine/Memory.lean ====
section
/-! DEFINITION. The operations over memory (20_memory.md R70, R71): bytes, and little-endian words. -/

namespace Sys2Proof.Machine

/-- What an address that memory does not list reads as. The spec leaves the contents at power-on to the
platform (70_reset_and_hazards.md R280; 93_implementation_defined.md U17). DESIGN CHOICE, unsafe: log 4. -/
def unlistedByte : Byte := 0

/-- The canonical form: addresses strictly rising and inside the space, no entry that an unlisted address
would read as. Equal memories are then equal lists. -/
abbrev Memory.wf (m : Memory) : Prop :=
  m.Pairwise (fun c d => c.1 < d.1) ∧ ∀ c ∈ m, c.2 ≠ unlistedByte ∧ c.1 < addressSpace

/-- The byte at an address (20_memory.md R70). -/
def readByte : Memory → Nat → Byte
  | [], _ => unlistedByte
  | (b, v) :: m, a => if b = a then v else readByte m a

/-- Store one byte and keep the canonical form. -/
def writeByte : Memory → Nat → Byte → Memory
  | [], a, v => if v = unlistedByte then [] else [(a, v)]
  | (b, u) :: m, a, v =>
    if a < b then (if v = unlistedByte then (b, u) :: m else (a, v) :: (b, u) :: m)
    else if a = b then (if v = unlistedByte then m else (a, v) :: m)
    else (b, u) :: writeByte m a v

/-- Byte `i` of a word: `v[8i+7 : 8i]` (00_scope.md R15). -/
def byteOf (v : Word) (i : Nat) : Byte := v.extractLsb' (8 * i) 8

/-- `pack(b3, b2, b1, b0)` (00_scope.md R15). -/
def pack (b3 b2 b1 b0 : Byte) : Word := b3 ++ b2 ++ b1 ++ b0

/-- The little-endian word at `a` (20_memory.md R71), its four bytes anywhere in memory. -/
def wordAt (m : Memory) (a : Nat) : Word :=
  pack (readByte m (a + 3)) (readByte m (a + 2)) (readByte m (a + 1)) (readByte m a)

/-- Memory with the little-endian word `v` stored at `a` (20_memory.md R71). -/
def storeWord (m : Memory) (a : Nat) (v : Word) : Memory :=
  writeByte (writeByte (writeByte (writeByte m a (byteOf v 0)) (a + 1) (byteOf v 1)) (a + 2) (byteOf v 2))
    (a + 3) (byteOf v 3)

/-- `MemRead(a, 4)` (20_memory.md R71); an address outside the space faults. -/
def readWord (m : Memory) (a : Nat) : Except Fault Word :=
  if a + 4 ≤ addressSpace then .ok (wordAt m a) else .error (.outsideAddressSpace a)

/-- `MemWrite(a, 4, v)` (20_memory.md R71); an address outside the space faults. -/
def writeWord (m : Memory) (a : Nat) (v : Word) : Except Fault Memory :=
  if a + 4 ≤ addressSpace then .ok (storeWord m a v) else .error (.outsideAddressSpace a)

end Sys2Proof.Machine
end

