-- ==== Sys2Proof/Machine/Colour.lean ====
section
/-! DEFINITION. The colour algebra (40_color_algebra.md R120 to R132). -/

namespace Sys2Proof.Machine

/-- Alpha extractor: `alpha(p) = byte(p, 3)` in either colour space (40_color_algebra.md R121). -/
def alpha (p : Word) : Byte := byteOf p 3

/-- Channel joiner (40_color_algebra.md R122). -/
def join : ColourSpace → Byte → Byte → Byte → Byte → Word
  | .argb8888, r, g, b, a => pack a r g b
  | .abgr8888, r, g, b, a => pack a b g r

/-- The red channel of a pixel (40_color_algebra.md R120). -/
def red : ColourSpace → Word → Byte
  | .argb8888, p => byteOf p 2
  | .abgr8888, p => byteOf p 0

/-- The green channel of a pixel (40_color_algebra.md R120). -/
def green (_ : ColourSpace) (p : Word) : Byte := byteOf p 1

/-- The blue channel of a pixel (40_color_algebra.md R120). -/
def blue : ColourSpace → Word → Byte
  | .argb8888, p => byteOf p 0
  | .abgr8888, p => byteOf p 2

/-- Channel multiplier: `amul(c, k) = (c * k + k) >> 8` (40_color_algebra.md R124). -/
def amul (c k : Byte) : Byte := BitVec.ofNat 8 ((c.toNat * k.toNat + k.toNat) >>> 8)

/-- Packed multiplier (40_color_algebra.md R125). -/
def alphaMul (p : Word) (k : Byte) : Word :=
  pack (amul (byteOf p 3) k) (amul (byteOf p 2) k) (amul (byteOf p 1) k) (amul (byteOf p 0) k)

/-- Byte multiplier: `alpha_mul8(a, b) = floor((a * b + 127) / 255)` (40_color_algebra.md R126). -/
def alphaMul8 (a b : Byte) : Byte := BitVec.ofNat 8 ((a.toNat * b.toNat + 127) / 255)

/-- Premultiply-and-join of the solid colour (40_color_algebra.md R128; the fields of `COLOR_IN` are those
of 10_state.md R44). -/
def colorPm (cs : ColourSpace) (cin : Word) : Word :=
  let a := byteOf cin 3
  join cs (alphaMul8 (byteOf cin 2) a) (alphaMul8 (byteOf cin 1) a) (alphaMul8 (byteOf cin 0) a) a

/-- SRC-OVER: `s + alpha_mul(d, 255 - alpha(s))` modulo 2^32 (40_color_algebra.md R129). -/
def srcover (s d : Word) : Word := s + alphaMul d (255 - alpha s)

/-- The two mask methods that read a mask (40_color_algebra.md R131). -/
inductive MaskKind where
  | alphaMask
  | invAlphaMask
  deriving DecidableEq, Repr

/-- The mask kind of `MASK_METHOD` 2 and 3; `None` and `ClipPath` have none (10_state.md R42,
42_fill.md R171). -/
def maskKind (method : BitVec 2) : Option MaskKind :=
  if method = 2 then some .alphaMask else if method = 3 then some .invAlphaMask else none

/-- Mask factor (40_color_algebra.md R131). -/
def mfac : MaskKind → Word → Byte
  | .alphaMask, mp => alpha mp
  | .invAlphaMask, mp => 255 - alpha mp

/-- Masked source (40_color_algebra.md R132). -/
def masked (s : Word) (k : MaskKind) (mp : Word) : Word := alphaMul s (mfac k mp)

/-- A validly premultiplied pixel: no colour byte above the alpha byte (40_color_algebra.md R130). -/
def premultiplied (p : Word) : Bool :=
  decide (byteOf p 2 ≤ alpha p) && decide (byteOf p 1 ≤ alpha p) && decide (byteOf p 0 ≤ alpha p)

/-- A pixel with bytes 2 and 0 exchanged (40_color_algebra.md R136). -/
def swapRB (p : Word) : Word := pack (byteOf p 3) (byteOf p 0) (byteOf p 1) (byteOf p 2)

end Sys2Proof.Machine
end

