-- ==== Sys2Proof/Machine/Operands.lean ====
section
/-! DEFINITION. Every operand of a command (30_encoding.md R107, R108): the fields packed in the parameter
registers, the buffers' addresses and extents (20_memory.md R74 to R80), the span records (R78), the
matrix (43_image.md R203). All are read from the snapshot `P`. -/

namespace Sys2Proof.Machine

/-- The low halfword of a packed register, zero-extended (30_encoding.md R108). -/
def lowHalf (v : Word) : Nat := (v.extractLsb' 0 16).toNat

/-- The high halfword of a packed register, zero-extended (30_encoding.md R108). -/
def highHalf (v : Word) : Nat := (v.extractLsb' 16 16).toNat

/-- `region.min.x` (42_fill.md R167). -/
def Params.minX (p : Params) : Nat := lowHalf p.bboxMin

/-- `region.min.y` (42_fill.md R167). -/
def Params.minY (p : Params) : Nat := highHalf p.bboxMin

/-- `region.max.x` (42_fill.md R167). -/
def Params.maxX (p : Params) : Nat := lowHalf p.bboxMax

/-- `region.max.y` (42_fill.md R167). -/
def Params.maxY (p : Params) : Nat := highHalf p.bboxMax

/-- `img_origin_x` (10_state.md R50). -/
def Params.originX (p : Params) : Nat := lowHalf p.imgOrigin

/-- `img_origin_y` (10_state.md R50). -/
def Params.originY (p : Params) : Nat := highHalf p.imgOrigin

/-- The alpha of the straight colour (10_state.md R44). -/
def Params.colorA (p : Params) : Byte := byteOf p.colorIn 3

/-- The red of the straight colour (10_state.md R44). -/
def Params.colorR (p : Params) : Byte := byteOf p.colorIn 2

/-- The green of the straight colour (10_state.md R44). -/
def Params.colorG (p : Params) : Byte := byteOf p.colorIn 1

/-- The blue of the straight colour (10_state.md R44). -/
def Params.colorB (p : Params) : Byte := byteOf p.colorIn 0

/-- `dst_addr(x, y)` (20_memory.md R74). -/
def Params.dstAddr (p : Params) (x y : Nat) : Nat :=
  p.surfBase.toNat + 4 * (y * p.surfStride.toNat + x)

/-- `mask_addr(x, y)`, with the surface's stride (20_memory.md R77). -/
def Params.maskAddr (p : Params) (x y : Nat) : Nat :=
  p.maskBase.toNat + 4 * (y * p.surfStride.toNat + x)

/-- `img_addr(sx, sy)` (20_memory.md R76). -/
def Params.imgAddr (p : Params) (sx sy : Nat) : Nat :=
  p.imgBase.toNat + 4 * (sy * p.imgStride.toNat + sx)

/-- `span_addr(i)` (20_memory.md R78). -/
def Params.spanAddr (p : Params) (i : Nat) : Nat := p.rleBase.toNat + 8 * i

/-- The byte length of a `w` by `h` buffer of stride `s`: `4 * ((h - 1) * s + w)` on mathematical integers
(20_memory.md R75 to R77), and 0 where that is negative (a height of 0 with a stride above the width,
which no valid buffer has: log 20). -/
def extent (w h s : Nat) : Nat := (4 * (((h : Int) - 1) * s + w)).toNat

/-- A range of `size` bytes at `base`. -/
structure ByteRange where
  base : Nat
  size : Nat
  deriving DecidableEq, Repr

/-- Byte `a` lies in the range. -/
def ByteRange.has (r : ByteRange) (a : Nat) : Bool := decide (r.base ≤ a) && decide (a < r.base + r.size)

/-- The two ranges share a byte. -/
def ByteRange.shares (r t : ByteRange) : Bool :=
  decide (0 < r.size) && decide (0 < t.size) && decide (r.base < t.base + t.size) &&
    decide (t.base < r.base + r.size)

/-- `SURF_RANGE` (20_memory.md R75). -/
def Params.surfRange (p : Params) : ByteRange :=
  ⟨p.surfBase.toNat, extent p.surfW.toNat p.surfH.toNat p.surfStride.toNat⟩

/-- `MASK_RANGE`, of the surface's geometry (20_memory.md R77). -/
def Params.maskRange (p : Params) : ByteRange :=
  ⟨p.maskBase.toNat, extent p.surfW.toNat p.surfH.toNat p.surfStride.toNat⟩

/-- `IMG_RANGE` (20_memory.md R76). -/
def Params.imgRange (p : Params) : ByteRange :=
  ⟨p.imgBase.toNat, extent p.imgW.toNat p.imgH.toNat p.imgStride.toNat⟩

/-- `RLE_RANGE` (20_memory.md R79). -/
def Params.rleRange (p : Params) : ByteRange := ⟨p.rleBase.toNat, 8 * p.rleCount.toNat⟩

/-- Does the command write pixels? NOP and SETUP access no memory (20_memory.md R80). -/
def draws : Instr → Bool
  | .nop => false
  | .setup => false
  | .clear => true
  | .fillRect => true
  | .fillRle => true
  | .imageRect _ => true
  | .imageRle _ => true

/-- Does the command take the mask operand? (20_memory.md R80: FILL_* and IMAGE_*.) -/
def takesMask : Instr → Bool
  | .nop => false
  | .setup => false
  | .clear => false
  | .fillRect => true
  | .fillRle => true
  | .imageRect _ => true
  | .imageRle _ => true

/-- Does the command read a source image? -/
def takesImage : Instr → Bool
  | .nop => false
  | .setup => false
  | .clear => false
  | .fillRect => false
  | .fillRle => false
  | .imageRect _ => true
  | .imageRle _ => true

/-- Does the command read a span list? -/
def takesSpans : Instr → Bool
  | .nop => false
  | .setup => false
  | .clear => false
  | .fillRect => false
  | .fillRle => true
  | .imageRect _ => false
  | .imageRle _ => true

/-- The ranges a command reads only: its mask with `MASK_METHOD` 2 or 3, its image, its span list
(20_memory.md R80). -/
def sourceRanges (i : Instr) (p : Params) : List ByteRange :=
  (if takesMask i && (maskKind p.maskMethod).isSome then [p.maskRange] else []) ++
  (if takesImage i then [p.imgRange] else []) ++
  (if takesSpans i then [p.rleRange] else [])

/-- The range a command reads and writes: the surface, for a drawing command (20_memory.md R80). -/
def destRanges (i : Instr) (p : Params) : List ByteRange := if draws i then [p.surfRange] else []

/-- Span record `i` (20_memory.md R78); `w1[31:24]` is ignored. -/
def readSpan (p : Params) (m : Memory) (i : Nat) : Except Fault Span := do
  let w0 ← readWord m (p.spanAddr i)
  let w1 ← readWord m (p.spanAddr i + 4)
  pure ⟨lowHalf w0, highHalf w0, lowHalf w1, byteOf w1 2⟩

/-- The image word at `(sx, sy)`: the engine reads the image only inside it (20_memory.md R76). -/
def readImagePixel (p : Params) (m : Memory) (sx sy : Int) : Except Fault Word :=
  if 0 ≤ sx ∧ sx < p.imgW.toNat ∧ 0 ≤ sy ∧ sy < p.imgH.toNat then
    readWord m (p.imgAddr sx.toNat sy.toNat)
  else .error (.imageIndex sx sy)

/-- The mask factor of pixel `(x, y)` (20_memory.md R77, 40_color_algebra.md R131). -/
def maskFactorAt (p : Params) (m : Memory) (x y : Nat) : Except Fault Byte :=
  match maskKind p.maskMethod with
  | none => .error (.noMaskFactor p.maskMethod)
  | some k => do
    let mp ← readWord m (p.maskAddr x y)
    pure (mfac k mp)

/-- A 3 by 3 matrix of binary32 values (10_state.md R51). -/
structure Matrix3 where
  e11 : Binary32
  e12 : Binary32
  e13 : Binary32
  e21 : Binary32
  e22 : Binary32
  e23 : Binary32
  e31 : Binary32
  e32 : Binary32
  e33 : Binary32
  deriving DecidableEq, Repr

/-- The matrix operand: `eRC = f32(P.M_ERC)` (30_encoding.md R108). -/
def Params.matrix (p : Params) : Matrix3 :=
  ⟨f32 p.m11, f32 p.m12, f32 p.m13, f32 p.m21, f32 p.m22, f32 p.m23, f32 p.m31, f32 p.m32, f32 p.m33⟩

/-- `MEM_ADMIT(a, n, kind)` (00_scope.md R9): no byte of the range is denied that kind of access (log 8). -/
def memAdmit (pl : Platform) (a n : Nat) (kind : AccessKind) : Bool :=
  pl.denied.all fun r =>
    !((match kind with | .read => r.denyRead | .write => r.denyWrite) &&
      (ByteRange.mk a n).shares ⟨r.base, r.size⟩)

/-- Some byte of the range is mapped to a device with read side effects (20_memory.md R83; log 13). -/
def touchesDevice (pl : Platform) (a n : Nat) : Bool :=
  pl.devices.any fun r => (ByteRange.mk a n).shares ⟨r.base, r.size⟩

end Sys2Proof.Machine
end

