-- ==== Sys2Proof/Machine/Ops.lean ====
section
/-! DEFINITION. The operations every command shares: acceptance (30_encoding.md R103, R104), completion with
success (60_exceptions.md R244) and with failure (R245, the one exception entry of this machine; there
is no return, R258), soft reset (70_reset_and_hazards.md R281), the start of a walk and the walk step
(42_fill.md R160, R164). -/

namespace Sys2Proof.Machine

/-- How a check of the validation step can stop it: a failure of the command (60_exceptions.md R240), or
one of the model's faults or refusals. -/
inductive Halt where
  | error (code : ErrCode) (info : Word)
  | fault (f : Fault)
  | refusal (r : Refusal)
  deriving DecidableEq, Repr

/-- `complete_success()` (60_exceptions.md R244). -/
def completeSuccess (s : State) : State :=
  { s with done := true, err := false, errcode := 0, busy := false, ph := .idle }

/-- TAKING THE EXCEPTION: `raise Error(code, info)` (60_exceptions.md R245, R257). It saves the code and the
information word, and changes neither memory nor `PIXCOUNT`, `COLOR_PM`, `INV_E*` or the blender. -/
def raiseError (code : ErrCode) (info : Word) (s : State) : State :=
  { s with errcode := code.code, errinfo := info, err := true, done := false, busy := false, ph := .idle }

/-- The snapshot a command takes at acceptance (10_state.md R56). -/
def snapshot (w : Word) (s : State) : Snapshot := ⟨w, simdBit s, s.params⟩

/-- Acceptance of the command word `w` (30_encoding.md R103). -/
def accept (w : Word) (s : State) : State :=
  { s with
    p := snapshot w s
    busy := true
    done := false
    err := false
    errcode := 0
    pixcount := 0
    errinfo := 0
    ph := .validate }

/-- A host write of `w` to `CMD`: accepted when idle (30_encoding.md R103), dropped with OVF when busy
(R104). -/
def writeCmd (w : Word) (s : State) : State :=
  if s.busy then { s with ovf := true } else accept w s

/-- Soft reset (70_reset_and_hazards.md R281): every piece of the block's state as after power-on reset
(10_state.md R63), memory unchanged (20_memory.md R70). The parameters of the platform and the model's
own fields are no state of the block. DESIGN CHOICE for the fields R63 leaves unspecified: log 5. -/
def softReset (s : State) : State :=
  { State.reset with
    platform := s.platform
    mem := s.mem
    host := s.host
    turns := s.turns
    rdata := s.rdata }

/-- A host write of `v` to `CTRL` (10_state.md R25; soft reset by 70_reset_and_hazards.md R281). -/
def writeCtrl (v : Word) (s : State) : State :=
  if v.getLsbD 2 then softReset s
  else { s with simdEn := v.getLsbD 0 && s.platform.hasSimd4, irqEn := v.getLsbD 1 }

/-- The outcome of a validation step whose checks stopped at `h`. -/
def haltOutcome (s : State) : Halt → Host.Outcome State Fault Refusal
  | .error code info => .next (raiseError code info s)
  | .fault f => .fault f
  | .refusal r => .refused r

/-- `rect_runs(minx, miny, maxx, maxy)` (42_fill.md R161): one run of coverage 255 a row, downwards. -/
def rectRuns (minx miny maxx maxy : Nat) : List Run :=
  if maxx ≤ minx ∨ maxy ≤ miny then []
  else (List.range (maxy - miny)).map fun k => ⟨miny + k, minx, maxx - minx, 255⟩

/-- `clear_runs` (42_fill.md R161). -/
def clearRuns (p : Params) : List Run :=
  (List.range p.surfH.toNat).map fun y => ⟨y, 0, p.surfW.toNat, 255⟩

/-- The destination range of command `i` shares a byte with one of its source ranges (20_memory.md R92). -/
def overlaps (i : Instr) (p : Params) : Bool :=
  (destRanges i p).any fun d => (sourceRanges i p).any fun r => d.shares r

/-- The end of a validation step that passed, `RUNS` and the path state being fixed in `s`
(42_fill.md R160): the cursor at the start; success at once when there is no run (R165); else the walk,
unless the command's own buffers overlap (20_memory.md R92; log 11). -/
def startWalk (i : Instr) (s : State) : Host.Outcome State Fault Refusal :=
  let s := { s with ri := 0, off := 0 }
  if s.runs.isEmpty then .next (completeSuccess s)
  else if overlaps i s.p.params then .refused .overlappingBuffers
  else .next { s with ph := .walk }

/-- A pixel function: the value to store at column `x` of row `y` under coverage `cov`, or `none` for SKIP
(42_fill.md R164). -/
abbrev PixelFn := Nat → Nat → Byte → Except Fault (Option Word)

/-- The size of the next group: 4 with SIMD_EN and at least 4 pixels left, else 1 (42_fill.md R164,
40_color_algebra.md R133). -/
def groupSize (simd : Bool) (left : Nat) : Nat := if simd && decide (4 ≤ left) then 4 else 1

/-- The values of `n` lanes from column `x` of row `y`, all computed before any is stored (20_memory.md R86,
40_color_algebra.md R134): each column with its value. -/
def laneValues (px : PixelFn) (y : Nat) (cov : Byte) : Nat → Nat → Except Fault (List (Nat × Option Word))
  | _, 0 => .ok []
  | x, n + 1 => do
    let v ← px x y cov
    let rest ← laneValues px y cov (x + 1) n
    pure ((x, v) :: rest)

/-- Store the lanes' values in order; a skipped lane stores nothing (42_fill.md R164, 43_image.md R214). -/
def storeLanes (p : Params) (y : Nat) : Memory → List (Nat × Option Word) → Except Fault Memory
  | m, [] => .ok m
  | m, (_, none) :: rest => storeLanes p y m rest
  | m, (x, some v) :: rest => do
    let m' ← writeWord m (p.dstAddr x y) v
    storeLanes p y m' rest

/-- Move the cursor past a group of `n` pixels in a run of `len`, count the pixels, and complete the command
after the last run (42_fill.md R164). -/
def advance (n len : Nat) (s : State) : State :=
  let s := { s with pixcount := s.pixcount + BitVec.ofNat 32 n, off := s.off + n }
  let s := if s.off = len then { s with ri := s.ri + 1, off := 0 } else s
  if s.ri = s.runs.length then completeSuccess s else s

/-- One walk step with pixel function `px` (42_fill.md R164). -/
def walkStep (px : PixelFn) (s : State) : Host.Outcome State Fault Refusal :=
  match s.runs[s.ri]? with
  | none => .fault (.noWalkStep s.ri s.off)
  | some r =>
    if r.len ≤ s.off then .fault (.noWalkStep s.ri s.off)
    else
      let n := groupSize s.p.simdEn (r.len - s.off)
      match laneValues px r.y r.cov (r.x0 + s.off) n with
      | .error f => .fault f
      | .ok vs =>
        match storeLanes s.p.params r.y s.mem vs with
        | .error f => .fault f
        | .ok m => .next (advance n r.len { s with mem := m })

/-- One engine step of a drawing command `i`, in the phase that `PH` enables (42_fill.md R160): its checks
`validate`, which fix RUNS and the path state, then the start of the walk; or one walk step. With PH
IDLE the engine takes no step and all state is held (60_exceptions.md R265). -/
def drawStep (i : Instr) (validate : State → Except Halt State) (px : State → PixelFn) (s : State) :
    Host.Outcome State Fault Refusal :=
  match s.ph with
  | .idle => .next s
  | .validate =>
    match validate s with
    | .error h => haltOutcome s h
    | .ok s' => startWalk i s'
  | .walk => walkStep (px s) s

/-- One engine step of a command that completes in its validation step (42_fill.md R160: NOP and SETUP). DESIGN
CHOICE (log 25): it leaves `RUNS`, the cursor and the path state as they are, as the pseudocode of
41_setup.md R150 and R151 does, though 10_state.md R57 and R160 have a validation that passes set the cursor
to (0, 0); the machine is idle after it, and no rule reads them then (93_implementation_defined.md U16). -/
def controlStep (validate : State → State) (s : State) : Host.Outcome State Fault Refusal :=
  match s.ph with
  | .idle => .next s
  | .validate => .next (validate s)
  | .walk => .fault (.noWalkStep s.ri s.off)

end Sys2Proof.Machine
end

