-- ==== Sys2Proof/Machine/Control.lean ====
section
/-! DEFINITION. The control commands NOP and SETUP (41_setup.md). -/

namespace Sys2Proof.Machine

/-- The colour space of a `SURF_CS` code; 2 to 255 are unknown (10_state.md R41). -/
def colourSpaceOf (code : BitVec 8) : Option ColourSpace :=
  if code = 0 then some .argb8888 else if code = 1 then some .abgr8888 else none

/-- The validation step of SETUP (41_setup.md R151, R152): install the blender and succeed; or, on an
unknown code, leave none installed, `BL_CS` unchanged, and fail with ERR_CS and the code. -/
def validateSetup (s : State) : State :=
  match colourSpaceOf s.p.params.surfCs with
  | some cs => completeSuccess { s with blCs := cs, blValid := true }
  | none => raiseError .cs (s.p.params.surfCs.setWidth 32) { s with blValid := false }

/-- NOP (41_setup.md R150): completes with success in its validation step and does nothing else. -/
def execNop (s : State) : Host.Outcome State Fault Refusal := controlStep completeSuccess s

/-- SETUP (41_setup.md R151, R152). -/
def execSetup (s : State) : Host.Outcome State Fault Refusal := controlStep validateSetup s

end Sys2Proof.Machine
end

