-- ==== Sys2Proof/Machine/Checks.lean ====
section
/-! DEFINITION. The checks of the validation step (60_exceptions.md R246 to R253) and the building of run
lists with their bounds checks (42_fill.md R161, R162, R168; 43_image.md R210, R211). -/

namespace Sys2Proof.Machine

/-- All ones: the information word of a failure that has no index (60_exceptions.md R241). -/
def noInfo : Word := 0xFFFFFFFF

/-- `check_range(base, n, kinds)` (60_exceptions.md R248). A range that is admitted though it touches a
device with read side effects is refused (20_memory.md R83; 93_implementation_defined.md U18; log 13). -/
def checkRange (pl : Platform) (base : Word) (n : Nat) (kinds : List AccessKind) : Except Halt Unit :=
  if addressSpace < base.toNat + n then .error (.error .addr base)
  else if !(kinds.all fun k => memAdmit pl base.toNat n k) then .error (.error .addr base)
  else if touchesDevice pl base.toNat n then .error (.refusal (.deviceBuffer base))
  else .ok ()

/-- A base in use must be a multiple of 4 (20_memory.md R81). -/
def checkAlign (base : Word) : Except Halt Unit :=
  if base.toNat % 4 ≠ 0 then .error (.error .align base) else .ok ()

/-- `check_surface()` (60_exceptions.md R249). -/
def checkSurface (pl : Platform) (p : Params) : Except Halt Unit := do
  if p.surfBase = 0 ∨ p.surfW = 0 ∨ p.surfH = 0 ∨ p.surfStride.toNat < p.surfW.toNat then
    throw (.error .surface 0)
  checkAlign p.surfBase
  checkRange pl p.surfBase p.surfRange.size [.read, .write]

/-- `check_mask()` (60_exceptions.md R250), performed only for `MASK_METHOD` 2 and 3. -/
def checkMask (pl : Platform) (p : Params) : Except Halt Unit := do
  if (maskKind p.maskMethod).isSome then
    if p.maskBase = 0 then throw (.error .mask 0)
    checkAlign p.maskBase
    checkRange pl p.maskBase p.maskRange.size [.read]

/-- `check_image()` (60_exceptions.md R251). -/
def checkImage (pl : Platform) (p : Params) : Except Halt Unit := do
  if p.imgBase = 0 ∨ p.imgW = 0 ∨ p.imgH = 0 ∨ p.imgStride.toNat < p.imgW.toNat then
    throw (.error .image 0)
  checkAlign p.imgBase
  checkRange pl p.imgBase p.imgRange.size [.read]

/-- `check_rle()` (60_exceptions.md R252). -/
def checkRle (pl : Platform) (p : Params) : Except Halt Unit := do
  if p.rleCount ≠ 0 then
    if p.rleBase = 0 then throw (.error .rle 0)
    checkAlign p.rleBase
    checkRange pl p.rleBase p.rleRange.size [.read]

/-- The blender check (60_exceptions.md R253). -/
def checkBlender (s : State) : Except Halt Unit :=
  if s.blValid then .ok () else .error (.error .cs noInfo)

/-- The checks every FILL and IMAGE command begins with (42_fill.md R172, 43_image.md R217). -/
def checkDraw (s : State) : Except Halt Unit := do
  checkBlender s
  checkSurface s.platform s.p.params
  checkMask s.platform s.p.params

/-- The region is empty (42_fill.md R167). -/
def emptyRegion (p : Params) : Bool := decide (p.maxX ≤ p.minX) || decide (p.maxY ≤ p.minY)

/-- The destination bounds check of a rectangle (42_fill.md R168). -/
def checkRectBounds (p : Params) : Except Halt Unit :=
  if emptyRegion p ∨ (p.maxX ≤ p.surfW.toNat ∧ p.maxY ≤ p.surfH.toNat) then .ok ()
  else .error (.error .bounds noInfo)

/-- The source bounds check of a direct blit over a rectangle (43_image.md R210). -/
def checkRectSource (p : Params) : Except Halt Unit :=
  if emptyRegion p ∨ (p.originX + (p.maxX - p.minX) ≤ p.imgW.toNat ∧
      p.originY + (p.maxY - p.minY) ≤ p.imgH.toNat) then .ok ()
  else .error (.error .srcBounds noInfo)

/-- `rect_runs` of the region operands (42_fill.md R161, R167). -/
def regionRuns (p : Params) : List Run := rectRuns p.minX p.minY p.maxX p.maxY

/-- The destination bounds condition of a span (42_fill.md R168). -/
def spanInSurface (p : Params) (sp : Span) : Bool :=
  decide (sp.y < p.surfH.toNat) && decide (sp.x + sp.len ≤ p.surfW.toNat)

/-- The source bounds condition of a span of a direct blit (43_image.md R211). -/
def spanInImage (p : Params) (sp : Span) : Bool :=
  let sx0 : Int := (sp.x : Int) - p.minX + p.originX
  let sy : Int := (sp.y : Int) - p.minY + p.originY
  decide (0 ≤ sx0) && decide (sx0 + sp.len ≤ p.imgW.toNat) && decide (0 ≤ sy) && decide (sy < p.imgH.toNat)

/-- `span_runs` from record `i` on, `n` records, read and checked in list order (42_fill.md R161, R162): a
zero-length span contributes nothing and is not checked; the first span out of the surface, or, with
`direct`, out of the image, fails the command with its index. -/
def spanRuns (p : Params) (m : Memory) (direct : Bool) : Nat → Nat → Except Halt (List Run)
  | _, 0 => .ok []
  | i, n + 1 =>
    match readSpan p m i with
    | .error f => .error (.fault f)
    | .ok sp =>
      if sp.len = 0 then spanRuns p m direct (i + 1) n
      else if !spanInSurface p sp then .error (.error .bounds (BitVec.ofNat 32 i))
      else if direct && !spanInImage p sp then .error (.error .srcBounds (BitVec.ofNat 32 i))
      else do
        let rest ← spanRuns p m direct (i + 1) n
        pure (sp.run :: rest)

/-- `span_runs` of the whole list (42_fill.md R161, R162). -/
def spanListRuns (p : Params) (m : Memory) (direct : Bool) : Except Halt (List Run) :=
  spanRuns p m direct 0 p.rleCount.toNat

end Sys2Proof.Machine
end

