-- ==== Sys2Proof/Machine/Fill.lean ====
section
/-! DEFINITION. CLEAR, FILL_RECT and FILL_RLE (42_fill.md R169 to R182). -/

namespace Sys2Proof.Machine

/-- `translucent(surface, a)` (42_fill.md R170). -/
def translucent (p : Params) : Bool := decide (p.colorA < 255) || p.maskMethod != 0

/-- The translucency multiplexer (42_fill.md R170). -/
def fillPath (p : Params) : FillPath :=
  if !translucent p then .opaqueFill
  else if (maskKind p.maskMethod).isSome then .maskedFill
  else .translucentFill

/-- What a FILL fixes when its checks pass (42_fill.md R169, R170, R172): RUNS, `C`, COLOR_PM, FPATH. -/
def fixFill (s : State) (runs : List Run) : State :=
  let col := colorPm s.blCs s.p.params.colorIn
  { s with runs := runs, c := col, colorPm := col, fpath := fillPath s.p.params }

/-- The validation of FILL_RECT (42_fill.md R172, rect form). -/
def validateFillRect (s : State) : Except Halt State := do
  checkDraw s
  checkRectBounds s.p.params
  pure (fixFill s (regionRuns s.p.params))

/-- The validation of FILL_RLE (42_fill.md R172, RLE form). -/
def validateFillRle (s : State) : Except Halt State := do
  checkDraw s
  checkRle s.platform s.p.params
  let runs ← spanListRuns s.p.params s.mem false
  pure (fixFill s runs)

/-- The source of a fill under coverage `cov` (42_fill.md R178). -/
def fillSource (col : Word) (cov : Byte) : Word := if cov = 255 then col else alphaMul col cov

/-- The fill pixel function `PX_fill` (42_fill.md R178). It never answers SKIP. -/
def fillPixel (s : State) : PixelFn := fun x y cov =>
  let src := fillSource s.c cov
  match s.fpath with
  | .opaqueFill =>
    if cov = 255 then pure (some src)
    else do
      let d ← readWord s.mem (s.p.params.dstAddr x y)
      pure (some (srcover src d))
  | .maskedFill => do
    let k ← maskFactorAt s.p.params s.mem x y
    let d ← readWord s.mem (s.p.params.dstAddr x y)
    pure (some (srcover (alphaMul src k) d))
  | .translucentFill => do
    let d ← readWord s.mem (s.p.params.dstAddr x y)
    pure (some (srcover src d))

/-- The validation of CLEAR (42_fill.md R173). -/
def validateClear (s : State) : Except Halt State := do
  checkSurface s.platform s.p.params
  pure { s with runs := clearRuns s.p.params }

/-- The pixel function of CLEAR: 0, no memory read (42_fill.md R175). -/
def clearPixel : PixelFn := fun _ _ _ => .ok (some 0)

/-- CLEAR (42_fill.md R175). -/
def execClear (s : State) : Host.Outcome State Fault Refusal :=
  drawStep .clear validateClear (fun _ => clearPixel) s

/-- FILL_RECT (42_fill.md R176). -/
def execFillRect (s : State) : Host.Outcome State Fault Refusal :=
  drawStep .fillRect validateFillRect fillPixel s

/-- FILL_RLE (42_fill.md R180). -/
def execFillRle (s : State) : Host.Outcome State Fault Refusal :=
  drawStep .fillRle validateFillRle fillPixel s

end Sys2Proof.Machine
end

