-- ==== Sys2Proof/Machine/Image.lean ====
section
/-! DEFINITION. IMAGE_RECT and IMAGE_RLE: the transform, the resampler and the image pixel function
(43_image.md R201 to R220). -/

namespace Sys2Proof.Machine

/-- The identity test (43_image.md R203). -/
def isIdentity (m : Matrix3) : Bool :=
  feq m.e11 .one && feq m.e12 .zero && feq m.e13 .zero &&
  feq m.e21 .zero && feq m.e22 .one && feq m.e23 .zero &&
  feq m.e31 .zero && feq m.e32 .zero && feq m.e33 .one

/-- The determinant, in the order of 43_image.md R205. -/
def determinant (m : Matrix3) : Binary32 :=
  let c11 := fsub (fmul m.e22 m.e33) (fmul m.e32 m.e23)
  let c12 := fsub (fmul m.e21 m.e33) (fmul m.e23 m.e31)
  let c13 := fsub (fmul m.e21 m.e32) (fmul m.e22 m.e31)
  fadd (fsub (fmul m.e11 c11) (fmul m.e12 c12)) (fmul m.e13 c13)

/-- The singular test: false of a NaN (43_image.md R206). -/
def isSingular (det : Binary32) : Bool := flt (fabs det) (f32 Config.fltEps)

/-- The first two rows of the inverse, in the order of 43_image.md R207. -/
def inverseRows (m : Matrix3) (det : Binary32) : MatrixRows Binary32 :=
  let d := fdiv .one det
  { e11 := fmul (fsub (fmul m.e22 m.e33) (fmul m.e32 m.e23)) d
    e12 := fmul (fsub (fmul m.e13 m.e32) (fmul m.e12 m.e33)) d
    e13 := fmul (fsub (fmul m.e12 m.e23) (fmul m.e13 m.e22)) d
    e21 := fmul (fsub (fmul m.e23 m.e31) (fmul m.e21 m.e33)) d
    e22 := fmul (fsub (fmul m.e11 m.e33) (fmul m.e13 m.e31)) d
    e23 := fmul (fsub (fmul m.e21 m.e13) (fmul m.e11 m.e23)) d }

/-- The patterns of six entries (43_image.md R207). -/
def rowBits (r : MatrixRows Binary32) : MatrixRows Word :=
  ⟨bits r.e11, bits r.e12, bits r.e13, bits r.e21, bits r.e22, bits r.e23⟩

/-- Path selection (43_image.md R202 to R206): `none` is DIRECT, `some inv` RESAMPLE with its inverse; a
singular matrix fails the command with the determinant's pattern. -/
def transform (mat : Bool) (p : Params) : Except Halt (Option (MatrixRows Binary32)) :=
  if !mat || isIdentity p.matrix then .ok none
  else
    let det := determinant p.matrix
    if isSingular det then .error (.error .singular (bits det))
    else .ok (some (inverseRows p.matrix det))

/-- What an IMAGE command fixes when its checks pass (43_image.md R204, R207, R208, R217): RUNS, IPATH,
MASKON and, on the resample path, the inverse and `INV_E11` to `INV_E23`. -/
def fixImage (s : State) (t : Option (MatrixRows Binary32)) (runs : List Run) : State :=
  let s := { s with runs := runs, maskOn := (maskKind s.p.params.maskMethod).isSome }
  match t with
  | none => { s with ipath := .direct }
  | some rows => { s with ipath := .resample, inv := rows, invE := rowBits rows }

/-- The validation of IMAGE_RECT (43_image.md R217). -/
def validateImageRect (mat : Bool) (s : State) : Except Halt State := do
  checkDraw s
  checkImage s.platform s.p.params
  let t ← transform mat s.p.params
  checkRectBounds s.p.params
  if t.isNone then checkRectSource s.p.params
  pure (fixImage s t (regionRuns s.p.params))

/-- The validation of IMAGE_RLE (43_image.md R217). -/
def validateImageRle (mat : Bool) (s : State) : Except Halt State := do
  checkDraw s
  checkImage s.platform s.p.params
  checkRle s.platform s.p.params
  let t ← transform mat s.p.params
  let runs ← spanListRuns s.p.params s.mem t.isNone
  pure (fixImage s t runs)

/-- Direct-blit source coordinate (43_image.md R209). -/
def directCoord (p : Params) (x y : Nat) : Int × Int :=
  ((x : Int) - p.minX + p.originX, (y : Int) - p.minY + p.originY)

/-- Resample coordinate before rounding, in the order of 43_image.md R212. -/
def resampleUV (inv : MatrixRows Binary32) (x y : Nat) : Binary32 × Binary32 :=
  let fx := toF32 x
  let fy := toF32 y
  (fadd (fadd (fmul fx inv.e11) (fmul fy inv.e12)) inv.e13,
   fadd (fadd (fmul fx inv.e21) (fmul fy inv.e22)) inv.e23)

/-- One rounded coordinate is inside `[0, size)` (43_image.md R213). -/
def inRange (r : Binary32) (size : Nat) : Bool := !flt r .zero && flt r (toF32 size)

/-- The source pixel of destination `(x, y)` on the resample path; `none` when it is skipped
(43_image.md R212, R213). -/
def resampleCoord (inv : MatrixRows Binary32) (p : Params) (x y : Nat) : Option (Int × Int) :=
  let uv := resampleUV inv x y
  let rx := fround uv.1
  let ry := fround uv.2
  if inRange rx p.imgW.toNat && inRange ry p.imgH.toNat then
    some ((toInteger rx : Int), (toInteger ry : Int))
  else none

/-- The source pixel of destination `(x, y)` on either path (43_image.md R216). -/
def sourceCoord (s : State) (x y : Nat) : Option (Int × Int) :=
  match s.ipath with
  | .direct => some (directCoord s.p.params x y)
  | .resample => resampleCoord s.inv s.p.params x y

/-- The image pixel function `PX_image` under source weight `k` (43_image.md R216): opacity, then mask, then
SRC-OVER; a skipped pixel reads nothing (R214). -/
def imagePixelWeighted (s : State) (k : Byte) (x y : Nat) : Except Fault (Option Word) :=
  match sourceCoord s x y with
  | none => .ok none
  | some (sx, sy) => do
    let pix ← readImagePixel s.p.params s.mem sx sy
    let src := alphaMul pix k
    let src ← if s.maskOn then (do
        let f ← maskFactorAt s.p.params s.mem x y
        pure (alphaMul src f))
      else pure src
    let d ← readWord s.mem (s.p.params.dstAddr x y)
    pure (some (srcover src d))

/-- `PX_image` of IMAGE_RECT: the weight is the opacity (43_image.md R215). -/
def imageRectPixel (s : State) : PixelFn := fun x y _ =>
  imagePixelWeighted s s.p.params.imgOpacity x y

/-- `PX_image` of IMAGE_RLE: the coverage is folded into the opacity (43_image.md R215). -/
def imageRlePixel (s : State) : PixelFn := fun x y cov =>
  imagePixelWeighted s (alphaMul8 s.p.params.imgOpacity cov) x y

/-- IMAGE_RECT (43_image.md R218). -/
def execImageRect (mat : Bool) (s : State) : Host.Outcome State Fault Refusal :=
  drawStep (.imageRect mat) (validateImageRect mat) imageRectPixel s

/-- IMAGE_RLE (43_image.md R219). -/
def execImageRle (mat : Bool) (s : State) : Host.Outcome State Fault Refusal :=
  drawStep (.imageRle mat) (validateImageRle mat) imageRlePixel s

end Sys2Proof.Machine
end

