-- ==== Sys2Proof/Machine/Dispatch.lean ====
section
/-! DEFINITION. One engine step of a running command: one arm per constructor (30_encoding.md R102). -/

namespace Sys2Proof.Machine

def exec (i : Instr) (s : State) : Host.Outcome State Fault Refusal :=
  match i with
  | .nop => Sys2Proof.Machine.execNop s
  | .setup => Sys2Proof.Machine.execSetup s
  | .clear => Sys2Proof.Machine.execClear s
  | .fillRect => Sys2Proof.Machine.execFillRect s
  | .fillRle => Sys2Proof.Machine.execFillRle s
  | .imageRect mat => Sys2Proof.Machine.execImageRect mat s
  | .imageRle mat => Sys2Proof.Machine.execImageRle mat s

end Sys2Proof.Machine
end

