-- ==== Sys2Proof/WellFormed.lean ====
section
/-! DEFINITION. Legality of a command word by its fields (30_encoding.md R100, R105), and
well-formedness of commands and of host statements. -/

namespace Sys2Proof

/-- The fields of a command word of format CMD32 (30_encoding.md R100). -/
structure CmdFields where
  op : BitVec 8
  mat : Bool
  rsv : BitVec 23
  deriving DecidableEq, Repr

/-- Some row of 30_encoding.md R102 has this OP value. -/
def CmdFields.opKnown (f : CmdFields) : Bool :=
  f.op == 0x00 || f.op == 0x01 || f.op == 0x02 || f.op == 0x10 || f.op == 0x11 ||
    f.op == 0x20 || f.op == 0x21

/-- The reserved field must be 0 (30_encoding.md R100). -/
def CmdFields.rsvClear (f : CmdFields) : Bool := f.rsv == 0

/-- MAT must be 0 for every OP but the image commands' (30_encoding.md R100). -/
def CmdFields.matAllowed (f : CmdFields) : Bool := !f.mat || f.op == 0x20 || f.op == 0x21

/-- `legal` of 30_encoding.md R105. -/
def CmdFields.legal (f : CmdFields) : Bool := f.opKnown && f.rsvClear && f.matAllowed

/-- The fields of a command (30_encoding.md R100, R102). -/
def Instr.fields : Instr → CmdFields
  | .nop => ⟨0x00, false, 0⟩
  | .setup => ⟨0x01, false, 0⟩
  | .clear => ⟨0x02, false, 0⟩
  | .fillRect => ⟨0x10, false, 0⟩
  | .fillRle => ⟨0x11, false, 0⟩
  | .imageRect mat => ⟨0x20, mat, 0⟩
  | .imageRle mat => ⟨0x21, mat, 0⟩

/-- A command is well formed when its fields are legal. Every value of `Instr` is: MAT is a field of the
image commands alone and both its values are legal (30_encoding.md R110: nine legal words). -/
def Instr.wellFormed (i : Instr) : Bool := i.fields.legal

/-- A host statement of the assembly language addresses a register by its name (30_encoding.md R109); a
raw bus access meets the access rule of 10_state.md R21 when it is 4 bytes wide and 4-byte aligned from
`base`. The machine gives the other accesses their meaning too (ignored, or read 0). -/
def HostStmt.wellFormed (base : Nat) : HostStmt → Bool
  | .busWrite addr bytes _ => bytes == 4 && decide (base ≤ addr) && (addr - base) % 4 == 0
  | .busRead addr bytes => bytes == 4 && decide (base ≤ addr) && (addr - base) % 4 == 0
  | _ => true

end Sys2Proof
end

