-- ==== Sys2Proof/Decode.lean ====
section
/-! DEFINITION. Decoding of command words (30_encoding.md R105), total and rejecting by name, and the
encoder (R100, R102). -/

namespace Sys2Proof

/-- Why a word is illegal (30_encoding.md R105): its OP is in no row of R102, a reserved bit is set, or
MAT is set on a command that is not an image command. -/
inductive IllegalWord where
  | unknownOp (op : BitVec 8)
  | reservedBits (rsv : BitVec 23)
  | matNotAllowed (op : BitVec 8)
  deriving DecidableEq, Repr

/-- The fields of a word: `OP = w[7:0]`, `MAT = w[8]`, `RSV = w[31:9]` (30_encoding.md R100). -/
def cmdFields (w : Word) : CmdFields :=
  ⟨w.extractLsb' 0 8, w.getLsbD 8, w.extractLsb' 9 23⟩

/-- A command without a MAT operand: MAT must be 0 (30_encoding.md R100). -/
def withoutMat (op : BitVec 8) (mat : Bool) (i : Instr) : Except IllegalWord Instr :=
  if mat then .error (.matNotAllowed op) else .ok i

/-- The command of an OP value and a MAT bit (30_encoding.md R102, R105). -/
def decodeOp (op : BitVec 8) (mat : Bool) : Except IllegalWord Instr :=
  if op = 0x00 then withoutMat op mat .nop
  else if op = 0x01 then withoutMat op mat .setup
  else if op = 0x02 then withoutMat op mat .clear
  else if op = 0x10 then withoutMat op mat .fillRect
  else if op = 0x11 then withoutMat op mat .fillRle
  else if op = 0x20 then .ok (.imageRect mat)
  else if op = 0x21 then .ok (.imageRle mat)
  else .error (.unknownOp op)

/-- The decoder (30_encoding.md R105, R106): the command of a legal word, and a named rejection of every
other word. -/
def decode (w : Word) : Except IllegalWord Instr :=
  let f := cmdFields w
  if f.rsv = 0 then decodeOp f.op f.mat else .error (.reservedBits f.rsv)

/-- The word of legal fields (30_encoding.md R100). -/
def fieldsWord (f : CmdFields) : Word := f.rsv ++ (BitVec.ofBool f.mat ++ f.op : BitVec 9)

/-- The encoder: the word of a command (30_encoding.md R100, R102, R110). -/
def encode (i : Instr) : Word := fieldsWord i.fields

/-- The command the decoder reads from a table word of `nbits` bits, the bits above them 0. A command is
one 32-bit word (30_encoding.md R101), so a wider word is none. -/
def decodeTableWord (nbits w : Nat) : Option Instr :=
  if nbits ≤ 32 then
    match decode (BitVec.ofNat 32 (w % 2 ^ nbits)) with
    | .ok i => some i
    | .error _ => none
  else none

end Sys2Proof
end

