-- ==== Sys2Proof/Machine/Registers.lean ====
section
/-! DEFINITION. The register window: the register map (10_state.md R22), reads and writes of each register
(R21 to R53), and accesses by host physical address. -/

namespace Sys2Proof.Machine

/-- The byte offset of a register (10_state.md R22). -/
def regOffset : Reg → Nat
  | .id => 0x000
  | .caps => 0x004
  | .ctrl => 0x008
  | .status => 0x00C
  | .cmd => 0x010
  | .pixcount => 0x014
  | .errinfo => 0x018
  | .surfBase => 0x020
  | .surfW => 0x024
  | .surfH => 0x028
  | .surfStride => 0x02C
  | .surfCs => 0x030
  | .maskMethod => 0x040
  | .maskBase => 0x044
  | .colorIn => 0x050
  | .colorPm => 0x054
  | .bboxMin => 0x060
  | .bboxMax => 0x064
  | .rleBase => 0x070
  | .rleCount => 0x074
  | .imgBase => 0x080
  | .imgW => 0x084
  | .imgH => 0x088
  | .imgStride => 0x08C
  | .imgOpacity => 0x090
  | .imgOrigin => 0x094
  | .m11 => 0x0A0
  | .m12 => 0x0A4
  | .m13 => 0x0A8
  | .m21 => 0x0AC
  | .m22 => 0x0B0
  | .m23 => 0x0B4
  | .m31 => 0x0B8
  | .m32 => 0x0BC
  | .m33 => 0x0C0
  | .inv11 => 0x0D0
  | .inv12 => 0x0D4
  | .inv13 => 0x0D8
  | .inv21 => 0x0DC
  | .inv22 => 0x0E0
  | .inv23 => 0x0E4

/-- Every register of the map, in its order (10_state.md R22). -/
def allRegs : List Reg :=
  [.id, .caps, .ctrl, .status, .cmd, .pixcount, .errinfo,
   .surfBase, .surfW, .surfH, .surfStride, .surfCs, .maskMethod, .maskBase, .colorIn, .colorPm,
   .bboxMin, .bboxMax, .rleBase, .rleCount, .imgBase, .imgW, .imgH, .imgStride, .imgOpacity, .imgOrigin,
   .m11, .m12, .m13, .m21, .m22, .m23, .m31, .m32, .m33,
   .inv11, .inv12, .inv13, .inv21, .inv22, .inv23]

/-- The register at a byte offset; an offset the map does not list is reserved (10_state.md R21). -/
def regAt (off : Nat) : Option Reg := allRegs.find? fun r => regOffset r == off

/-- A parameter register as the 32-bit value a read returns: unimplemented bits read 0 (10_state.md R21,
R38 to R51); `none` for a register that is no parameter register. -/
def Params.read (p : Params) : Reg → Option Word
  | .surfBase => some p.surfBase
  | .surfW => some (p.surfW.setWidth 32)
  | .surfH => some (p.surfH.setWidth 32)
  | .surfStride => some p.surfStride
  | .surfCs => some (p.surfCs.setWidth 32)
  | .maskMethod => some (p.maskMethod.setWidth 32)
  | .maskBase => some p.maskBase
  | .colorIn => some p.colorIn
  | .bboxMin => some p.bboxMin
  | .bboxMax => some p.bboxMax
  | .rleBase => some p.rleBase
  | .rleCount => some p.rleCount
  | .imgBase => some p.imgBase
  | .imgW => some (p.imgW.setWidth 32)
  | .imgH => some (p.imgH.setWidth 32)
  | .imgStride => some p.imgStride
  | .imgOpacity => some (p.imgOpacity.setWidth 32)
  | .imgOrigin => some p.imgOrigin
  | .m11 => some p.m11
  | .m12 => some p.m12
  | .m13 => some p.m13
  | .m21 => some p.m21
  | .m22 => some p.m22
  | .m23 => some p.m23
  | .m31 => some p.m31
  | .m32 => some p.m32
  | .m33 => some p.m33
  | .id => none
  | .caps => none
  | .ctrl => none
  | .status => none
  | .cmd => none
  | .pixcount => none
  | .errinfo => none
  | .colorPm => none
  | .inv11 => none
  | .inv12 => none
  | .inv13 => none
  | .inv21 => none
  | .inv22 => none
  | .inv23 => none

/-- The parameter registers after a write: unimplemented bits ignore it (10_state.md R21, R38 to R51), and
a register that is no parameter register leaves them as they are. -/
def Params.write (p : Params) (v : Word) : Reg → Params
  | .surfBase => { p with surfBase := v }
  | .surfW => { p with surfW := v.setWidth 16 }
  | .surfH => { p with surfH := v.setWidth 16 }
  | .surfStride => { p with surfStride := v }
  | .surfCs => { p with surfCs := v.setWidth 8 }
  | .maskMethod => { p with maskMethod := v.setWidth 2 }
  | .maskBase => { p with maskBase := v }
  | .colorIn => { p with colorIn := v }
  | .bboxMin => { p with bboxMin := v }
  | .bboxMax => { p with bboxMax := v }
  | .rleBase => { p with rleBase := v }
  | .rleCount => { p with rleCount := v }
  | .imgBase => { p with imgBase := v }
  | .imgW => { p with imgW := v.setWidth 16 }
  | .imgH => { p with imgH := v.setWidth 16 }
  | .imgStride => { p with imgStride := v }
  | .imgOpacity => { p with imgOpacity := v.setWidth 8 }
  | .imgOrigin => { p with imgOrigin := v }
  | .m11 => { p with m11 := v }
  | .m12 => { p with m12 := v }
  | .m13 => { p with m13 := v }
  | .m21 => { p with m21 := v }
  | .m22 => { p with m22 := v }
  | .m23 => { p with m23 := v }
  | .m31 => { p with m31 := v }
  | .m32 => { p with m32 := v }
  | .m33 => { p with m33 := v }
  | .id => p
  | .caps => p
  | .ctrl => p
  | .status => p
  | .cmd => p
  | .pixcount => p
  | .errinfo => p
  | .colorPm => p
  | .inv11 => p
  | .inv12 => p
  | .inv13 => p
  | .inv21 => p
  | .inv22 => p
  | .inv23 => p

/-- `ID` (10_state.md R23). -/
def idWord : Word := 0x54564701

/-- `CAPS` (10_state.md R24). -/
def capsWord (pl : Platform) : Word := (0 : BitVec 31) ++ BitVec.ofBool pl.hasSimd4

/-- The value a read of a register that is no parameter register returns (10_state.md R23 to R37, R45,
R52); CMD reads 0 (R35), and the parameter registers are read by `Params.read`. -/
def readControl (s : State) : Reg → Word
  | .id => idWord
  | .caps => capsWord s.platform
  | .ctrl => ctrlWord s
  | .status => statusWord s
  | .pixcount => s.pixcount
  | .errinfo => s.errinfo
  | .colorPm => s.colorPm
  | .inv11 => s.invE.e11
  | .inv12 => s.invE.e12
  | .inv13 => s.invE.e13
  | .inv21 => s.invE.e21
  | .inv22 => s.invE.e22
  | .inv23 => s.invE.e23
  | _ => 0

/-- The value a host read of a register returns (10_state.md R22). A read changes no state. -/
def readReg (s : State) (r : Reg) : Word := (s.params.read r).getD (readControl s r)

/-- A host write of `v` to a register (10_state.md R22): CTRL by R25, STATUS by R34, CMD by R35, a
parameter register by R53 (at any time, the running command keeping its snapshot), a read-only register
ignoring it (R21). -/
def writeReg (s : State) (r : Reg) (v : Word) : State :=
  match r with
  | .ctrl => writeCtrl v s
  | .status => writeStatus s v
  | .cmd => writeCmd v s
  | r => { s with params := s.params.write v r }

/-- The offset of a host physical address in the register window (10_state.md R21, 00_scope.md R8). -/
def windowOffset (pl : Platform) (addr : Nat) : Option Nat :=
  if pl.pcdBase ≤ addr ∧ addr < pl.pcdBase + 0x100 then some (addr - pl.pcdBase) else none

/-- The register a bus access of `bytes` bytes at `addr` reaches: only an aligned 32-bit access to a listed
offset reaches one (10_state.md R21; log 19). -/
def busTarget (pl : Platform) (addr bytes : Nat) : Option Reg :=
  match windowOffset pl addr with
  | none => none
  | some off => if bytes = 4 ∧ off % 4 = 0 then regAt off else none

end Sys2Proof.Machine
end

