-- ==== Sys2Proof/Machine/HostPort.lean ====
section
/-! DEFINITION. The host's events (10_state.md R20, R21; 30_encoding.md R109 to R116; 20_memory.md R91) and the
pseudo-instructions of the assembly language. -/

namespace Sys2Proof.Machine

/-- A host read: the value goes to the host (`rdata`, log 17) and the block's state is unchanged. -/
def hostRead (s : State) (v : Word) : State := { s with rdata := v }

/-- The bytes the running command may write (20_memory.md R80, R91): none when no command runs or its
word is illegal. -/
def runningDest (s : State) : List ByteRange :=
  if s.busy then
    match decode s.p.cmd with
    | .ok i => destRanges i s.p.params
    | .error _ => []
  else []

/-- The bytes the running command only reads (20_memory.md R80, R91). -/
def runningSources (s : State) : List ByteRange :=
  if s.busy then
    match decode s.p.cmd with
    | .ok i => sourceRanges i s.p.params
    | .error _ => []
  else []

/-- Byte `a` lies in one of the ranges. -/
def inRanges (rs : List ByteRange) (a : Nat) : Bool := rs.any fun r => r.has a

/-- The host may not read a byte of the running command's destination (20_memory.md R91). -/
def hostMayRead (s : State) (a : Word) : Bool := !inRanges (runningDest s) a.toNat

/-- The host may not write a byte of the running command's access set (20_memory.md R91). -/
def hostMayWrite (s : State) (a : Word) : Bool :=
  !inRanges (runningDest s) a.toNat && !inRanges (runningSources s) a.toNat

/-- One host statement, already taken from the host's list; `rest` are the statements after it. A `wait`
reads STATUS and stands again before `rest` while BUSY is 1 (30_encoding.md R111). -/
def hostStatement (s : State) (rest : List HostStmt) : HostStmt → Host.Outcome State Fault Refusal
  | .wr r v => .next (writeReg s r v)
  | .rd r => .next (hostRead s (readReg s r))
  | .cmd i => .next (writeReg s .cmd (encode i))
  | .wait =>
    let st := statusWord s
    .next (hostRead { s with host := if st.getLsbD 0 then .wait :: rest else rest } st)
  | .busWrite addr bytes v =>
    match busTarget s.platform addr bytes with
    | none => .next s
    | some r => .next (writeReg s r v)
  | .busRead addr bytes =>
    match busTarget s.platform addr bytes with
    | none => .next (hostRead s 0)
    | some r => .next (hostRead s (readReg s r))
  | .memWrite a v =>
    if hostMayWrite s a then .next { s with mem := writeByte s.mem a.toNat v }
    else .refused (.hostTouchesBuffers a)
  | .memRead a =>
    if hostMayRead s a then .next (hostRead s ((readByte s.mem a.toNat).setWidth 32))
    else .refused (.hostTouchesBuffers a)

/-- The host's event: its next statement; with none left it does nothing. -/
def hostTurn (s : State) : Host.Outcome State Fault Refusal :=
  match s.host with
  | [] => .next s
  | st :: rest => hostStatement { s with host := rest } rest st

/-- A shape as the host holds it (30_encoding.md R114): the rectangle of a `rect = true` shape, or the address
and count of its span list. -/
inductive HostShape where
  | rect (bboxMin bboxMax : Word)
  | spans (base count : Word)
  deriving DecidableEq, Repr

/-- `(a<<24)|(r<<16)|(g<<8)|b`, the value of `COLOR_IN` (30_encoding.md R114, 10_state.md R44). -/
def straightColour (r g b a : Byte) : Word := pack a r g b

/-- Pseudo-instruction `compositor CS` (30_encoding.md R112). -/
def compositor (cs : Word) : List HostStmt := [.wr .surfCs cs, .cmd .setup, .wait]

/-- Pseudo-instruction `clear_surface` (30_encoding.md R113). -/
def clearSurface : List HostStmt := [.cmd .clear, .wait]

/-- Pseudo-instruction `solid_shape r, g, b, a` (30_encoding.md R114). -/
def solidShape (r g b a : Byte) : HostShape → List HostStmt
  | .rect mn mx =>
    [.wr .colorIn (straightColour r g b a), .wr .bboxMin mn, .wr .bboxMax mx, .cmd .fillRect, .wait]
  | .spans base count =>
    [.wr .colorIn (straightColour r g b a), .wr .rleBase base, .wr .rleCount count, .cmd .fillRle, .wait]

/-- Pseudo-instruction `stroke r, g, b, a` on the stroke's span list (30_encoding.md R115). -/
def stroke (r g b a : Byte) (base count : Word) : List HostStmt := solidShape r g b a (.spans base count)

/-- Pseudo-instruction `image opacity[, m]` (30_encoding.md R116): `rle` says that the image has a span
list, `mat` that a matrix is supplied. -/
def image (opacity : Word) (rle mat : Bool) : List HostStmt :=
  [.wr .imgOpacity opacity, .cmd (if rle then .imageRle mat else .imageRect mat), .wait]

end Sys2Proof.Machine
end

