-- ==== Sys2Proof/Machine/Engine.lean ====
section
/-! DEFINITION. The engine's event (42_fill.md R160) and whose event is next (60_exceptions.md R256,
70_reset_and_hazards.md R290; log 1). -/

namespace Sys2Proof.Machine

/-- The engine step of a running command whose word is illegal: the decode check, first of every
validation step, fails with ERR_ILLEGAL and the word (30_encoding.md R105, 60_exceptions.md R247). -/
def illegalStep (s : State) : Host.Outcome State Fault Refusal :=
  match s.ph with
  | .idle => .next s
  | .validate => .next (raiseError .illegal s.p.cmd s)
  | .walk => .fault (.noWalkStep s.ri s.off)

/-- The engine's event: with PH IDLE nothing (60_exceptions.md R265); else one step of the command whose
word was accepted (30_encoding.md R105, 42_fill.md R160). -/
def engineTurn (s : State) : Host.Outcome State Fault Refusal :=
  match s.ph with
  | .idle => .next s
  | _ =>
    match decode s.p.cmd with
    | .ok i => exec i s
    | .error _ => illegalStep s

/-- The agent of the next event: the one the schedule names; past its end the engine while a command
runs, else the host (log 1). -/
def nextAgent (s : State) : Agent :=
  match s.turns with
  | a :: _ => a
  | [] => match s.ph with
    | .idle => .host
    | _ => .engine

/-- The state with the next turn of the schedule used up. -/
def takeTurn (s : State) : State := { s with turns := s.turns.tail }

/-- The event of an agent. -/
def agentTurn (a : Agent) (s : State) : Host.Outcome State Fault Refusal :=
  match a with
  | .host => hostTurn s
  | .engine => engineTurn s

end Sys2Proof.Machine
end

