-- ==== Sys2Proof/Machine/Step.lean ====
section
/-! DEFINITION. One step: one atomic event (60_exceptions.md R256). -/

namespace Sys2Proof.Machine

/-- One event of the total order of 60_exceptions.md R256: the next agent's. -/
def step (s : State) : Host.Outcome State Fault Refusal := agentTurn (nextAgent s) (takeTurn s)

/-- `s` with the command word of a table row placed where the next step takes its command from: the TVG-PCD
fetches nothing (20_memory.md R94), its command is the word of an accepted CMD write (30_encoding.md
R103), so the word is accepted, and the schedule is left to the engine, whose validation step of that
command is the very next step (log 2). -/
def State.withFetchWord (s : State) (nbits w : Nat) : State :=
  { accept (BitVec.ofNat 32 (w % 2 ^ nbits)) s with turns := [] }

end Sys2Proof.Machine
end

