-- ==== Sys2Proof/Machine/Assembler.lean ====
section
/-! DEFINITION. The host-side assembly language of 30_encoding.md R109 to R117: one line of text to the host's
statements. What its text leaves open (letter case, white space, number forms) is log 23's. -/

namespace Sys2Proof.Machine

/-- The name of a register (10_state.md R22). -/
def regName : Reg → String
  | .id => "ID"
  | .caps => "CAPS"
  | .ctrl => "CTRL"
  | .status => "STATUS"
  | .cmd => "CMD"
  | .pixcount => "PIXCOUNT"
  | .errinfo => "ERRINFO"
  | .surfBase => "SURF_BASE"
  | .surfW => "SURF_W"
  | .surfH => "SURF_H"
  | .surfStride => "SURF_STRIDE"
  | .surfCs => "SURF_CS"
  | .maskMethod => "MASK_METHOD"
  | .maskBase => "MASK_BASE"
  | .colorIn => "COLOR_IN"
  | .colorPm => "COLOR_PM"
  | .bboxMin => "BBOX_MIN"
  | .bboxMax => "BBOX_MAX"
  | .rleBase => "RLE_BASE"
  | .rleCount => "RLE_COUNT"
  | .imgBase => "IMG_BASE"
  | .imgW => "IMG_W"
  | .imgH => "IMG_H"
  | .imgStride => "IMG_STRIDE"
  | .imgOpacity => "IMG_OPACITY"
  | .imgOrigin => "IMG_ORIGIN"
  | .m11 => "M_E11"
  | .m12 => "M_E12"
  | .m13 => "M_E13"
  | .m21 => "M_E21"
  | .m22 => "M_E22"
  | .m23 => "M_E23"
  | .m31 => "M_E31"
  | .m32 => "M_E32"
  | .m33 => "M_E33"
  | .inv11 => "INV_E11"
  | .inv12 => "INV_E12"
  | .inv13 => "INV_E13"
  | .inv21 => "INV_E21"
  | .inv22 => "INV_E22"
  | .inv23 => "INV_E23"

/-- The spelling of a command (30_encoding.md R110): `.m` for a matrix, on image commands alone. -/
def mnemonicOf : Instr → String
  | .nop => "nop"
  | .setup => "setup"
  | .clear => "clear"
  | .fillRect => "fill.rect"
  | .fillRle => "fill.rle"
  | .imageRect false => "image.rect"
  | .imageRect true => "image.rect.m"
  | .imageRle false => "image.rle"
  | .imageRle true => "image.rle.m"

/-- The nine commands with their MAT bit, one per legal word (30_encoding.md R110). -/
def allCommands : List Instr :=
  [.nop, .setup, .clear, .fillRect, .fillRle, .imageRect false, .imageRect true, .imageRle false,
   .imageRle true]

/-- The command of a mnemonic; any other spelling is refused (30_encoding.md R110, R117). -/
def commandOf (t : List Char) : Option Instr := allCommands.find? fun i => (mnemonicOf i).toList == t

/-- The register of a name (30_encoding.md R109). -/
def registerOf (t : List Char) : Option Reg := allRegs.find? fun r => (regName r).toList == t

/-- The value of a digit in base 16; a letter of either case. -/
def digitOf (ch : Char) : Option Nat :=
  let n := ch.toNat
  if 48 ≤ n ∧ n ≤ 57 then some (n - 48)
  else if 97 ≤ n ∧ n ≤ 102 then some (n - 87)
  else if 65 ≤ n ∧ n ≤ 70 then some (n - 55)
  else none

/-- The number whose digits in `base` are `t`, continued from `acc`. -/
def digits (base : Nat) : Nat → List Char → Option Nat
  | acc, [] => some acc
  | acc, ch :: t =>
    match digitOf ch with
    | none => none
    | some d => if d < base then digits base (acc * base + d) t else none

/-- A numeral has at least one digit. -/
def numeral (base : Nat) : List Char → Option Nat
  | [] => none
  | t => digits base 0 t

/-- A number that fits in 32 bits. -/
def fitWord (n : Option Nat) : Option Word := n.bind fun n => if n < 2 ^ 32 then some (BitVec.ofNat 32 n) else none

/-- The binary32 pattern of the decimal number `whole.frac` (30_encoding.md R109: `f(1.0)`). R109 says only "its
binary32 pattern". DESIGN CHOICE (log 23) where the number has no exact one: it is rounded to nearest, ties
to even, and one that rounds past the largest finite value gives the pattern of infinity, no refusal. -/
def decimalFloat (sign : Bool) (whole frac : List Char) : Option Word := do
  let w ← numeral 10 whole
  let f ← digits 10 w frac
  pure (bits (roundNearest sign (f * unitsPerOne) (10 ^ frac.length)))

/-- The characters before and after the first occurrence of `ch`. -/
def splitAtChar (ch : Char) : List Char → List Char × List Char
  | [] => ([], [])
  | d :: t => if d = ch then ([], t) else ((d :: (splitAtChar ch t).1), (splitAtChar ch t).2)

/-- The pattern of a float literal's inside. R109 shows only `f(1.0)`. DESIGN CHOICE (log 23): it is an optional
minus sign, one or more digits, and optionally a point with any number of digits after it, none among them,
so `f(1)` and `f(1.)` are accepted as `f(1.0)` is, and `f(.5)`, a plus sign and an exponent are refused. -/
def floatLiteral (t : List Char) : Option Word :=
  match t with
  | '-' :: u => decimalFloat true (splitAtChar '.' u).1 (splitAtChar '.' u).2
  | u => decimalFloat false (splitAtChar '.' u).1 (splitAtChar '.' u).2

/-- A value: decimal, `0x` hexadecimal, or `f(..)` (30_encoding.md R109). R109 gives `f(..)` for a float matrix
entry and does not say whether it is refused elsewhere. DESIGN CHOICE (log 23): it stands wherever a value
does, for every register and for the arguments of `compositor`, `image`, `solid_shape` and `stroke`. -/
def valueOf (t : List Char) : Option Word :=
  match t with
  | '0' :: 'x' :: h => fitWord (numeral 16 h)
  | 'f' :: '(' :: u => if u.getLast? = some ')' then floatLiteral u.dropLast else none
  | u => fitWord (numeral 10 u)

/-- A value of one byte: an `r`, `g`, `b` or `a` of `solid_shape` or `stroke` (30_encoding.md R114, R115). DESIGN
CHOICE (log 23): one above 255, of which the spec says nothing, is refused. -/
def byteValueOf (t : List Char) : Option Byte :=
  (valueOf t).bind fun w => if w.toNat < 256 then some (w.setWidth 8) else none

/-- The line without its comment (30_encoding.md R109: `;` starts one). -/
def uncomment (t : List Char) : List Char := (splitAtChar ';' t).1

/-- The tokens of a line: separated by any number of blanks, tabs, carriage returns and commas (DESIGN CHOICE, log
23). `acc` is the token being read, reversed. -/
def tokens : List Char → List Char → List (List Char)
  | acc, [] => if acc.isEmpty then [] else [acc.reverse]
  | acc, ch :: t =>
    if ch = ' ' ∨ ch = '\t' ∨ ch = '\r' ∨ ch = ',' then
      (if acc.isEmpty then tokens [] t else acc.reverse :: tokens [] t)
    else tokens (ch :: acc) t

/-- What the host's dispatch knows when it expands a pseudo-instruction (30_encoding.md R114 to R116): the
shape to fill, its stroke's span list, and whether the image has a span list. -/
structure HostScene where
  shape : HostShape := .spans 0 0
  strokeBase : Word := 0
  strokeCount : Word := 0
  imageHasRle : Bool := false
  deriving DecidableEq, Repr

/-- The statements of a tokenised line: the four statements (30_encoding.md R109 to R111), the
pseudo-instructions (R112 to R116), nothing for an empty line; anything else is refused (R110, R117). -/
def assembleTokens (sc : HostScene) (ts : List (List Char)) : Option (List HostStmt) :=
  match ts with
  | [] => some []
  | head :: args =>
    if head = "wr".toList then
      match args with
      | [n, v] => do
        let r ← registerOf n
        let w ← valueOf v
        pure [.wr r w]
      | _ => none
    else if head = "rd".toList then
      match args with
      | [n] => (registerOf n).map fun r => [.rd r]
      | _ => none
    else if head = "cmd".toList then
      match args with
      | [n] => (commandOf n).map fun i => [.cmd i]
      | _ => none
    else if head = "wait".toList then (if args.isEmpty then some [.wait] else none)
    else if head = "compositor".toList then
      match args with
      | [v] => (valueOf v).map compositor
      | _ => none
    else if head = "clear_surface".toList then (if args.isEmpty then some clearSurface else none)
    else if head = "solid_shape".toList then
      match args with
      | [r, g, b, a] => do
        let r ← byteValueOf r
        let g ← byteValueOf g
        let b ← byteValueOf b
        let a ← byteValueOf a
        pure (solidShape r g b a sc.shape)
      | _ => none
    else if head = "stroke".toList then
      match args with
      | [r, g, b, a] => do
        let r ← byteValueOf r
        let g ← byteValueOf g
        let b ← byteValueOf b
        let a ← byteValueOf a
        pure (stroke r g b a sc.strokeBase sc.strokeCount)
      | _ => none
    else if head = "image".toList then
      match args with
      | [o] => (valueOf o).map fun w => image w sc.imageHasRle false
      | [o, m] => if m = ['m'] then (valueOf o).map fun w => image w sc.imageHasRle true else none
      | _ => none
    else none

/-- One line of assembly text (30_encoding.md R109 to R117). -/
def assembleLine (sc : HostScene) (line : String) : Option (List HostStmt) :=
  assembleTokens sc (tokens [] (uncomment line.toList))

/-- A program: its lines in order; refused when a line is (30_encoding.md R109). -/
def assemble (sc : HostScene) : List String → Option (List HostStmt)
  | [] => some []
  | l :: ls => do
    let s ← assembleLine sc l
    let rest ← assemble sc ls
    pure (s ++ rest)

end Sys2Proof.Machine
end

