-- ==== Sys2Proof/Safety.lean ====
section
/-! DEFINITION. What counts as a usable buffer, a good state and a safe run, in the spec's own arithmetic (not
through the checks of Machine/Checks.lean), for statements to be made in. -/

namespace Sys2Proof.Machine

/-- A range of `n` bytes at `base` that the range check passes (60_exceptions.md R248) and that touches no
device with read side effects (20_memory.md R83). -/
structure RangeUsable (pl : Platform) (base n : Nat) (kinds : List AccessKind) : Prop where
  inSpace : base + n ≤ 2 ^ 32
  admitted : ∀ k ∈ kinds, memAdmit pl base n k = true
  noDevice : touchesDevice pl base n = false

/-- A usable surface (60_exceptions.md R249). -/
structure SurfaceUsable (pl : Platform) (p : Params) : Prop where
  base : p.surfBase ≠ 0
  width : p.surfW ≠ 0
  height : p.surfH ≠ 0
  stride : p.surfW.toNat ≤ p.surfStride.toNat
  aligned : p.surfBase.toNat % 4 = 0
  range : RangeUsable pl p.surfBase.toNat
    (4 * ((p.surfH.toNat - 1) * p.surfStride.toNat + p.surfW.toNat)) [.read, .write]

/-- With `AlphaMask` or `InvAlphaMask`, a usable mask of the surface's geometry (60_exceptions.md R250). -/
structure MaskUsable (pl : Platform) (p : Params) : Prop where
  base : (p.maskMethod = 2 ∨ p.maskMethod = 3) → p.maskBase ≠ 0
  aligned : (p.maskMethod = 2 ∨ p.maskMethod = 3) → p.maskBase.toNat % 4 = 0
  range : (p.maskMethod = 2 ∨ p.maskMethod = 3) → RangeUsable pl p.maskBase.toNat
    (4 * ((p.surfH.toNat - 1) * p.surfStride.toNat + p.surfW.toNat)) [.read]

/-- A usable source image (60_exceptions.md R251). -/
structure ImageUsable (pl : Platform) (p : Params) : Prop where
  base : p.imgBase ≠ 0
  width : p.imgW ≠ 0
  height : p.imgH ≠ 0
  stride : p.imgW.toNat ≤ p.imgStride.toNat
  aligned : p.imgBase.toNat % 4 = 0
  range : RangeUsable pl p.imgBase.toNat
    (4 * ((p.imgH.toNat - 1) * p.imgStride.toNat + p.imgW.toNat)) [.read]

/-- A usable span list (60_exceptions.md R252); an empty one needs nothing. -/
structure SpansUsable (pl : Platform) (p : Params) : Prop where
  base : p.rleCount ≠ 0 → p.rleBase ≠ 0
  aligned : p.rleCount ≠ 0 → p.rleBase.toNat % 4 = 0
  range : p.rleCount ≠ 0 → RangeUsable pl p.rleBase.toNat (8 * p.rleCount.toNat) [.read]

/-- A run lies inside the surface and is not empty (42_fill.md R161, R168). -/
def RunInSurface (p : Params) (r : Run) : Prop :=
  0 < r.len ∧ r.x0 + r.len ≤ p.surfW.toNat ∧ r.y < p.surfH.toNat

/-- A run's direct-blit source lies inside the image (43_image.md R210, R211). -/
def RunInImage (p : Params) (r : Run) : Prop :=
  0 ≤ (r.x0 : Int) - p.minX + p.originX ∧ (r.x0 : Int) - p.minX + p.originX + r.len ≤ p.imgW.toNat ∧
    0 ≤ (r.y : Int) - p.minY + p.originY ∧ (r.y : Int) - p.minY + p.originY < p.imgH.toNat

/-- The pixels of the runs before the cursor and of the current run before the cursor (10_state.md R36). -/
def pixelsDone (s : State) : Nat := ((s.runs.take s.ri).map Run.len).sum + s.off

/-- The groups a run's `left` remaining pixels take (70_reset_and_hazards.md R290). -/
def groupsOf (simd : Bool) (left : Nat) : Nat := if simd then left / 4 + left % 4 else left

/-- The groups the walk still has to take from the cursor (70_reset_and_hazards.md R290). -/
def groupsLeft (s : State) : Nat :=
  match s.runs.drop s.ri with
  | [] => 0
  | r :: rest => groupsOf s.p.simdEn (r.len - s.off) + (rest.map fun t => groupsOf s.p.simdEn t.len).sum

/-- What the walk of command `i` relies on (10_state.md R58; 42_fill.md R172; 43_image.md R217). -/
def WalkPathOk (i : Instr) (s : State) : Prop :=
  match i with
  | .nop => False
  | .setup => False
  | .clear => True
  | .fillRect => s.c = colorPm s.blCs s.p.params.colorIn ∧ s.colorPm = s.c ∧ s.fpath = fillPath s.p.params ∧
      MaskUsable s.platform s.p.params
  | .fillRle => s.c = colorPm s.blCs s.p.params.colorIn ∧ s.colorPm = s.c ∧ s.fpath = fillPath s.p.params ∧
      MaskUsable s.platform s.p.params
  | .imageRect _ => s.maskOn = (maskKind s.p.params.maskMethod).isSome ∧ MaskUsable s.platform s.p.params ∧
      ImageUsable s.platform s.p.params ∧ (s.ipath = .direct → ∀ r ∈ s.runs, RunInImage s.p.params r) ∧
      (s.ipath = .resample → s.invE = rowBits s.inv)
  | .imageRle _ => s.maskOn = (maskKind s.p.params.maskMethod).isSome ∧ MaskUsable s.platform s.p.params ∧
      ImageUsable s.platform s.p.params ∧ (s.ipath = .direct → ∀ r ∈ s.runs, RunInImage s.p.params r) ∧
      (s.ipath = .resample → s.invE = rowBits s.inv)

/-- A good walk (42_fill.md R160 to R164): a drawing command's, on a usable surface, over runs inside it,
with the cursor on a pixel of a run and `PIXCOUNT` counting the pixels before it. -/
structure WalkOk (s : State) : Prop where
  command : ∃ i, decode s.p.cmd = .ok i ∧ WalkPathOk i s ∧ overlaps i s.p.params = false
  surface : SurfaceUsable s.platform s.p.params
  runs : ∀ r ∈ s.runs, RunInSurface s.p.params r
  cursor : ∃ r, s.runs[s.ri]? = some r ∧ s.off < r.len
  count : s.pixcount = BitVec.ofNat 32 (pixelsDone s)

/-- A good state: what every reachable state satisfies. -/
structure State.Inv (s : State) : Prop where
  /-- `IDLE` exactly when `STATUS.BUSY = 0` (10_state.md R55). -/
  busy_iff : s.busy = false ↔ s.ph = .idle
  /-- `DONE` and `ERR` are never both 1 (10_state.md R30). -/
  not_both : ¬ (s.done = true ∧ s.err = true)
  /-- Acceptance clears the last result (30_encoding.md R103), and only completion sets one. -/
  busy_clear : s.busy = true → s.done = false ∧ s.err = false ∧ s.errcode = 0 ∧ s.errinfo = 0
  /-- A success reports code 0 and information 0 (60_exceptions.md R244). -/
  done_clear : s.done = true → s.errcode = 0 ∧ s.errinfo = 0
  /-- Codes 12 to 15 are never produced (60_exceptions.md R241). -/
  codes : s.errcode.toNat ≤ 11
  /-- A failure reports a code (60_exceptions.md R245). -/
  err_code : s.err = true → s.errcode ≠ 0
  /-- SIMD_EN and its snapshot are 0 without the combiner (10_state.md R25, 42_fill.md R164). -/
  simd : s.platform.hasSimd4 = false → s.simdEn = false ∧ s.p.simdEn = false
  /-- Memory is in its one canonical form. -/
  memory : Memory.wf s.mem
  /-- Before the walk no pixel is processed (10_state.md R36). -/
  unwalked : s.ph = .validate → s.pixcount = 0
  /-- In the walk the engine's hidden state is that of a good walk. -/
  walk : s.ph = .walk → WalkOk s

/-- No step of the first `n` from `s` stops with a fault. -/
def FaultFree (n : Nat) (s : State) : Prop := ∀ k ≤ n, ∀ f, Sys2Proof.core.run k s ≠ .fault f

/-! The results of a step in the spec's own words, for statements to name. -/

/-- The state of a successful completion (60_exceptions.md R244). -/
def successState (s : State) : State :=
  { s with done := true, err := false, errcode := 0, busy := false, ph := .idle }

/-- The state of a completion that failed with `code` and `info` (60_exceptions.md R245). -/
def failureState (code : BitVec 4) (info : Word) (s : State) : State :=
  { s with errcode := code, errinfo := info, err := true, done := false, busy := false, ph := .idle }

/-- The state of a command whose validation has passed and whose walk begins (42_fill.md R160). -/
def walkingState (s : State) : State := { s with ri := 0, off := 0, ph := .walk }

/-- The state of a command whose validation has passed with no run to walk (42_fill.md R160, R165). -/
def emptyWalkState (s : State) : State := successState { s with ri := 0, off := 0 }

/-- `n` of the group at the cursor in run `r` (42_fill.md R164). -/
def groupAt (s : State) (r : Run) : Nat := if s.p.simdEn = true ∧ 4 ≤ r.len - s.off then 4 else 1

/-- The state after a group of `n` pixels of run `r` that left the memory `m` (42_fill.md R164). -/
def afterGroup (s : State) (r : Run) (n : Nat) (m : Memory) : State :=
  let t := { s with mem := m, pixcount := s.pixcount + BitVec.ofNat 32 n }
  if s.off + n < r.len then { t with off := s.off + n }
  else if s.ri + 1 < s.runs.length then { t with ri := s.ri + 1, off := 0 }
  else successState { t with ri := s.ri + 1, off := 0 }

/-- Memory `m'` is `m` with the word `v` stored at `dst_addr(x + j, y)` for every lane `j < n` whose value is
`v`, and no other byte changed (42_fill.md R164, R166). -/
structure GroupStored (p : Params) (y x n : Nat) (val : Nat → Option Word) (m m' : Memory) : Prop where
  form : Memory.wf m'
  stored : ∀ j < n, ∀ v, val j = some v → wordAt m' (p.dstAddr (x + j) y) = v
  kept : ∀ a, (∀ j < n, (val j).isSome = true →
      ¬ (p.dstAddr (x + j) y ≤ a ∧ a < p.dstAddr (x + j) y + 4)) → readByte m' a = readByte m a

/-- The cursor is on a pixel of run `r` in the walk of a command on a usable surface, the run being inside
it (42_fill.md R161, R164, R168). -/
structure CursorOn (s : State) (r : Run) : Prop where
  walking : s.ph = .walk
  current : s.runs[s.ri]? = some r
  inRun : s.off < r.len
  inSurface : RunInSurface s.p.params r
  surface : SurfaceUsable s.platform s.p.params
  memory : Memory.wf s.mem

/-- A source pixel modulated by the mask pixel of destination `(x, y)` when a mask is bound
(40_color_algebra.md R131, R132). -/
def maskModulated (p : Params) (m : Memory) (x y : Nat) (src : Word) : Word :=
  if p.maskMethod = 2 then alphaMul src (alpha (wordAt m (p.maskAddr x y)))
  else if p.maskMethod = 3 then alphaMul src (255 - alpha (wordAt m (p.maskAddr x y)))
  else src

/-- What a FILL stores over destination `d` at `(x, y)`, in closed form (42_fill.md R179). -/
def fillResult (path : FillPath) (p : Params) (m : Memory) (c : Word) (cov : Byte) (x y : Nat) : Word :=
  let d := wordAt m (p.dstAddr x y)
  let src := if cov = 255 then c else alphaMul c cov
  match path with
  | .opaqueFill => if cov = 255 then c else srcover src d
  | .maskedFill => srcover (maskModulated p m x y src) d
  | .translucentFill => srcover src d

/-- The source weight of an image command (43_image.md R215). -/
def imageWeight (i : Instr) (p : Params) (cov : Byte) : Byte :=
  match i with
  | .imageRle _ => alphaMul8 p.imgOpacity cov
  | _ => p.imgOpacity

/-- What an IMAGE command stores at `(x, y)` from image pixel `(sx, sy)` under weight `k`
(43_image.md R216). -/
def imageResult (p : Params) (m : Memory) (k : Byte) (sx sy x y : Nat) : Word :=
  srcover (maskModulated p m x y (alphaMul (wordAt m (p.imgAddr sx sy)) k)) (wordAt m (p.dstAddr x y))

/-- Span record `i` as memory holds it (20_memory.md R78). -/
def spanOf (p : Params) (m : Memory) (i : Nat) : Span :=
  let w0 := (wordAt m (p.rleBase.toNat + 8 * i)).toNat
  let w1 := (wordAt m (p.rleBase.toNat + 8 * i + 4)).toNat
  ⟨w0 % 2 ^ 16, w0 / 2 ^ 16, w1 % 2 ^ 16, BitVec.ofNat 8 (w1 / 2 ^ 16)⟩

/-- `span_runs`: the runs of the spans of positive length, in list order (42_fill.md R161). -/
def listedRuns (p : Params) (m : Memory) : List Run :=
  (((List.range p.rleCount.toNat).map (spanOf p m)).filter fun sp => decide (0 < sp.len)).map Span.run

/-- Span `i` has no pixel, or lies in the surface (42_fill.md R168). -/
def SpanInSurface (p : Params) (m : Memory) (i : Nat) : Prop :=
  0 < (spanOf p m i).len → (spanOf p m i).y < p.surfH.toNat ∧
    (spanOf p m i).x + (spanOf p m i).len ≤ p.surfW.toNat

/-- Span `i` has no pixel, or its direct-blit source lies in the image (43_image.md R211). -/
def SpanInImage (p : Params) (m : Memory) (i : Nat) : Prop :=
  0 < (spanOf p m i).len → RunInImage p (spanOf p m i).run

/-- The region is empty (42_fill.md R167). -/
def RegionEmpty (p : Params) : Prop := p.maxX ≤ p.minX ∨ p.maxY ≤ p.minY

/-- The rectangle's rows, each a run of full coverage (42_fill.md R161). -/
def rowRuns (p : Params) : List Run :=
  (List.range (p.maxY - p.minY)).map fun k => ⟨p.minY + k, p.minX, p.maxX - p.minX, 255⟩

/-- IPATH is DIRECT: no matrix, or the identity (43_image.md R204). -/
def TakesDirect (mat : Bool) (p : Params) : Prop := mat = false ∨ isIdentity p.matrix = true

/-- IPATH is RESAMPLE and the matrix is not singular (43_image.md R204, R206). -/
def TakesResample (mat : Bool) (p : Params) : Prop :=
  mat = true ∧ isIdentity p.matrix = false ∧ flt (fabs (determinant p.matrix)) (f32 0x34000000) = false

/-- Byte `a` lies in a range command `i` only reads: its mask with `MASK_METHOD` 2 or 3, its image, its
span list (20_memory.md R80). -/
def SourceByte (i : Instr) (p : Params) (a : Nat) : Prop :=
  (takesMask i = true ∧ (p.maskMethod = 2 ∨ p.maskMethod = 3) ∧ p.maskRange.has a = true) ∨
  (takesImage i = true ∧ p.imgRange.has a = true) ∨ (takesSpans i = true ∧ p.rleRange.has a = true)

/-- The source ranges of command `i` share no byte with its destination (20_memory.md R92). -/
def BuffersApart (i : Instr) (p : Params) : Prop := ∀ a, p.surfRange.has a = true → ¬ SourceByte i p a

/-- The checks of a FILL or IMAGE command that come before its region or spans pass
(42_fill.md R172, 43_image.md R217). -/
structure DrawReady (s : State) : Prop where
  blender : s.blValid = true
  surface : SurfaceUsable s.platform s.p.params
  mask : MaskUsable s.platform s.p.params

/-- The same state without `SIMD_EN` in its snapshot. -/
def scalarOf (s : State) : State := { s with p := { s.p with simdEn := false } }

/-- `v` is the exact value (-1)^sign * (n / d), in units of 2^-149, rounded to nearest, ties to even (00_scope.md
R14). Half a step above the largest finite value, (2^25 - 1) * 2^252 units, is where infinity begins
(IEEE 754, log 10); below it `v` is finite, no finite binary32 value is nearer, and one that is as near is
`v` itself unless the significand of `v` is even. -/
structure RoundsTo (sign : Bool) (n d : Nat) (v : Binary32) : Prop where
  finite : n < (2 ^ 25 - 1) * 2 ^ 252 * d → ∃ m k, v = .fin sign m k ∧
    ∀ (w : Word) (t : Bool) (m' k' : Nat), f32 w = .fin t m' k' →
      let near := ((m * 2 ^ k * d : Nat) - n : Int).natAbs
      let other := ((m' * 2 ^ k' * d : Nat) - n : Int).natAbs
      near ≤ other ∧ (near = other → m * 2 ^ k = m' * 2 ^ k' ∨ m % 2 = 0)
  infinite : (2 ^ 25 - 1) * 2 ^ 252 * d ≤ n → v = .inf sign

/-- The implemented bits of a parameter register; none for another register (10_state.md R22, R38 to
R51). -/
def implementedBits : Reg → Word
  | .surfBase => 0xFFFFFFFF
  | .surfW => 0xFFFF
  | .surfH => 0xFFFF
  | .surfStride => 0xFFFFFFFF
  | .surfCs => 0xFF
  | .maskMethod => 0x3
  | .maskBase => 0xFFFFFFFF
  | .colorIn => 0xFFFFFFFF
  | .bboxMin => 0xFFFFFFFF
  | .bboxMax => 0xFFFFFFFF
  | .rleBase => 0xFFFFFFFF
  | .rleCount => 0xFFFFFFFF
  | .imgBase => 0xFFFFFFFF
  | .imgW => 0xFFFF
  | .imgH => 0xFFFF
  | .imgStride => 0xFFFFFFFF
  | .imgOpacity => 0xFF
  | .imgOrigin => 0xFFFFFFFF
  | .m11 => 0xFFFFFFFF
  | .m12 => 0xFFFFFFFF
  | .m13 => 0xFFFFFFFF
  | .m21 => 0xFFFFFFFF
  | .m22 => 0xFFFFFFFF
  | .m23 => 0xFFFFFFFF
  | .m31 => 0xFFFFFFFF
  | .m32 => 0xFFFFFFFF
  | .m33 => 0xFFFFFFFF
  | .id => 0
  | .caps => 0
  | .ctrl => 0
  | .status => 0
  | .cmd => 0
  | .pixcount => 0
  | .errinfo => 0
  | .colorPm => 0
  | .inv11 => 0
  | .inv12 => 0
  | .inv13 => 0
  | .inv21 => 0
  | .inv22 => 0
  | .inv23 => 0

end Sys2Proof.Machine
end

