-- ==== Sys2Proof/Certificates/Slice0/Obligations.lean ====
section
/-! DEFINITION. The statements for the provers: one `Obligations.<Name> : Prop` each. A docstring names the
rules of the spec a statement formalises, or says that it is the model's choice and names the log entry. -/

section
open Sys2Proof Sys2Proof.Machine

/-! ## Encoding and decoding -/

/-- 30_encoding.md R100, R102: the decoder reads every command back from its word, and the word of a command
is the only word it reads as that command, so no bit of an encoding is dropped. -/
def Obligations.DecodeAndEncodeAgree : Prop :=
  (∀ i : Instr, i.wellFormed = true ∧ decode (encode i) = .ok i) ∧
  ∀ (w : Word) (i : Instr), decode w = .ok i → w = encode i

/-- 30_encoding.md R105: a legal word runs as the command it decodes to, and an illegal one completes with
ERR_ILLEGAL (code 1) and the word, changing nothing else. -/
def Obligations.IllegalWordFailsWithItself : Prop :=
  ∀ s : State, nextAgent s = .engine → s.ph = .validate →
    let op := s.p.cmd.toNat % 256
    let mat := s.p.cmd.toNat / 256 % 2
    let rsv := s.p.cmd.toNat / 512
    let legal := op ∈ [0x00, 0x01, 0x02, 0x10, 0x11, 0x20, 0x21] ∧ rsv = 0 ∧
      (mat = 0 ∨ op ∈ [0x20, 0x21])
    (legal → ∃ i, decode s.p.cmd = .ok i ∧ step s = exec i (takeTurn s)) ∧
    (¬ legal → step s = .next (failureState 1 s.p.cmd (takeTurn s)))

/-- 30_encoding.md R110: the nine spellings, their words and their commands; every other spelling is
refused. -/
def Obligations.NineSpellingsAndTheirWords : Prop :=
  let table : List (String × Instr × Word) :=
    [("nop", .nop, 0x00000000), ("setup", .setup, 0x00000001), ("clear", .clear, 0x00000002),
     ("fill.rect", .fillRect, 0x00000010), ("fill.rle", .fillRle, 0x00000011),
     ("image.rect", .imageRect false, 0x00000020), ("image.rect.m", .imageRect true, 0x00000120),
     ("image.rle", .imageRle false, 0x00000021), ("image.rle.m", .imageRle true, 0x00000121)]
  ∀ sc : HostScene,
    (∀ e ∈ table, assembleTokens sc ["cmd".toList, e.1.toList] = some [.cmd e.2.1] ∧
      encode e.2.1 = e.2.2 ∧ decode e.2.2 = .ok e.2.1) ∧
    ∀ t : List Char, (∀ e ∈ table, t ≠ e.1.toList) → assembleTokens sc ["cmd".toList, t] = none

/-! ## Steps, the host and the registers -/

/-- 42_fill.md R160: when the engine moves and a command runs, the step is one engine step of the command its
word decodes to; a word placed by `withFetchWord` runs in the very next step (log 2). -/
def Obligations.StepRunsTheDecodedCommand : Prop :=
  (∀ (s : State) (i : Instr), nextAgent s = .engine → s.ph ≠ .idle → decode s.p.cmd = .ok i →
    step s = exec i { s with turns := s.turns.tail }) ∧
  ∀ (s : State) (w : Word) (i : Instr), decode w = .ok i →
    step (s.withFetchWord 32 w.toNat) = exec i { accept w s with turns := [] }

/-- 60_exceptions.md R265 and the model's schedule (log 1, DESIGN CHOICE): the schedule's head names who moves,
and past its end the engine moves exactly while a command runs. An idle engine holds all state; a host
with nothing to do does too; a host statement is performed as `hostStatement` says. -/
def Obligations.TurnsOfHostAndIdleEngine : Prop :=
  (∀ (s : State) (a : Agent) (l : List Agent), s.turns = a :: l → nextAgent s = a) ∧
  (∀ s : State, s.turns = [] → (nextAgent s = .engine ↔ s.ph ≠ .idle)) ∧
  (∀ (i : Instr) (s : State), s.ph = .idle → exec i s = .next s) ∧
  (∀ s : State, nextAgent s = .engine → s.ph = .idle → step s = .next { s with turns := s.turns.tail }) ∧
  (∀ s : State, nextAgent s = .host → s.host = [] → step s = .next { s with turns := s.turns.tail }) ∧
  ∀ (s : State) (st : HostStmt) (rest : List HostStmt), nextAgent s = .host → s.host = st :: rest →
    step s = hostStatement { s with turns := s.turns.tail, host := rest } rest st

/-- 30_encoding.md R103: acceptance, of any word; and the statement `cmd` of a command is the write of that
command's word (R110). -/
def Obligations.IdleCommandWriteIsAccepted : Prop :=
  ∀ (s : State) (rest : List HostStmt), s.busy = false →
    let accepted : Word → State := fun w =>
      { s with
        p := { cmd := w, simdEn := s.simdEn && s.platform.hasSimd4, params := s.params }
        busy := true
        done := false
        err := false
        errcode := 0
        pixcount := 0
        errinfo := 0
        ph := .validate }
    (∀ w : Word, hostStatement s rest (.wr .cmd w) = .next (accepted w)) ∧
    ∀ i : Instr, hostStatement s rest (.cmd i) = .next (accepted (encode i))

/-- 30_encoding.md R104: a command write while one runs is dropped. -/
def Obligations.BusyCommandWriteSetsOverflow : Prop :=
  ∀ (s : State) (rest : List HostStmt), s.busy = true →
    (∀ w : Word, hostStatement s rest (.wr .cmd w) = .next { s with ovf := true }) ∧
    ∀ i : Instr, hostStatement s rest (.cmd i) = .next { s with ovf := true }

/-- 10_state.md R34: a STATUS write clears the written ones among DONE, ERR and OVF, and nothing else. -/
def Obligations.StatusWriteClearsWrittenOnes : Prop :=
  ∀ (s : State) (rest : List HostStmt) (v : Word),
    hostStatement s rest (.wr .status v) = .next { s with
      done := if v.getLsbD 1 = true then false else s.done
      err := if v.getLsbD 2 = true then false else s.err
      ovf := if v.getLsbD 3 = true then false else s.ovf }

/-- 10_state.md R27, R33: where each status bit stands in a STATUS read, and that a STATUS write leaves
CS_VALID and CS_SEL. -/
def Obligations.StatusReadShowsEachField : Prop :=
  ∀ s : State, let v := readReg s .status
    v.getLsbD 0 = s.busy ∧ v.getLsbD 1 = s.done ∧ v.getLsbD 2 = s.err ∧ v.getLsbD 3 = s.ovf ∧
    v.extractLsb' 4 4 = 0 ∧ v.extractLsb' 8 4 = s.errcode ∧ v.extractLsb' 12 4 = 0 ∧
    v.getLsbD 16 = s.blValid ∧ v.getLsbD 17 = decide (s.blCs = .abgr8888) ∧ v.extractLsb' 18 14 = 0 ∧
    ∀ u : Word, (writeReg s .status u).blValid = s.blValid ∧ (writeReg s .status u).blCs = s.blCs

/-- 10_state.md R21, R53: a write to a parameter register, at any time, changes that register alone, in its
implemented bits; the running command's snapshot and all other state keep their values. -/
def Obligations.ParameterWriteReadsBackAlone : Prop :=
  ∀ (s : State) (r : Reg) (v : Word), implementedBits r ≠ 0 →
    readReg (writeReg s r v) r = v &&& implementedBits r ∧
    (∀ q : Reg, q ≠ r → readReg (writeReg s r v) q = readReg s q) ∧
    writeReg s r v = { s with params := (writeReg s r v).params }

/-- 10_state.md R23, R24: ID and CAPS read their constants in every state, so reset does not affect them. R35 to
R37, R45, R52: CMD reads 0, and PIXCOUNT, ERRINFO, COLOR_PM and each INV register read the one piece of
state they stand for. R21: a write to a read-only register changes nothing. -/
def Obligations.IdentityRegistersAreConstant : Prop :=
  regOffset .id = 0x000 ∧ regOffset .caps = 0x004 ∧
  ∀ s : State, readReg s .id = 0x54564701 ∧
    readReg s .caps = (if s.platform.hasSimd4 = true then 1 else 0) ∧
    readReg s .cmd = 0 ∧ readReg s .pixcount = s.pixcount ∧ readReg s .errinfo = s.errinfo ∧
    readReg s .colorPm = s.colorPm ∧
    readReg s .inv11 = s.invE.e11 ∧ readReg s .inv12 = s.invE.e12 ∧ readReg s .inv13 = s.invE.e13 ∧
    readReg s .inv21 = s.invE.e21 ∧ readReg s .inv22 = s.invE.e22 ∧ readReg s .inv23 = s.invE.e23 ∧
    ∀ v : Word, ∀ r ∈ [Reg.id, .caps, .pixcount, .errinfo, .colorPm, .inv11, .inv12, .inv13, .inv21,
      .inv22, .inv23], writeReg s r v = s

/-- 10_state.md R25: what a CTRL write without SRST sets and how CTRL reads afterwards; SRST and the reserved
bits read 0 in every state. -/
def Obligations.ControlWriteSetsItsTwoBits : Prop :=
  ∀ (s : State) (v : Word),
    (v.getLsbD 2 = false →
      writeReg s .ctrl v = { s with simdEn := v.getLsbD 0 && s.platform.hasSimd4, irqEn := v.getLsbD 1 } ∧
      readReg (writeReg s .ctrl v) .ctrl = v &&& (if s.platform.hasSimd4 = true then 3 else 2)) ∧
    readReg s .ctrl &&& 0xFFFFFFFC = 0

/-- 10_state.md R63, 70_reset_and_hazards.md R280, R281: every value the spec gives for reset holds after
power-on and after a soft reset from any state; a soft reset leaves memory as it is. Nothing is said of
the fields R63 leaves unspecified (log 5). -/
def Obligations.ResetLeavesTheSpecifiedValues : Prop :=
  ∀ (s : State) (v : Word), v.getLsbD 2 = true →
    (writeReg s .ctrl v).mem = s.mem ∧ (writeReg s .ctrl v).platform = s.platform ∧
    ∀ t ∈ [State.reset, writeReg s .ctrl v],
      (∀ r : Reg, r ≠ .id → r ≠ .caps → readReg t r = 0) ∧ readReg t .id = 0x54564701 ∧
      t.blValid = false ∧ t.blCs = .argb8888 ∧ t.ph = .idle ∧ t.busy = false ∧ t.done = false ∧
      t.err = false ∧ t.ovf = false ∧ t.errcode = 0 ∧ t.simdEn = false ∧ t.irqEn = false ∧ t.irq = false

/-- 10_state.md R21, R22: the map's 41 offsets; an aligned 32-bit access at one, and the host statements `wr` and
`rd` of the register there (30_encoding.md R109), write or read that register, a read changing no state but
the value the host holds (log 17); any other access in the 256-byte window is ignored as a write and returns
0 as a read. THE MODEL'S CHOICE: that alignment is the offset's (log 19, DEDUCED), and the last clause, that an
access outside the window is ignored or returns 0 (log 7, DESIGN CHOICE), where R21 says nothing. -/
def Obligations.BusAccessReachesOneRegister : Prop :=
  let map : List (Reg × Nat) :=
    [(.id, 0x000), (.caps, 0x004), (.ctrl, 0x008), (.status, 0x00C), (.cmd, 0x010), (.pixcount, 0x014),
     (.errinfo, 0x018)] ++
    [(.surfBase, 0x020), (.surfW, 0x024), (.surfH, 0x028), (.surfStride, 0x02C), (.surfCs, 0x030),
     (.maskMethod, 0x040), (.maskBase, 0x044), (.colorIn, 0x050), (.colorPm, 0x054)] ++
    [(.bboxMin, 0x060), (.bboxMax, 0x064), (.rleBase, 0x070), (.rleCount, 0x074), (.imgBase, 0x080),
     (.imgW, 0x084), (.imgH, 0x088), (.imgStride, 0x08C), (.imgOpacity, 0x090), (.imgOrigin, 0x094)] ++
    [(.m11, 0x0A0), (.m12, 0x0A4), (.m13, 0x0A8), (.m21, 0x0AC), (.m22, 0x0B0), (.m23, 0x0B4),
     (.m31, 0x0B8), (.m32, 0x0BC), (.m33, 0x0C0)] ++
    [(.inv11, 0x0D0), (.inv12, 0x0D4), (.inv13, 0x0D8), (.inv21, 0x0DC), (.inv22, 0x0E0), (.inv23, 0x0E4)]
  ∀ (s : State) (rest : List HostStmt) (v : Word),
    let base := s.platform.pcdBase
    (∀ r : Reg, (r, regOffset r) ∈ map) ∧
    (∀ e ∈ map,
      hostStatement s rest (.wr e.1 v) = .next (writeReg s e.1 v) ∧
      hostStatement s rest (.rd e.1) = .next { s with rdata := readReg s e.1 } ∧
      hostStatement s rest (.busWrite (base + e.2) 4 v) = .next (writeReg s e.1 v) ∧
      hostStatement s rest (.busRead (base + e.2) 4) = .next { s with rdata := readReg s e.1 }) ∧
    (∀ off bytes : Nat, off < 0x100 → (bytes ≠ 4 ∨ ∀ e ∈ map, off ≠ e.2) →
      hostStatement s rest (.busWrite (base + off) bytes v) = .next s ∧
      hostStatement s rest (.busRead (base + off) bytes) = .next { s with rdata := 0 }) ∧
    ∀ addr bytes : Nat, addr < base ∨ base + 0x100 ≤ addr →
      hostStatement s rest (.busWrite addr bytes v) = .next s ∧
      hostStatement s rest (.busRead addr bytes) = .next { s with rdata := 0 }

/-- 10_state.md R60, 60_exceptions.md R255: in a good state no interrupt is pending while a command runs, and
the line rises exactly in the engine step that completes it with IRQ_EN set; acceptance, a STATUS write of
its pending bits and clearing IRQ_EN lower it. -/
def Obligations.InterruptRisesAtCompletion : Prop :=
  (∀ s t : State, s.Inv → nextAgent s = .engine → s.ph ≠ .idle → step s = .next t →
    s.irq = false ∧ t.irq = (s.irqEn && !t.busy)) ∧
  ∀ s : State,
    (∀ w : Word, s.busy = false → (writeReg s .cmd w).irq = false) ∧ (writeReg s .status 0x6).irq = false ∧
    (writeReg s .ctrl 0x0).irq = false ∧ (writeReg s .ctrl 0x2).irq = (s.done || s.err) ∧
    ({ s with ovf := true } : State).irq = s.irq

/-- 30_encoding.md R111: `wait` reads STATUS and is performed again while bit 0 of the value is 1. -/
def Obligations.WaitPollsUntilNotBusy : Prop :=
  ∀ (s : State) (rest : List HostStmt), hostStatement s rest .wait =
    .next { s with
      rdata := readReg s .status
      host := if s.busy = true then .wait :: rest else rest }

/-- 20_memory.md R91: while a command runs, a host write to its access set and a host read of its destination
are refused. THE MODEL'S CHOICE: every other host access is performed, at that byte alone, single bytes being
what the host accesses and a running illegal word having no access set (log 12); and so it is at every
address, those of a device with read side effects among them, which are plain memory to the host (log 13). -/
def Obligations.HostAccessToRunningBuffersIsRefused : Prop :=
  ∀ (s : State) (rest : List HostStmt) (a : Word) (v : Byte),
    let dest := s.busy = true ∧ ∃ i, decode s.p.cmd = .ok i ∧ draws i = true ∧
      s.p.params.surfRange.has a.toNat = true
    let src := s.busy = true ∧ ∃ i, decode s.p.cmd = .ok i ∧ SourceByte i s.p.params a.toNat
    (dest ∨ src → hostStatement s rest (.memWrite a v) = .refused (.hostTouchesBuffers a)) ∧
    (dest → hostStatement s rest (.memRead a) = .refused (.hostTouchesBuffers a)) ∧
    (¬ dest → hostStatement s rest (.memRead a) =
      .next { s with rdata := (readByte s.mem a.toNat).setWidth 32 }) ∧
    (¬ dest → ¬ src → Memory.wf s.mem → ∃ m,
      hostStatement s rest (.memWrite a v) = .next { s with mem := m } ∧
      readByte m a.toNat = v ∧ ∀ b, b ≠ a.toNat → readByte m b = readByte s.mem b)

/-- 20_memory.md R71: `MemRead(a, 4)` joins four bytes, the lowest address least significant; `MemWrite(a, 4, v)`
stores the four bytes so and no other byte. -/
def Obligations.MemoryWordsAreLittleEndian : Prop :=
  ∀ (m : Memory) (a : Nat) (v : Word), Memory.wf m → a + 4 ≤ 2 ^ 32 →
    (∃ w, readWord m a = .ok w ∧ w.toNat = (readByte m a).toNat + (readByte m (a + 1)).toNat * 2 ^ 8 +
      (readByte m (a + 2)).toNat * 2 ^ 16 + (readByte m (a + 3)).toNat * 2 ^ 24) ∧
    ∃ m', writeWord m a v = .ok m' ∧ Memory.wf m' ∧ readByte m' a = v.extractLsb' 0 8 ∧
      readByte m' (a + 1) = v.extractLsb' 8 8 ∧ readByte m' (a + 2) = v.extractLsb' 16 8 ∧
      readByte m' (a + 3) = v.extractLsb' 24 8 ∧
      ∀ b, b < a ∨ a + 4 ≤ b → readByte m' b = readByte m b

/-! ## The colour algebra -/

/-- 40_color_algebra.md R124. -/
def Obligations.ChannelMultiplierAndCorners : Prop :=
  (∀ c k : Byte, (amul c k).toNat = (c.toNat * k.toNat + k.toNat) / 256 ∧
    c.toNat * k.toNat + k.toNat ≤ 65280) ∧
  (∀ c : Byte, amul c 255 = c) ∧ (∀ k : Byte, amul 255 k = k) ∧ (∀ c : Byte, amul c 0 = 0) ∧
  (∀ k : Byte, amul 0 k = 0) ∧ amul 1 255 = 1 ∧ amul 254 1 = 0 ∧ amul 255 1 = 1 ∧ amul 128 128 = 64 ∧
  amul 200 100 = 78

/-- 40_color_algebra.md R125. -/
def Obligations.PackedMultiplierActsPerByte : Prop :=
  (∀ (p : Word) (k : Byte) (i : Nat), i < 4 → byteOf (alphaMul p k) i = amul (byteOf p i) k) ∧
  (∀ p : Word, alphaMul p 255 = p) ∧ (∀ p : Word, alphaMul p 0 = 0) ∧
  alphaMul 0xFFFFFFFF 128 = 0x80808080 ∧ alphaMul 0x80402010 128 = 0x40201008

/-- 40_color_algebra.md R126. -/
def Obligations.ByteMultiplierAndCorners : Prop :=
  (∀ a b : Byte, (alphaMul8 a b).toNat = (a.toNat * b.toNat + 127) / 255) ∧
  (∀ a : Byte, alphaMul8 a 255 = a) ∧ (∀ a : Byte, alphaMul8 a 0 = 0) ∧ alphaMul8 255 255 = 255 ∧
  alphaMul8 1 1 = 0 ∧ alphaMul8 1 128 = 1 ∧ alphaMul8 128 128 = 64 ∧ alphaMul8 200 100 = 78 ∧
  alphaMul8 255 128 = 128

/-- 40_color_algebra.md R128: the premultiplied colour's bytes in either colour space; it is validly
premultiplied, unchanged by an opaque alpha and 0 under alpha 0. -/
def Obligations.SolidColourIsPremultiplied : Prop :=
  ∀ (cs : ColourSpace) (cin : Word),
    let a := byteOf cin 3
    let r := alphaMul8 (byteOf cin 2) a
    let g := alphaMul8 (byteOf cin 1) a
    let b := alphaMul8 (byteOf cin 0) a
    colorPm cs cin = (match cs with | .argb8888 => pack a r g b | .abgr8888 => pack a b g r) ∧
    (a = 255 → r = byteOf cin 2 ∧ g = byteOf cin 1 ∧ b = byteOf cin 0) ∧
    (a = 0 → colorPm cs cin = 0) ∧ premultiplied (colorPm cs cin) = true ∧
    colorPm .argb8888 0x80FF0000 = 0x80800000 ∧ colorPm .abgr8888 0x80FF0000 = 0x80000080 ∧
    colorPm .argb8888 0x80FF8040 = 0x80804020

/-- 40_color_algebra.md R129, R137. -/
def Obligations.SourceOverEquationAndExtremes : Prop :=
  (∀ s d : Word, (srcover s d).toNat = (s.toNat + (alphaMul d (255 - byteOf s 3)).toNat) % 2 ^ 32) ∧
  (∀ s d : Word, byteOf s 3 = 255 → srcover s d = s) ∧ (∀ d : Word, srcover 0 d = d) ∧
  (∀ d : Word, srcover 0xFF000000 d = 0xFF000000) ∧ srcover 0x80800000 0xFFFFFFFF = 0xFFFF7F7F ∧
  srcover 0x40201008 0x80808080 = 0xA0807068

/-- 40_color_algebra.md R130: under a validly premultiplied source no byte sum of SRC-OVER exceeds 255, so it
acts byte by byte, and it keeps premultiplication; and the rule's example of a carry. -/
def Obligations.PremultipliedSourceOverHasNoCarry : Prop :=
  (∀ s d : Word, premultiplied s = true →
    (∀ i < 4, (byteOf s i).toNat + (amul (byteOf d i) (255 - byteOf s 3)).toNat ≤ 255 ∧
      byteOf (srcover s d) i = byteOf s i + amul (byteOf d i) (255 - byteOf s 3)) ∧
    (premultiplied d = true → premultiplied (srcover s d) = true)) ∧
  srcover 0x00FF0000 0xFFFFFFFF = 0x00FEFFFF

/-- 40_color_algebra.md R132. -/
def Obligations.MaskedSourceAndExtremes : Prop :=
  (∀ s mp : Word, masked s .alphaMask mp = alphaMul s (byteOf mp 3) ∧
    masked s .invAlphaMask mp = alphaMul s (255 - byteOf mp 3)) ∧
  (∀ s mp : Word, byteOf mp 3 = 255 → masked s .alphaMask mp = s ∧ masked s .invAlphaMask mp = 0) ∧
  (∀ s mp : Word, byteOf mp 3 = 0 → masked s .invAlphaMask mp = s ∧ masked s .alphaMask mp = 0) ∧
  (∀ d : Word, srcover 0 d = d) ∧ masked 0xFFFF0000 .alphaMask 0x00000000 = 0x00000000

/-- 40_color_algebra.md R136: of two FILL walks that differ in the colour space of the blender, with the
destination pixel's bytes 2 and 0 exchanged and the same mask alpha, the second stores the first's pixel
with bytes 2 and 0 exchanged; an image's pixel does not depend on the blender. -/
def Obligations.ColourSpaceSwapExchangesRedAndBlue : Prop :=
  (∀ (s t : State) (cin : Word) (x y : Nat) (cov : Byte) (v : Word),
    s.c = colorPm .argb8888 cin → t.c = colorPm .abgr8888 cin → t.fpath = s.fpath →
    t.p.params = s.p.params →
    wordAt t.mem (s.p.params.dstAddr x y) = swapRB (wordAt s.mem (s.p.params.dstAddr x y)) →
    alpha (wordAt t.mem (s.p.params.maskAddr x y)) = alpha (wordAt s.mem (s.p.params.maskAddr x y)) →
    fillPixel s x y cov = .ok (some v) → fillPixel t x y cov = .ok (some (swapRB v))) ∧
  ∀ (s : State) (cs : ColourSpace) (k : Byte) (x y : Nat),
    imagePixelWeighted { s with blCs := cs } k x y = imagePixelWeighted s k x y

/-! ## Binary32 -/

/-- 00_scope.md R14: the pattern of the value of a pattern is that pattern, so `M_E11` to `INV_E23` lose no
bit. -/
def Obligations.PatternOfValueIsThePattern : Prop := ∀ w : Word, bits (f32 w) = w

/-- 00_scope.md R14: what each of the four rounded operations gives, for the values of every two patterns. The
result is the value of a pattern. Of finite operands it is the exact result rounded (`RoundsTo`): finite
exactly when that is within range, then nearest to it, ties to even, and else an infinity. The cases R14
leaves to IEEE 754 (overflow, a zero sum's sign, infinities, division by zero, NaNs) are read as IEEE 754
says, the model's choice (log 10, PRESUMED); which NaN a NaN result is, nothing says (log 9). -/
def Obligations.RoundedOperationsGiveTheNearestValue : Prop :=
  ∀ wa wb : Word,
    let a := f32 wa
    let b := f32 wb
    (∀ r ∈ [fadd a b, fsub a b, fmul a b, fdiv a b], (∃ w, r = f32 w) ∧
      (isNaN a = true ∨ isNaN b = true → isNaN r = true)) ∧
    (∀ (sa sb : Bool) (ma mb ka kb : Nat), a = .fin sa ma ka → b = .fin sb mb kb →
      let x := signedUnits a
      let y := signedUnits b
      (x + y ≠ 0 → RoundsTo (decide (x + y < 0)) (x + y).natAbs 1 (fadd a b)) ∧
      (x + y = 0 → fadd a b = .fin (sa && sb) 0 0) ∧
      (x - y ≠ 0 → RoundsTo (decide (x - y < 0)) (x - y).natAbs 1 (fsub a b)) ∧
      (x - y = 0 → fsub a b = .fin (sa && !sb) 0 0) ∧
      RoundsTo (sa != sb) (ma * 2 ^ ka * (mb * 2 ^ kb)) (2 ^ 149) (fmul a b) ∧
      (mb ≠ 0 → RoundsTo (sa != sb) (ma * 2 ^ ka * 2 ^ 149) (mb * 2 ^ kb) (fdiv a b)) ∧
      (mb = 0 → ma ≠ 0 → fdiv a b = .inf (sa != sb)) ∧
      (mb = 0 → ma = 0 → isNaN (fdiv a b) = true)) ∧
    (∀ (sa sb : Bool) (mb kb : Nat), a = .inf sa → b = .fin sb mb kb →
      fadd a b = .inf sa ∧ fsub a b = .inf sa ∧ fdiv a b = .inf (sa != sb) ∧
      (mb ≠ 0 → fmul a b = .inf (sa != sb)) ∧ (mb = 0 → isNaN (fmul a b) = true)) ∧
    (∀ (sa sb : Bool) (ma ka : Nat), a = .fin sa ma ka → b = .inf sb →
      fadd a b = .inf sb ∧ fsub a b = .inf (!sb) ∧ fdiv a b = .fin (sa != sb) 0 0 ∧
      (ma ≠ 0 → fmul a b = .inf (sa != sb)) ∧ (ma = 0 → isNaN (fmul a b) = true)) ∧
    ∀ sa sb : Bool, a = .inf sa → b = .inf sb →
      fmul a b = .inf (sa != sb) ∧ isNaN (fdiv a b) = true ∧
      (sa = sb → fadd a b = .inf sa ∧ isNaN (fsub a b) = true) ∧
      (sa ≠ sb → isNaN (fadd a b) = true ∧ fsub a b = .inf sa)

/-- 00_scope.md R14: integers below 2^24 convert exactly: they compare as the integers do, are integral, and
convert back. `fround` of a finite value is finite, of the same sign (of a zero too), the integer whose
distance is at most one half, the greater magnitude of two at one half; a NaN and an infinity stay.
43_image.md R213: its example, and -0.0 is not less than 0 and stands for 0. -/
def Obligations.SmallIntegersConvertExactly : Prop :=
  (∀ a b : Nat, a < 2 ^ 24 → b < 2 ^ 24 →
    flt (toF32 a) (toF32 b) = decide (a < b) ∧ feq (toF32 a) (toF32 b) = decide (a = b) ∧
    fround (toF32 a) = toF32 a ∧ toInteger (toF32 a) = a ∧ isNaN (toF32 a) = false) ∧
  (∀ (w : Word) (s : Bool) (m k : Nat), f32 w = .fin s m k → ∃ (u : Word) (m' k' n : Nat),
    fround (f32 w) = f32 u ∧ f32 u = .fin s m' k' ∧ m' * 2 ^ k' = n * 2 ^ 149 ∧
    2 * (n * 2 ^ 149) ≤ 2 * (m * 2 ^ k) + 2 ^ 149 ∧
    2 * (m * 2 ^ k) + 2 ^ 149 < 2 * ((n + 1) * 2 ^ 149)) ∧
  (∀ (w : Word), (∀ s m k, f32 w ≠ .fin s m k) → fround (f32 w) = f32 w) ∧
  fround (f32 0xBECCCCCD) = f32 0x80000000 ∧ flt (f32 0x80000000) .zero = false ∧
  toInteger (f32 0x80000000) = 0 ∧
  fround (f32 0xBF000000) = f32 0xBF800000 ∧ flt (f32 0xBF800000) .zero = true

/-- 43_image.md R203: the identity test by the nine patterns: each diagonal entry is the pattern of 1.0, each
other one that of +0.0 or -0.0; so a NaN entry or a translation makes it false. -/
def Obligations.IdentityTestByPatterns : Prop :=
  ∀ p : Params, isIdentity p.matrix = true ↔
    p.m11 = 0x3F800000 ∧ p.m22 = 0x3F800000 ∧ p.m33 = 0x3F800000 ∧
    ∀ e ∈ [p.m12, p.m13, p.m21, p.m23, p.m31, p.m32], e = 0x00000000 ∨ e = 0x80000000

/-! ## The control commands -/

/-- 41_setup.md R150: NOP completes with success and does nothing else; its example. That "nothing else" takes
in the walk's cursor, which 42_fill.md R160 would set to (0, 0), is the model's choice (log 25). -/
def Obligations.NopCompletesAndChangesNothingElse : Prop :=
  (∀ s : State, s.ph = .validate → exec .nop s = .next (successState s)) ∧
  readReg (successState (accept 0x00000000 State.reset)) .status = 0x00000002

/-- 41_setup.md R151: SETUP installs the blender, or leaves none and fails with the code; its example. That
nothing else changes, the walk's cursor among it, is the model's choice where 42_fill.md R160 would set it to
(0, 0) (log 25). -/
def Obligations.SetupInstallsTheBlenderOrFails : Prop :=
  (∀ s : State, s.ph = .validate →
    (s.p.params.surfCs = 0 →
      exec .setup s = .next (successState { s with blValid := true, blCs := .argb8888 })) ∧
    (s.p.params.surfCs = 1 →
      exec .setup s = .next (successState { s with blValid := true, blCs := .abgr8888 })) ∧
    (2 ≤ s.p.params.surfCs.toNat → exec .setup s =
      .next (failureState 2 (BitVec.ofNat 32 s.p.params.surfCs.toNat) { s with blValid := false }))) ∧
  readReg (successState { accept 0x00000001 State.reset with
    blValid := true, blCs := .abgr8888 }) .status = 0x00030002

/-! ## The checks, in the order of 60_exceptions.md R246 -/

/-- 60_exceptions.md R253: without a blender every FILL and IMAGE command fails with ERR_CS (code 2); NOP,
SETUP and CLEAR never fail so. -/
def Obligations.DrawWithoutBlenderFails : Prop :=
  (∀ (i : Instr) (s : State), i ∈ [Instr.fillRect, .fillRle, .imageRect false, .imageRect true,
      .imageRle false, .imageRle true] → s.ph = .validate → s.blValid = false →
    exec i s = .next (failureState 2 0xFFFFFFFF s)) ∧
  ∀ (i : Instr) (s : State), i ∈ [Instr.nop, .setup, .clear] → s.ph = .validate →
    exec i s ≠ .next (failureState 2 0xFFFFFFFF s)

/-- 60_exceptions.md R249, R248: the surface check of every drawing command, after its blender check. -/
def Obligations.UnusableSurfaceFails : Prop :=
  ∀ (i : Instr) (s : State), draws i = true → (takesMask i = true → s.blValid = true) →
    s.ph = .validate →
    let p := s.p.params
    let size := 4 * ((p.surfH.toNat - 1) * p.surfStride.toNat + p.surfW.toNat)
    (p.surfBase = 0 ∨ p.surfW = 0 ∨ p.surfH = 0 ∨ p.surfStride.toNat < p.surfW.toNat →
      exec i s = .next (failureState 3 0 s)) ∧
    (p.surfBase ≠ 0 → p.surfW ≠ 0 → p.surfH ≠ 0 → p.surfW.toNat ≤ p.surfStride.toNat →
      (p.surfBase.toNat % 4 ≠ 0 → exec i s = .next (failureState 4 p.surfBase s)) ∧
      (p.surfBase.toNat % 4 = 0 →
        (2 ^ 32 < p.surfBase.toNat + size ∨ memAdmit s.platform p.surfBase.toNat size .read = false ∨
          memAdmit s.platform p.surfBase.toNat size .write = false →
          exec i s = .next (failureState 5 p.surfBase s))))

/-- 60_exceptions.md R250, R248: the mask check, after the surface check, for `MASK_METHOD` 2 and 3. -/
def Obligations.UnusableMaskFails : Prop :=
  ∀ (i : Instr) (s : State), takesMask i = true → s.ph = .validate → s.blValid = true →
    SurfaceUsable s.platform s.p.params → s.p.params.maskMethod = 2 ∨ s.p.params.maskMethod = 3 →
    let p := s.p.params
    let size := 4 * ((p.surfH.toNat - 1) * p.surfStride.toNat + p.surfW.toNat)
    (p.maskBase = 0 → exec i s = .next (failureState 6 0 s)) ∧
    (p.maskBase.toNat % 4 ≠ 0 → exec i s = .next (failureState 4 p.maskBase s)) ∧
    (p.maskBase ≠ 0 → p.maskBase.toNat % 4 = 0 →
      (2 ^ 32 < p.maskBase.toNat + size ∨ memAdmit s.platform p.maskBase.toNat size .read = false) →
      exec i s = .next (failureState 5 p.maskBase s))

/-- 60_exceptions.md R251, R248: the image check, after the surface and mask checks. -/
def Obligations.UnusableImageFails : Prop :=
  ∀ (i : Instr) (s : State), takesImage i = true → s.ph = .validate → DrawReady s →
    let p := s.p.params
    let size := 4 * ((p.imgH.toNat - 1) * p.imgStride.toNat + p.imgW.toNat)
    (p.imgBase = 0 ∨ p.imgW = 0 ∨ p.imgH = 0 ∨ p.imgStride.toNat < p.imgW.toNat →
      exec i s = .next (failureState 7 0 s)) ∧
    (p.imgBase ≠ 0 → p.imgW ≠ 0 → p.imgH ≠ 0 → p.imgW.toNat ≤ p.imgStride.toNat →
      (p.imgBase.toNat % 4 ≠ 0 → exec i s = .next (failureState 4 p.imgBase s)) ∧
      (p.imgBase.toNat % 4 = 0 →
        (2 ^ 32 < p.imgBase.toNat + size ∨ memAdmit s.platform p.imgBase.toNat size .read = false →
          exec i s = .next (failureState 5 p.imgBase s))))

/-- 60_exceptions.md R252, R248: the span-list check, after the buffers'. -/
def Obligations.UnusableSpanListFails : Prop :=
  ∀ (i : Instr) (s : State), takesSpans i = true → s.ph = .validate → DrawReady s →
    (takesImage i = true → ImageUsable s.platform s.p.params) → s.p.params.rleCount ≠ 0 →
    let p := s.p.params
    let size := 8 * p.rleCount.toNat
    (p.rleBase = 0 → exec i s = .next (failureState 8 0 s)) ∧
    (p.rleBase.toNat % 4 ≠ 0 → exec i s = .next (failureState 4 p.rleBase s)) ∧
    (p.rleBase ≠ 0 → p.rleBase.toNat % 4 = 0 →
      (2 ^ 32 < p.rleBase.toNat + size ∨ memAdmit s.platform p.rleBase.toNat size .read = false) →
      exec i s = .next (failureState 5 p.rleBase s))

/-- 43_image.md R205, R206: a matrix that is not the identity and whose determinant, computed in the rule's
order, is below 2^-23 in magnitude fails with ERR_SINGULAR (code 9) and the determinant's pattern, whatever
the region or spans. -/
def Obligations.SingularMatrixFails : Prop :=
  ∀ s : State, s.ph = .validate → DrawReady s → ImageUsable s.platform s.p.params →
    let m := s.p.params.matrix
    let c11 := fsub (fmul m.e22 m.e33) (fmul m.e32 m.e23)
    let c12 := fsub (fmul m.e21 m.e33) (fmul m.e23 m.e31)
    let c13 := fsub (fmul m.e21 m.e32) (fmul m.e22 m.e31)
    let det := fadd (fsub (fmul m.e11 c11) (fmul m.e12 c12)) (fmul m.e13 c13)
    isIdentity m = false → flt (fabs det) (f32 0x34000000) = true →
    exec (.imageRect true) s = .next (failureState 9 (bits det) s) ∧
    (SpansUsable s.platform s.p.params → exec (.imageRle true) s = .next (failureState 9 (bits det) s))

/-- 42_fill.md R168, 43_image.md R210: a non-empty rectangle that leaves the surface fails with ERR_BOUNDS
(code 10); one inside it whose direct-blit source leaves the image fails with ERR_SRC_BOUNDS (code 11). -/
def Obligations.RectangleOutOfBoundsFails : Prop :=
  ∀ s : State, s.ph = .validate → DrawReady s → ¬ RegionEmpty s.p.params →
    let p := s.p.params
    (p.surfW.toNat < p.maxX ∨ p.surfH.toNat < p.maxY →
      exec .fillRect s = .next (failureState 10 0xFFFFFFFF s) ∧
      ∀ mat, ImageUsable s.platform p → TakesDirect mat p ∨ TakesResample mat p →
        exec (.imageRect mat) s = .next (failureState 10 0xFFFFFFFF s)) ∧
    ∀ mat, ImageUsable s.platform p → TakesDirect mat p → p.maxX ≤ p.surfW.toNat → p.maxY ≤ p.surfH.toNat →
      p.imgW.toNat < p.originX + (p.maxX - p.minX) ∨ p.imgH.toNat < p.originY + (p.maxY - p.minY) →
      exec (.imageRect mat) s = .next (failureState 11 0xFFFFFFFF s)

/-- 42_fill.md R162, R168, 43_image.md R211: the first span of positive length that fails a check fails the
command with its index: ERR_BOUNDS (code 10) out of the surface; ERR_SRC_BOUNDS (code 11) on the direct
path, inside the surface and out of the image. -/
def Obligations.FirstBadSpanFailsWithItsIndex : Prop :=
  ∀ (s : State) (k : Nat), s.ph = .validate → DrawReady s → SpansUsable s.platform s.p.params →
    k < s.p.params.rleCount.toNat → (∀ j < k, SpanInSurface s.p.params s.mem j) →
    let p := s.p.params
    (¬ SpanInSurface p s.mem k → exec .fillRle s = .next (failureState 10 (BitVec.ofNat 32 k) s)) ∧
    ∀ mat, ImageUsable s.platform p →
      (TakesResample mat p → ¬ SpanInSurface p s.mem k →
        exec (.imageRle mat) s = .next (failureState 10 (BitVec.ofNat 32 k) s)) ∧
      (TakesDirect mat p → (∀ j < k, SpanInImage p s.mem j) →
        (¬ SpanInSurface p s.mem k →
          exec (.imageRle mat) s = .next (failureState 10 (BitVec.ofNat 32 k) s)) ∧
        (SpanInSurface p s.mem k → ¬ SpanInImage p s.mem k →
          exec (.imageRle mat) s = .next (failureState 11 (BitVec.ofNat 32 k) s)))

/-- 20_memory.md R92: a command whose validation passes with something to walk, and whose destination shares a
byte with its own mask, image or span list, is refused (log 11); R83 and 93_implementation_defined.md U18: so is
a command whose surface, mask, image or span list passes its check but touches a device with read side
effects, at that check (log 13, DESIGN CHOICE). -/
def Obligations.OverlappingOrDeviceBuffersAreRefused : Prop :=
  (∀ s : State, s.ph = .validate → DrawReady s → ¬ RegionEmpty s.p.params →
    s.p.params.maxX ≤ s.p.params.surfW.toNat → s.p.params.maxY ≤ s.p.params.surfH.toNat →
    let p := s.p.params
    (¬ BuffersApart .fillRect p → exec .fillRect s = .refused .overlappingBuffers) ∧
    ∀ mat, ImageUsable s.platform p → ¬ BuffersApart (.imageRect mat) p →
      TakesResample mat p ∨ (TakesDirect mat p ∧ p.originX + (p.maxX - p.minX) ≤ p.imgW.toNat ∧
        p.originY + (p.maxY - p.minY) ≤ p.imgH.toNat) →
      exec (.imageRect mat) s = .refused .overlappingBuffers) ∧
  (∀ s : State, s.ph = .validate → DrawReady s → SpansUsable s.platform s.p.params →
    (∀ j < s.p.params.rleCount.toNat, SpanInSurface s.p.params s.mem j) →
    listedRuns s.p.params s.mem ≠ [] →
    let p := s.p.params
    (¬ BuffersApart .fillRle p → exec .fillRle s = .refused .overlappingBuffers) ∧
    ∀ mat, ImageUsable s.platform p → ¬ BuffersApart (.imageRle mat) p →
      TakesResample mat p ∨ (TakesDirect mat p ∧ ∀ j < p.rleCount.toNat, SpanInImage p s.mem j) →
      exec (.imageRle mat) s = .refused .overlappingBuffers) ∧
  ∀ (i : Instr) (s : State), s.ph = .validate →
    let p := s.p.params
    let surfSize := 4 * ((p.surfH.toNat - 1) * p.surfStride.toNat + p.surfW.toNat)
    let imgSize := 4 * ((p.imgH.toNat - 1) * p.imgStride.toNat + p.imgW.toNat)
    let rleSize := 8 * p.rleCount.toNat
    (draws i = true → (takesMask i = true → s.blValid = true) →
      p.surfBase ≠ 0 → p.surfW ≠ 0 → p.surfH ≠ 0 → p.surfW.toNat ≤ p.surfStride.toNat →
      p.surfBase.toNat % 4 = 0 → p.surfBase.toNat + surfSize ≤ 2 ^ 32 →
      memAdmit s.platform p.surfBase.toNat surfSize .read = true →
      memAdmit s.platform p.surfBase.toNat surfSize .write = true →
      touchesDevice s.platform p.surfBase.toNat surfSize = true →
      exec i s = .refused (.deviceBuffer p.surfBase)) ∧
    (takesMask i = true → s.blValid = true → SurfaceUsable s.platform p →
      p.maskMethod = 2 ∨ p.maskMethod = 3 →
      p.maskBase ≠ 0 → p.maskBase.toNat % 4 = 0 → p.maskBase.toNat + surfSize ≤ 2 ^ 32 →
      memAdmit s.platform p.maskBase.toNat surfSize .read = true →
      touchesDevice s.platform p.maskBase.toNat surfSize = true →
      exec i s = .refused (.deviceBuffer p.maskBase)) ∧
    (takesImage i = true → DrawReady s →
      p.imgBase ≠ 0 → p.imgW ≠ 0 → p.imgH ≠ 0 → p.imgW.toNat ≤ p.imgStride.toNat →
      p.imgBase.toNat % 4 = 0 → p.imgBase.toNat + imgSize ≤ 2 ^ 32 →
      memAdmit s.platform p.imgBase.toNat imgSize .read = true →
      touchesDevice s.platform p.imgBase.toNat imgSize = true →
      exec i s = .refused (.deviceBuffer p.imgBase)) ∧
    (takesSpans i = true → DrawReady s → (takesImage i = true → ImageUsable s.platform p) →
      p.rleCount ≠ 0 → p.rleBase ≠ 0 → p.rleBase.toNat % 4 = 0 → p.rleBase.toNat + rleSize ≤ 2 ^ 32 →
      memAdmit s.platform p.rleBase.toNat rleSize .read = true →
      touchesDevice s.platform p.rleBase.toNat rleSize = true →
      exec i s = .refused (.deviceBuffer p.rleBase))

/-! ## Validation that passes -/

/-- 42_fill.md R160, R161, R173: CLEAR on a usable surface begins its walk over the surface's rows; everything
else is unchanged, all of memory included. -/
def Obligations.ClearValidates : Prop :=
  ∀ s : State, s.ph = .validate → SurfaceUsable s.platform s.p.params →
    exec .clear s = .next (walkingState { s with
      runs := (List.range s.p.params.surfH.toNat).map fun y => ⟨y, 0, s.p.params.surfW.toNat, 255⟩ })

/-- 42_fill.md R160, R165, R169, R170, R172: FILL_RECT fixes its colour, COLOR_PM and path, and begins its walk
over the rows of the region, or completes at once when the region is empty; everything else is unchanged,
all of memory included. -/
def Obligations.FillRectValidates : Prop :=
  ∀ s : State, s.ph = .validate → DrawReady s →
    let p := s.p.params
    let col := colorPm s.blCs p.colorIn
    let path := if byteOf p.colorIn 3 = 255 ∧ p.maskMethod = 0 then FillPath.opaqueFill
      else if p.maskMethod = 2 ∨ p.maskMethod = 3 then .maskedFill else .translucentFill
    (RegionEmpty p → exec .fillRect s =
      .next (emptyWalkState { s with runs := [], c := col, colorPm := col, fpath := path })) ∧
    (¬ RegionEmpty p → p.maxX ≤ p.surfW.toNat → p.maxY ≤ p.surfH.toNat → BuffersApart .fillRect p →
      exec .fillRect s =
        .next (walkingState { s with runs := rowRuns p, c := col, colorPm := col, fpath := path }))

/-- 42_fill.md R160, R161, R162, R165, R169, R170, R172: FILL_RLE fixes its colour, COLOR_PM and path, and begins
its walk over its spans of positive length, or completes at once when there is none; everything else is
unchanged, all of memory included. -/
def Obligations.FillRleValidates : Prop :=
  ∀ s : State, s.ph = .validate → DrawReady s → SpansUsable s.platform s.p.params →
    (∀ j < s.p.params.rleCount.toNat, SpanInSurface s.p.params s.mem j) →
    let p := s.p.params
    let col := colorPm s.blCs p.colorIn
    let path := if byteOf p.colorIn 3 = 255 ∧ p.maskMethod = 0 then FillPath.opaqueFill
      else if p.maskMethod = 2 ∨ p.maskMethod = 3 then .maskedFill else .translucentFill
    (listedRuns p s.mem = [] → exec .fillRle s =
      .next (emptyWalkState { s with runs := [], c := col, colorPm := col, fpath := path })) ∧
    (listedRuns p s.mem ≠ [] → BuffersApart .fillRle p → exec .fillRle s =
      .next (walkingState { s with
        runs := listedRuns p s.mem, c := col, colorPm := col, fpath := path }))

/-- 43_image.md R204, R205, R207, R208, R210, R217: IMAGE_RECT fixes its path, its mask flag and, on the resample
path, the inverse and INV_E11 to INV_E23; it begins its walk over the rows of the region, or completes at
once when the region is empty; everything else is unchanged, all of memory included. -/
def Obligations.ImageRectValidates : Prop :=
  ∀ (mat : Bool) (s : State), s.ph = .validate → DrawReady s → ImageUsable s.platform s.p.params →
    let p := s.p.params
    let on := decide (p.maskMethod = 2 ∨ p.maskMethod = 3)
    let m := p.matrix
    let c11 := fsub (fmul m.e22 m.e33) (fmul m.e32 m.e23)
    let c12 := fsub (fmul m.e21 m.e33) (fmul m.e23 m.e31)
    let c13 := fsub (fmul m.e21 m.e32) (fmul m.e22 m.e31)
    let det := fadd (fsub (fmul m.e11 c11) (fmul m.e12 c12)) (fmul m.e13 c13)
    let invDet := fdiv (f32 0x3F800000) det
    let i11 := fmul (fsub (fmul m.e22 m.e33) (fmul m.e32 m.e23)) invDet
    let i12 := fmul (fsub (fmul m.e13 m.e32) (fmul m.e12 m.e33)) invDet
    let i13 := fmul (fsub (fmul m.e12 m.e23) (fmul m.e13 m.e22)) invDet
    let i21 := fmul (fsub (fmul m.e23 m.e31) (fmul m.e21 m.e33)) invDet
    let i22 := fmul (fsub (fmul m.e11 m.e33) (fmul m.e13 m.e31)) invDet
    let i23 := fmul (fsub (fmul m.e21 m.e13) (fmul m.e11 m.e23)) invDet
    let rows : MatrixRows Binary32 := ⟨i11, i12, i13, i21, i22, i23⟩
    let patterns : MatrixRows Word := ⟨bits i11, bits i12, bits i13, bits i21, bits i22, bits i23⟩
    (TakesDirect mat p →
      (RegionEmpty p → exec (.imageRect mat) s =
        .next (emptyWalkState { s with runs := [], maskOn := on, ipath := .direct })) ∧
      (¬ RegionEmpty p → p.maxX ≤ p.surfW.toNat → p.maxY ≤ p.surfH.toNat →
        p.originX + (p.maxX - p.minX) ≤ p.imgW.toNat → p.originY + (p.maxY - p.minY) ≤ p.imgH.toNat →
        BuffersApart (.imageRect mat) p → exec (.imageRect mat) s =
          .next (walkingState { s with runs := rowRuns p, maskOn := on, ipath := .direct }))) ∧
    (TakesResample mat p →
      (RegionEmpty p → exec (.imageRect mat) s =
        .next (emptyWalkState { s with
          runs := [], maskOn := on, ipath := .resample, inv := rows, invE := patterns })) ∧
      (¬ RegionEmpty p → p.maxX ≤ p.surfW.toNat → p.maxY ≤ p.surfH.toNat →
        BuffersApart (.imageRect mat) p → exec (.imageRect mat) s =
          .next (walkingState { s with
            runs := rowRuns p, maskOn := on, ipath := .resample, inv := rows, invE := patterns })))

/-- 43_image.md R204, R205, R207, R208, R211, R217: IMAGE_RLE fixes its path, its mask flag and, on the resample path,
the inverse and INV_E11 to INV_E23; it begins its walk over its spans of positive length, or completes at
once when there is none; everything else is unchanged, all of memory included. -/
def Obligations.ImageRleValidates : Prop :=
  ∀ (mat : Bool) (s : State), s.ph = .validate → DrawReady s → ImageUsable s.platform s.p.params →
    SpansUsable s.platform s.p.params →
    (∀ j < s.p.params.rleCount.toNat, SpanInSurface s.p.params s.mem j) →
    let p := s.p.params
    let on := decide (p.maskMethod = 2 ∨ p.maskMethod = 3)
    let m := p.matrix
    let c11 := fsub (fmul m.e22 m.e33) (fmul m.e32 m.e23)
    let c12 := fsub (fmul m.e21 m.e33) (fmul m.e23 m.e31)
    let c13 := fsub (fmul m.e21 m.e32) (fmul m.e22 m.e31)
    let det := fadd (fsub (fmul m.e11 c11) (fmul m.e12 c12)) (fmul m.e13 c13)
    let invDet := fdiv (f32 0x3F800000) det
    let i11 := fmul (fsub (fmul m.e22 m.e33) (fmul m.e32 m.e23)) invDet
    let i12 := fmul (fsub (fmul m.e13 m.e32) (fmul m.e12 m.e33)) invDet
    let i13 := fmul (fsub (fmul m.e12 m.e23) (fmul m.e13 m.e22)) invDet
    let i21 := fmul (fsub (fmul m.e23 m.e31) (fmul m.e21 m.e33)) invDet
    let i22 := fmul (fsub (fmul m.e11 m.e33) (fmul m.e13 m.e31)) invDet
    let i23 := fmul (fsub (fmul m.e21 m.e13) (fmul m.e11 m.e23)) invDet
    let rows : MatrixRows Binary32 := ⟨i11, i12, i13, i21, i22, i23⟩
    let patterns : MatrixRows Word := ⟨bits i11, bits i12, bits i13, bits i21, bits i22, bits i23⟩
    (TakesDirect mat p → (∀ j < p.rleCount.toNat, SpanInImage p s.mem j) →
      (listedRuns p s.mem = [] → exec (.imageRle mat) s =
        .next (emptyWalkState { s with runs := [], maskOn := on, ipath := .direct })) ∧
      (listedRuns p s.mem ≠ [] → BuffersApart (.imageRle mat) p → exec (.imageRle mat) s =
        .next (walkingState { s with
          runs := listedRuns p s.mem, maskOn := on, ipath := .direct }))) ∧
    (TakesResample mat p →
      (listedRuns p s.mem = [] → exec (.imageRle mat) s =
        .next (emptyWalkState { s with
          runs := [], maskOn := on, ipath := .resample, inv := rows, invE := patterns })) ∧
      (listedRuns p s.mem ≠ [] → BuffersApart (.imageRle mat) p → exec (.imageRle mat) s =
        .next (walkingState { s with
          runs := listedRuns p s.mem, maskOn := on, ipath := .resample, inv := rows,
          invE := patterns })))

/-! ## Walk steps -/

/-- 42_fill.md R164, R175: a walk step of CLEAR stores 0 in the pixels of its group, moves the cursor, counts
the pixels and completes after the last; nothing else changes. -/
def Obligations.ClearWalkStepStoresZero : Prop :=
  ∀ (s : State) (r : Run), CursorOn s r → ∃ m,
    exec .clear s = .next (afterGroup s r (groupAt s r) m) ∧
    GroupStored s.p.params r.y (r.x0 + s.off) (groupAt s r) (fun _ => some 0) s.mem m

/-- 42_fill.md R164, R178, R179: a walk step of FILL_RECT or FILL_RLE stores in each pixel of its group the
value of R179, all of them from memory before the step; nothing else changes but the cursor and the
count. -/
def Obligations.FillWalkStepStoresTheBlend : Prop :=
  ∀ (s : State) (r : Run), CursorOn s r → MaskUsable s.platform s.p.params →
    (s.fpath = .maskedFill → s.p.params.maskMethod = 2 ∨ s.p.params.maskMethod = 3) →
    ∀ i ∈ [Instr.fillRect, .fillRle], ∃ m,
      exec i s = .next (afterGroup s r (groupAt s r) m) ∧
      GroupStored s.p.params r.y (r.x0 + s.off) (groupAt s r)
        (fun j => some (fillResult s.fpath s.p.params s.mem s.c r.cov (r.x0 + s.off + j) r.y)) s.mem m

/-- 42_fill.md R164, 43_image.md R209, R215, R216: a walk step of an image command on the direct path stores in
each pixel of its group the image pixel at the same place of the source, weighted, masked and blended;
nothing else changes but the cursor and the count. -/
def Obligations.DirectImageWalkStepStoresTheBlend : Prop :=
  ∀ (s : State) (r : Run), CursorOn s r → MaskUsable s.platform s.p.params →
    ImageUsable s.platform s.p.params →
    (s.maskOn = true ↔ s.p.params.maskMethod = 2 ∨ s.p.params.maskMethod = 3) →
    s.ipath = .direct → RunInImage s.p.params r →
    ∀ mat, ∀ i ∈ [Instr.imageRect mat, .imageRle mat], ∃ m,
      exec i s = .next (afterGroup s r (groupAt s r) m) ∧
      GroupStored s.p.params r.y (r.x0 + s.off) (groupAt s r)
        (fun j =>
          let p := s.p.params
          let sx : Int := ((r.x0 + s.off + j : Nat) : Int) - p.minX + p.originX
          let sy : Int := (r.y : Int) - p.minY + p.originY
          some (imageResult p s.mem (imageWeight i p r.cov) sx.toNat sy.toNat (r.x0 + s.off + j) r.y))
        s.mem m

/-- 42_fill.md R164, 43_image.md R212, R213, R214, R216: a walk step of an image command on the resample path
stores in each pixel of its group whose rounded coordinates lie in the image the image pixel there,
weighted, masked and blended, and leaves a pixel whose coordinates do not (a NaN's among them) as it was;
nothing else changes but the cursor and the count, which counts skipped pixels too. -/
def Obligations.ResampledImageWalkStepStoresOrSkips : Prop :=
  ∀ (s : State) (r : Run), CursorOn s r → MaskUsable s.platform s.p.params →
    ImageUsable s.platform s.p.params →
    (s.maskOn = true ↔ s.p.params.maskMethod = 2 ∨ s.p.params.maskMethod = 3) → s.ipath = .resample →
    ∀ mat, ∀ i ∈ [Instr.imageRect mat, .imageRle mat], ∃ m,
      exec i s = .next (afterGroup s r (groupAt s r) m) ∧
      GroupStored s.p.params r.y (r.x0 + s.off) (groupAt s r)
        (fun j =>
          let p := s.p.params
          let fx := toF32 (r.x0 + s.off + j)
          let fy := toF32 r.y
          let rx := fround (fadd (fadd (fmul fx s.inv.e11) (fmul fy s.inv.e12)) s.inv.e13)
          let ry := fround (fadd (fadd (fmul fx s.inv.e21) (fmul fy s.inv.e22)) s.inv.e23)
          if flt rx .zero = false ∧ flt rx (toF32 p.imgW.toNat) = true ∧
              flt ry .zero = false ∧ flt ry (toF32 p.imgH.toNat) = true then
            some (imageResult p s.mem (imageWeight i p r.cov) (toInteger rx) (toInteger ry)
              (r.x0 + s.off + j) r.y)
          else none)
        s.mem m

/-! ## Rules of the whole machine -/

/-- 10_state.md R30, R36, R55, R58, 42_fill.md R161, 60_exceptions.md R241, R244: the machine right after reset is
in a good state. -/
def Obligations.ResetStateIsGood : Prop := State.reset.Inv

/-- 10_state.md R30, R36, R55, R58, 42_fill.md R161, 60_exceptions.md R241, R244: every step, the host's and the
engine's, keeps a good state good. -/
def Obligations.EveryStepKeepsAGoodState : Prop := ∀ s t : State, s.Inv → step s = .next t → t.Inv

/-- 20_memory.md R73, R76, 60_exceptions.md R243, R248: no step from a good state stops with a fault, so nothing
that a run from one does is outside memory, outside the image or off the runs. -/
def Obligations.GoodStateNeverFaults : Prop := ∀ (n : Nat) (s : State), s.Inv → FaultFree n s

/-- 70_reset_and_hazards.md R290, 10_state.md R36, 60_exceptions.md R244: left to the engine, a good walk
completes with success after exactly the groups that are left, PIXCOUNT then being the total length of the
runs modulo 2^32. -/
def Obligations.WalkCompletesAfterItsGroups : Prop :=
  ∀ s : State, s.Inv → s.ph = .walk → s.turns = [] → ∃ t,
    Sys2Proof.core.run (groupsLeft s) s = .next t ∧
    (∀ k < groupsLeft s, ∃ u, Sys2Proof.core.run k s = .next u ∧ u.ph = .walk ∧ u.busy = true) ∧
    t.ph = .idle ∧ t.busy = false ∧ t.done = true ∧ t.err = false ∧ t.errcode = 0 ∧ t.errinfo = 0 ∧
    t.pixcount = BitVec.ofNat 32 (s.runs.map Run.len).sum ∧ t.host = s.host

/-- 10_state.md R26, 40_color_algebra.md R134, 42_fill.md R163: left to the engine, a good walk gives the same
memory with the 4-lane combiner as without it, and the same final state but for the snapshot's SIMD_EN. -/
def Obligations.SimdWalkEqualsScalarWalk : Prop :=
  ∀ s : State, s.Inv → s.ph = .walk → s.turns = [] → ∃ t u,
    Sys2Proof.core.run (groupsLeft s) s = .next t ∧
    Sys2Proof.core.run (groupsLeft (scalarOf s)) (scalarOf s) = .next u ∧
    u.mem = t.mem ∧ u = scalarOf t

/-- 10_state.md R45, R52, R54, R61: what no engine step of a command writes: the parameter registers, CTRL, OVF,
the snapshot, the host's side; outside SETUP, the blender; outside a FILL, COLOR_PM; outside an image
command, INV_E11 to INV_E23; outside a walk, memory. -/
def Obligations.CommandsWriteOnlyTheirOwnState : Prop :=
  ∀ (i : Instr) (s t : State), exec i s = .next t →
    t.params = s.params ∧ t.simdEn = s.simdEn ∧ t.irqEn = s.irqEn ∧ t.ovf = s.ovf ∧ t.p = s.p ∧
    t.platform = s.platform ∧ t.host = s.host ∧ t.turns = s.turns ∧ t.rdata = s.rdata ∧
    (i ≠ .setup → t.blValid = s.blValid ∧ t.blCs = s.blCs) ∧
    (i ≠ .fillRect → i ≠ .fillRle → t.colorPm = s.colorPm) ∧
    (takesImage i = false → t.invE = s.invE) ∧
    (s.ph ≠ .walk → t.mem = s.mem ∧ t.pixcount = s.pixcount) ∧
    (s.ph = .walk → t.colorPm = s.colorPm ∧ t.invE = s.invE ∧ t.errinfo = s.errinfo ∧ t.runs = s.runs)

/-- 42_fill.md R166, 20_memory.md R73, R80: from a good state the engine's step of a command changes a byte only
of the surface range, and there only of a pixel of the run at the cursor, inside the surface's width. -/
def Obligations.EngineWritesOnlyPixelsOfTheRun : Prop :=
  ∀ (i : Instr) (s t : State), s.Inv → decode s.p.cmd = .ok i → exec i s = .next t →
    ∀ a, readByte t.mem a ≠ readByte s.mem a →
      draws i = true ∧ s.ph = .walk ∧ s.p.params.surfRange.has a = true ∧
      ∃ r x, s.runs[s.ri]? = some r ∧ r.x0 ≤ x ∧ x < r.x0 + r.len ∧ x < s.p.params.surfW.toNat ∧
        r.y < s.p.params.surfH.toNat ∧
        s.p.params.dstAddr x r.y ≤ a ∧ a < s.p.params.dstAddr x r.y + 4

/-- 42_fill.md R173, R175, 70_reset_and_hazards.md R290: CLEAR as a whole. From its validation, left to the
engine, after 1 + G steps it has completed with success and stored 0 in exactly the w by h pixels of the
surface: every other byte, padding included, is unchanged; PIXCOUNT is w * h modulo 2^32. -/
def Obligations.ClearZeroesExactlyTheSurface : Prop :=
  ∀ s : State, s.ph = .validate → s.turns = [] → s.p.cmd = 0x00000002 → Memory.wf s.mem →
    SurfaceUsable s.platform s.p.params → s.pixcount = 0 →
    let p := s.p.params
    let w := p.surfW.toNat
    let h := p.surfH.toNat
    ∃ t, Sys2Proof.core.run (1 + h * groupsOf s.p.simdEn w) s = .next t ∧
      t.ph = .idle ∧ t.busy = false ∧ t.done = true ∧ t.err = false ∧
      t.pixcount = BitVec.ofNat 32 (w * h) ∧
      (∀ x < w, ∀ y < h, wordAt t.mem (p.dstAddr x y) = 0) ∧
      ∀ a, (∀ x < w, ∀ y < h, ¬ (p.dstAddr x y ≤ a ∧ a < p.dstAddr x y + 4)) →
        readByte t.mem a = readByte s.mem a

/-- 42_fill.md R182, R176, 70_reset_and_hazards.md R290: an opaque FILL_RECT without a mask, as a whole. From
its validation, left to the engine, it completes with success and has stored exactly the joined colour
`join(BL_CS, r, g, b, 255)` in every pixel of the region; every other byte is unchanged. -/
def Obligations.OpaqueFillRectStoresTheColour : Prop :=
  ∀ s : State, s.ph = .validate → s.turns = [] → s.p.cmd = 0x00000010 → Memory.wf s.mem →
    s.blValid = true → SurfaceUsable s.platform s.p.params → byteOf s.p.params.colorIn 3 = 255 →
    s.p.params.maskMethod = 0 → ¬ RegionEmpty s.p.params →
    s.p.params.maxX ≤ s.p.params.surfW.toNat → s.p.params.maxY ≤ s.p.params.surfH.toNat →
    let p := s.p.params
    let w := p.maxX - p.minX
    let h := p.maxY - p.minY
    ∃ t, Sys2Proof.core.run (1 + h * groupsOf s.p.simdEn w) s = .next t ∧
      t.ph = .idle ∧ t.busy = false ∧ t.done = true ∧ t.err = false ∧
      (∀ x y, p.minX ≤ x → x < p.maxX → p.minY ≤ y → y < p.maxY → wordAt t.mem (p.dstAddr x y) =
        join s.blCs (byteOf p.colorIn 2) (byteOf p.colorIn 1) (byteOf p.colorIn 0) 255) ∧
      ∀ a, (∀ x y, p.minX ≤ x → x < p.maxX → p.minY ≤ y → y < p.maxY →
          ¬ (p.dstAddr x y ≤ a ∧ a < p.dstAddr x y + 4)) →
        readByte t.mem a = readByte s.mem a

/-- 43_image.md R220: with an identity matrix an image command does in every state what the same command
without a matrix does; with IMG_ORIGIN = BBOX_MIN the direct blit reads image pixel `(x, y)` for
destination `(x, y)`, and so does the resampler under an exact identity inverse. -/
def Obligations.IdentityMatrixEqualsNoMatrix : Prop :=
  (∀ s : State, isIdentity s.p.params.matrix = true →
    exec (.imageRect true) s = exec (.imageRect false) s ∧
    exec (.imageRle true) s = exec (.imageRle false) s) ∧
  ∀ (p : Params) (x y : Nat), x < p.imgW.toNat → y < p.imgH.toNat →
    (p.imgOrigin = p.bboxMin → directCoord p x y = ((x : Int), (y : Int))) ∧
    resampleCoord ⟨.one, .zero, .zero, .zero, .one, .zero⟩ p x y = some ((x : Int), (y : Int))

end
end

