-- ==== Sys2Proof/Laws/Binary32.lean ====
section
/-! SUPPORT. Laws of the binary32 primitives (00_scope.md R14) and of the resampler's range test
(43_image.md R213). -/

namespace Sys2Proof.Machine

theorem packF32_fields (sign : Bool) (e f : Nat) (he : e < 2 ^ 8) (hf : f < 2 ^ 23) :
    (packF32 sign e f).getLsbD 31 = sign ∧ ((packF32 sign e f).extractLsb' 23 8).toNat = e ∧
    ((packF32 sign e f).extractLsb' 0 23).toNat = f := by
  have h1 : (packF32 sign e f).extractLsb' 23 8 = BitVec.ofNat 8 e := by
    apply BitVec.eq_of_getLsbD_eq; intro i hi
    simp only [packF32, BitVec.getLsbD_extractLsb', BitVec.getLsbD_append]
    simp [show 23 + i < 31 by omega, hi]
  have h2 : (packF32 sign e f).extractLsb' 0 23 = BitVec.ofNat 23 f := by
    apply BitVec.eq_of_getLsbD_eq; intro i hi
    simp only [packF32, BitVec.getLsbD_extractLsb', BitVec.getLsbD_append]
    simp [show i < 31 by omega, hi]
  refine ⟨?_, ?_, ?_⟩
  · simp only [packF32, BitVec.getLsbD_append]; simp
  · rw [h1, BitVec.toNat_ofNat, Nat.mod_eq_of_lt he]
  · rw [h2, BitVec.toNat_ofNat, Nat.mod_eq_of_lt hf]

/-- A canonical finite value is the value of its pattern. -/
theorem f32_bits_fin (s : Bool) (m k : Nat) (hm : m < 2 ^ 24) (hk : k ≤ 253) (hn : k = 0 ∨ 2 ^ 23 ≤ m) :
    f32 (bits (.fin s m k)) = .fin s m k := by
  unfold bits
  by_cases h : m < 2 ^ 23
  · obtain rfl : k = 0 := by omega
    obtain ⟨h1, h2, h3⟩ := packF32_fields s 0 m (by norm_num) h
    simp only [if_pos h, f32, h1, h2, h3]; simp
  · obtain ⟨h1, h2, h3⟩ := packF32_fields s (k + 1) (m - 2 ^ 23) (by omega) (by omega)
    simp only [if_neg h, f32, h1, h2, h3]
    rw [if_neg (by omega), if_neg (by omega), show 2 ^ 23 + (m - 2 ^ 23) = m by omega, Nat.add_sub_cancel]

/-- An infinity is the value of its pattern. -/
theorem f32_bits_inf (s : Bool) : f32 (bits (.inf s)) = .inf s := by
  obtain ⟨h1, h2, h3⟩ := packF32_fields s 255 0 (by norm_num) (by norm_num)
  simp only [bits, f32, h1, h2, h3]; simp

/-- A NaN's pattern has it as its value. -/
theorem f32_of_nanPattern (w : Word) (h : nanPattern w = true) : f32 w = .nan w := by
  unfold nanPattern at h
  simp only [Bool.and_eq_true, beq_iff_eq, bne_iff_ne] at h
  simp only [f32, if_pos h.1, if_neg h.2]

/-- The value of a pattern is canonical. -/
theorem f32_fin (w : Word) (s : Bool) (m k : Nat) (h : f32 w = .fin s m k) :
    m < 2 ^ 24 ∧ k ≤ 253 ∧ (k = 0 ∨ 2 ^ 23 ≤ m) := by
  unfold f32 at h
  dsimp only at h
  have h1 := (w.extractLsb' 23 8).isLt
  have h2 := (w.extractLsb' 0 23).isLt
  split at h
  · split at h <;> cases h
  · split at h <;> cases h
    · exact ⟨by omega, by omega, .inl rfl⟩
    · exact ⟨by omega, by omega, .inr (by omega)⟩

/-- `divNearestEven` takes the quotient when the remainder is below half, or ties on an even quotient, and the
next integer otherwise. -/
theorem divNearestEven_cases (n d : Nat) (hd : 0 < d) : ∃ a r, n = a * d + r ∧ r < d ∧
    ((divNearestEven n d = a ∧ (2 * r < d ∨ (2 * r = d ∧ a % 2 = 0))) ∨
     (divNearestEven n d = a + 1 ∧ (d < 2 * r ∨ (2 * r = d ∧ a % 2 = 1)))) := by
  refine ⟨n / d, n % d, by rw [Nat.mul_comm]; exact (Nat.div_add_mod n d).symm, Nat.mod_lt n hd, ?_⟩
  unfold divNearestEven
  dsimp only
  split
  · exact .inl ⟨rfl, .inl ‹_›⟩
  · split
    · exact .inr ⟨rfl, .inl ‹_›⟩
    · split
      · exact .inl ⟨rfl, .inr ⟨by omega, ‹_›⟩⟩
      · exact .inr ⟨rfl, .inr ⟨by omega, by omega⟩⟩

/-- `divNearestEven` gives the nearest integer, of two equally near ones the even one. -/
theorem divNearestEven_nearest (n d t : Nat) (hd : 0 < d) :
    let near := ((divNearestEven n d * d : Nat) - n : Int).natAbs
    let other := ((t * d : Nat) - n : Int).natAbs
    near ≤ other ∧ (near = other → divNearestEven n d = t ∨ divNearestEven n d % 2 = 0) := by
  obtain ⟨a, r, hn, hr, hq⟩ := divNearestEven_cases n d hd
  generalize divNearestEven n d = q at hq ⊢
  dsimp only
  have hsucc : (a + 1) * d = a * d + d := by ring
  have hq' : q * d = a * d ∧ q = a ∨ q * d = a * d + d ∧ q = a + 1 := by
    rcases hq with ⟨rfl, _⟩ | ⟨rfl, _⟩
    · exact .inl ⟨rfl, rfl⟩
    · exact .inr ⟨hsucc, rfl⟩
  rcases lt_trichotomy t a with ht | rfl | ht
  · have : (t + 1) * d ≤ a * d := Nat.mul_le_mul_right d ht
    rw [show (t + 1) * d = t * d + d by ring] at this
    omega
  · omega
  · have : (a + 1) * d ≤ t * d := Nat.mul_le_mul_right d ht
    by_cases h1 : t = a + 1
    · subst h1; omega
    · have : (a + 2) * d ≤ t * d := Nat.mul_le_mul_right d (by omega)
      rw [show (a + 2) * d = a * d + d + d by ring] at this
      omega

/-- What `roundNearest` can do (00_scope.md R14): its result is the value of a pattern, and it is the exact
quotient rounded to nearest, ties to even. -/
theorem roundNearest_spec (sign : Bool) (n d : Nat) (hd : 0 < d) :
    (∃ w, roundNearest sign n d = f32 w) ∧ RoundsTo sign n d (roundNearest sign n d) := by
  obtain ⟨k, hk⟩ : ∃ k, k = Nat.log2 (n / d) - 23 := ⟨_, rfl⟩
  have hpow : ∀ a b : Nat, 2 ^ (a + b) * d = 2 ^ a * (d * 2 ^ b) := fun a b => by rw [pow_add]; ring
  have hDpos : 0 < d * 2 ^ k := by positivity
  have hlt : n < 2 ^ 24 * (d * 2 ^ k) := by
    have h1 : n / d < 2 ^ (24 + k) :=
      lt_of_lt_of_le Nat.lt_log2_self (Nat.pow_le_pow_right (by norm_num) (by omega))
    rwa [Nat.div_lt_iff_lt_mul hd, hpow] at h1
  have hge : k ≠ 0 → 2 ^ 23 * (d * 2 ^ k) ≤ n := by
    intro h0
    have hne : n / d ≠ 0 := by intro h; rw [h] at hk; simp at hk; exact h0 hk
    have h1 : 2 ^ (23 + k) ≤ n / d := by
      rw [show 23 + k = Nat.log2 (n / d) by omega]; exact Nat.log2_self_le hne
    rwa [Nat.le_div_iff_mul_le hd, hpow] at h1
  obtain ⟨q, hq⟩ : ∃ q, q = divNearestEven n (d * 2 ^ k) := ⟨_, rfl⟩
  have hnear := fun t => divNearestEven_nearest n (d * 2 ^ k) t hDpos
  obtain ⟨a, r, hn, hr, hcases⟩ := divNearestEven_cases n (d * 2 ^ k) hDpos
  rw [← hq] at hcases
  simp only [← hq] at hnear
  have ha : a < 2 ^ 24 := Nat.lt_of_mul_lt_mul_right (a := d * 2 ^ k) (by omega)
  have hq24 : q ≤ 2 ^ 24 := by omega
  have hq23 : k ≠ 0 → 2 ^ 23 ≤ q := by
    intro h0
    have h1 := hge h0
    have : 2 ^ 23 ≤ a := by
      have : 2 ^ 23 * (d * 2 ^ k) < (a + 1) * (d * 2 ^ k) := by
        rw [show (a + 1) * (d * 2 ^ k) = a * (d * 2 ^ k) + d * 2 ^ k by ring]; omega
      have := Nat.lt_of_mul_lt_mul_right this
      omega
    omega
  have hres : roundNearest sign n d =
      if q < 2 ^ 24 then (if k ≤ 253 then .fin sign q k else .inf sign)
      else if k + 1 ≤ 253 then .fin sign (2 ^ 23) (k + 1) else .inf sign := by
    rw [hq, hk]; rfl
  -- the finite case: the result is `q` units of `2^k`, canonical
  have hfin : (q < 2 ^ 24 ∧ k ≤ 253) ∨ (q = 2 ^ 24 ∧ k + 1 ≤ 253) → ∃ m j,
      roundNearest sign n d = .fin sign m j ∧ m < 2 ^ 24 ∧ j ≤ 253 ∧ (j = 0 ∨ 2 ^ 23 ≤ m) ∧
      m * 2 ^ j = q * 2 ^ k ∧ (q % 2 = 0 → m % 2 = 0) := by
    rintro (⟨h1, h2⟩ | ⟨h1, h2⟩)
    · exact ⟨q, k, by rw [hres, if_pos h1, if_pos h2], h1, h2,
        (Nat.eq_zero_or_pos k).imp_right fun h => hq23 (by omega), rfl, id⟩
    · refine ⟨2 ^ 23, k + 1, by rw [hres, if_neg (by omega), if_pos h2], by norm_num, h2,
        .inr (le_refl _), ?_, fun _ => by norm_num⟩
      rw [h1, pow_succ]; ring
  have hinf : ¬ ((q < 2 ^ 24 ∧ k ≤ 253) ∨ (q = 2 ^ 24 ∧ k + 1 ≤ 253)) →
      roundNearest sign n d = .inf sign := by
    intro h
    rw [hres]
    split
    · rw [if_neg (by omega)]
    · rw [if_neg (by omega)]
  -- where infinity begins
  have hover : n < (2 ^ 25 - 1) * 2 ^ 252 * d ↔
      (q < 2 ^ 24 ∧ k ≤ 253) ∨ (q = 2 ^ 24 ∧ k + 1 ≤ 253) := by
    have hmono : ∀ b c : Nat, b ≤ c → d * 2 ^ b ≤ d * 2 ^ c := fun b c h =>
      Nat.mul_le_mul_left d (Nat.pow_le_pow_right (by norm_num) h)
    have h252 : d * 2 ^ 253 = 2 * (d * 2 ^ 252) := by rw [pow_succ]; ring
    have h253 : d * 2 ^ 254 = 2 * (d * 2 ^ 253) := by rw [pow_succ]; ring
    rw [show (2 ^ 25 - 1) * 2 ^ 252 * d = (2 ^ 25 - 1) * (d * 2 ^ 252) by
      rw [Nat.mul_assoc, Nat.mul_comm (2 ^ 252)]]
    obtain ⟨X, hX⟩ : ∃ X, X = d * 2 ^ 252 := ⟨_, rfl⟩
    rw [← hX] at h252 ⊢
    rcases (by omega : k ≤ 252 ∨ k = 253 ∨ 254 ≤ k) with h | h | h
    · have := hmono k 252 h
      constructor
      · intro _; omega
      · intro _; omega
    · subst h
      rw [h252] at hcases hn hr hlt
      constructor
      · intro hl
        left
        refine ⟨?_, le_refl _⟩
        by_contra h24
        have : a + 1 = 2 ^ 24 := by omega
        have ha' : a = 2 ^ 24 - 1 := by omega
        subst ha'
        omega
      · rintro (⟨h24, _⟩ | ⟨_, h24⟩)
        · by_contra hl
          have ha' : a = 2 ^ 24 - 1 := by
            have : (2 ^ 24 - 1) * (2 * X) < (a + 1) * (2 * X) := by
              rw [show (a + 1) * (2 * X) = a * (2 * X) + 2 * X by ring]; omega
            have := Nat.lt_of_mul_lt_mul_right this
            omega
          subst ha'
          omega
        · omega
    · have h1 := hmono 254 k h
      have h2 := hge (by omega)
      constructor
      · intro hl; exfalso; omega
      · rintro (⟨_, h3⟩ | ⟨_, h3⟩) <;> omega
  refine ⟨?_, fun hl => ?_, fun hl => hinf fun h => absurd (hover.2 h) (by omega)⟩
  · by_cases h : (q < 2 ^ 24 ∧ k ≤ 253) ∨ (q = 2 ^ 24 ∧ k + 1 ≤ 253)
    · obtain ⟨m, j, h1, h2, h3, h4, _⟩ := hfin h
      exact ⟨_, h1.trans (f32_bits_fin sign m j h2 h3 h4).symm⟩
    · exact ⟨_, (hinf h).trans (f32_bits_inf sign).symm⟩
  · obtain ⟨m, j, h1, _, _, _, hval, heven⟩ := hfin (hover.1 hl)
    refine ⟨m, j, h1, fun w t m' k' hw => ?_⟩
    have hm' := (f32_fin w t m' k' hw).1
    dsimp only
    rw [hval, show q * 2 ^ k * d = q * (d * 2 ^ k) by ring]
    rcases Nat.lt_or_ge k' k with hlt' | hge'
    · -- a value of a smaller exponent lies below `2^23` units of `2^k`, which lies below `n / d`
      have hlow := hge (by omega)
      have hsm : m' * 2 ^ k' * d < 2 ^ 23 * (d * 2 ^ k) := by
        rw [← hpow]
        refine Nat.mul_lt_mul_of_pos_right ?_ hd
        calc m' * 2 ^ k' < 2 ^ 24 * 2 ^ k' := Nat.mul_lt_mul_of_pos_right hm' (by positivity)
          _ = 2 ^ (24 + k') := (pow_add 2 24 k').symm
          _ ≤ 2 ^ (23 + k) := Nat.pow_le_pow_right (by norm_num) (by omega)
      have h23 := (hnear (2 ^ 23)).1
      constructor
      · omega
      · intro he; exfalso; omega
    · obtain ⟨i, rfl⟩ := Nat.exists_eq_add_of_le hge'
      obtain ⟨h2, h3⟩ := hnear (m' * 2 ^ i)
      rw [show m' * 2 ^ (k + i) * d = m' * 2 ^ i * (d * 2 ^ k) by rw [pow_add]; ring]
      refine ⟨h2, fun he => ?_⟩
      rcases h3 he with h4 | h4
      · left; rw [h4, pow_add]; ring
      · exact .inr (heven h4)

/-- Dividing a multiple is exact. -/
theorem divNearestEven_mul (m d : Nat) (hd : 0 < d) : divNearestEven (m * d) d = m := by
  unfold divNearestEven
  simp [hd]

/-- Rounding a whole number of units that has at most 24 significant bits, given as `m * 2^j`, is exact:
the magnitude is the number (00_scope.md R14). -/
theorem roundNearest_exact (sign : Bool) (m j : Nat) (hm : m < 2 ^ 24) (hj : j ≤ 253) :
    ∃ s k, roundNearest sign (m * 2 ^ j) 1 = .fin sign s k ∧ s * 2 ^ k = m * 2 ^ j := by
  unfold roundNearest
  simp only [Nat.div_one, one_mul]
  generalize hk : Nat.log2 (m * 2 ^ j) - 23 = k
  rcases Nat.eq_zero_or_pos m with h0 | hpos
  · subst h0
    have : k = 0 := by rw [← hk]; simp
    subst this
    exact ⟨0, 0, by simp [divNearestEven], by simp⟩
  · have hne : m * 2 ^ j ≠ 0 := by positivity
    have hlog : Nat.log2 (m * 2 ^ j) < 24 + j := by
      rw [Nat.log2_lt hne, pow_add]
      exact Nat.mul_lt_mul_of_pos_right hm (by positivity)
    have hkj : k ≤ j := by omega
    obtain ⟨i, rfl⟩ := Nat.exists_eq_add_of_le hkj
    have hsplit : m * 2 ^ (k + i) = (m * 2 ^ i) * 2 ^ k := by rw [pow_add]; ring
    have hdiv : divNearestEven (m * 2 ^ (k + i)) (2 ^ k) = m * 2 ^ i := by
      rw [hsplit]; exact divNearestEven_mul _ _ (by positivity)
    have hlt : m * 2 ^ i < 2 ^ 24 := by
      rcases Nat.eq_zero_or_pos k with hk0 | hkp
      · have : Nat.log2 (m * 2 ^ (k + i)) < 24 := by omega
        rw [Nat.log2_lt hne] at this
        rwa [hk0, zero_add] at this
      · have : Nat.log2 (m * 2 ^ (k + i)) < 24 + k := by omega
        rw [Nat.log2_lt hne, hsplit, pow_add 2 24 k] at this
        exact Nat.lt_of_mul_lt_mul_right this
    rw [hdiv, if_pos hlt, if_pos (by omega)]
    exact ⟨_, _, rfl, hsplit.symm⟩

/-- `to_f32` is exact below 2^24 (00_scope.md R14). -/
theorem toF32_exact (n : Nat) (hn : n < 2 ^ 24) :
    ∃ m k, toF32 n = .fin false m k ∧ m * 2 ^ k = n * unitsPerOne := by
  unfold toF32 unitsPerOne
  exact roundNearest_exact false n 149 hn (by norm_num)

/-- A coordinate that passes the range test is an index of the image (43_image.md R213). -/
theorem toInteger_lt_of_inRange (r : Binary32) (size : Nat) (hs : size < 2 ^ 24)
    (h : inRange r size = true) : toInteger r < size := by
  obtain ⟨m, k, hmk, hval⟩ := toF32_exact size hs
  have hu : 0 < unitsPerOne := by unfold unitsPerOne; positivity
  have key : signedUnits (toF32 size) = (size * unitsPerOne : Nat) := by
    rw [hmk]; simp [signedUnits, signOf, magnitude, hval]
  have hno : isNaN (toF32 size) = false := by rw [hmk]; rfl
  have hok : orderKey (toF32 size) = (size * unitsPerOne : Nat) := by
    rw [← key, hmk]; rfl
  unfold inRange at h
  simp only [Bool.and_eq_true, Bool.not_eq_true'] at h
  obtain ⟨h0, h1⟩ := h
  unfold flt at h0 h1
  rw [hok, hno] at h1
  simp only [Bool.and_eq_true, Bool.not_eq_true', decide_eq_true_eq] at h1
  have hz : orderKey Binary32.zero = 0 := by decide
  rw [hz, h1.1.1] at h0
  simp only [isNaN, Bool.not_false, Bool.true_and, decide_eq_false_iff_not, not_lt] at h0
  cases r with
  | nan b => simp [isNaN] at h1
  | inf s =>
    exfalso
    have h2 := h1.2
    have hb : (size * unitsPerOne : Nat) ≤ 2 ^ 24 * 2 ^ 149 := by
      unfold unitsPerOne; exact Nat.mul_le_mul_right _ hs.le
    cases s
    · have h3 : infinityKey < ((size * unitsPerOne : Nat) : Int) := h2
      have : infinityKey < ((2 ^ 24 * 2 ^ 149 : Nat) : Int) := lt_of_lt_of_le h3 (by exact_mod_cast hb)
      norm_num [infinityKey] at this
    · have h3 : (0 : Int) ≤ -infinityKey := h0
      norm_num [infinityKey] at h3
  | fin s a b =>
    show a * 2 ^ b / unitsPerOne < size
    rw [Nat.div_lt_iff_lt_mul hu]
    cases s
    · have h2 : ((a * 2 ^ b : Nat) : Int) < (size * unitsPerOne : Nat) := h1.2
      exact_mod_cast h2
    · have h2 : -((a * 2 ^ b : Nat) : Int) < (size * unitsPerOne : Nat) := h1.2
      have h3 : (0 : Int) ≤ -((a * 2 ^ b : Nat) : Int) := h0
      omega

/-- The source pixel of a sampled resample lies inside the image (43_image.md R213). -/
theorem resampleCoord_inImage (inv : MatrixRows Binary32) (p : Params) (x y : Nat) (sx sy : Int)
    (h : resampleCoord inv p x y = some (sx, sy)) :
    0 ≤ sx ∧ sx < p.imgW.toNat ∧ 0 ≤ sy ∧ sy < p.imgH.toNat := by
  have hw : p.imgW.toNat < 2 ^ 24 := lt_trans p.imgW.isLt (by norm_num)
  have hh : p.imgH.toNat < 2 ^ 24 := lt_trans p.imgH.isLt (by norm_num)
  unfold resampleCoord at h
  simp only at h
  split at h
  · rename_i hr
    rw [Bool.and_eq_true] at hr
    obtain ⟨rfl, rfl⟩ : _ ∧ _ := by simpa using h
    exact ⟨by positivity, by exact_mod_cast toInteger_lt_of_inRange _ _ hw hr.1, by positivity,
      by exact_mod_cast toInteger_lt_of_inRange _ _ hh hr.2⟩
  · cases h

/-- A rounded operation on a NaN gives a NaN (00_scope.md R14). -/
theorem isNaN_nanResult (op : FloatOp) (a b : Binary32) : isNaN (nanResult op a b) = true := by
  unfold nanResult; split <;> rfl

theorem isNaN_fmul_right (a b : Binary32) (h : isNaN b = true) : isNaN (fmul a b) = true := by
  unfold fmul; rw [if_pos (by simp [h])]; exact isNaN_nanResult _ _ _

theorem isNaN_fdiv_right (a b : Binary32) (h : isNaN b = true) : isNaN (fdiv a b) = true := by
  unfold fdiv; rw [if_pos (by simp [h])]; exact isNaN_nanResult _ _ _

theorem isNaN_fadd_left (a b : Binary32) (h : isNaN a = true) : isNaN (fadd a b) = true := by
  unfold fadd; rw [if_pos (by simp [h])]; exact isNaN_nanResult _ _ _

theorem isNaN_fadd_right (a b : Binary32) (h : isNaN b = true) : isNaN (fadd a b) = true := by
  unfold fadd; rw [if_pos (by simp [h])]; exact isNaN_nanResult _ _ _

/-- Changing the sign negates a finite value. -/
theorem signedUnits_not (s : Bool) (m k : Nat) : signedUnits (.fin (!s) m k) = -signedUnits (.fin s m k) := by
  cases s <;> simp [signedUnits, signOf, magnitude]

/-- `fadd` of finite values: the exact sum, rounded once. -/
theorem fadd_fin (s t : Bool) (m n k l : Nat) :
    fadd (.fin s m k) (.fin t n l) =
      let sum := signedUnits (.fin s m k) + signedUnits (.fin t n l)
      if sum = 0 then .fin (s && t) 0 0 else roundNearest (decide (sum < 0)) sum.natAbs 1 := by
  simp only [fadd, addNumbers, isNaN, signOf, Bool.or_self, Bool.false_eq_true, if_false]

/-- `fsub` of finite values: the exact difference, rounded once. -/
theorem fsub_fin (s t : Bool) (m n k l : Nat) :
    fsub (.fin s m k) (.fin t n l) =
      let diff := signedUnits (.fin s m k) - signedUnits (.fin t n l)
      if diff = 0 then .fin (s && !t) 0 0 else roundNearest (decide (diff < 0)) diff.natAbs 1 := by
  simp only [fsub, addNumbers, negF32, isNaN, signOf, Bool.or_self, Bool.false_eq_true, if_false,
    signedUnits_not, ← sub_eq_add_neg]

/-- `fmul` of finite values: the exact product, rounded once. -/
theorem fmul_fin (s t : Bool) (m n k l : Nat) :
    fmul (.fin s m k) (.fin t n l) = roundNearest (s != t) (m * 2 ^ k * (n * 2 ^ l)) unitsPerOne := by
  simp only [fmul, isNaN, signOf, Bool.or_self, Bool.false_eq_true, if_false]

/-- `fdiv` of finite values: the exact quotient, rounded once; by zero a NaN or an infinity. -/
theorem fdiv_fin (s t : Bool) (m n k l : Nat) :
    fdiv (.fin s m k) (.fin t n l) =
      if n * 2 ^ l = 0 then
        (if m * 2 ^ k = 0 then nanResult .div (.fin s m k) (.fin t n l) else .inf (s != t))
      else roundNearest (s != t) (m * 2 ^ k * unitsPerOne) (n * 2 ^ l) := by
  simp only [fdiv, isNaN, signOf, magnitude, Bool.or_self, Bool.false_eq_true, if_false]
  rfl

/-- The NaN of an operation is the value of a pattern. -/
theorem nanResult_pattern (op : FloatOp) (a b : Binary32) : ∃ w, nanResult op a b = f32 w := by
  have hc : f32 canonicalNaN = .nan canonicalNaN := f32_of_nanPattern _ (by decide)
  unfold nanResult
  dsimp only
  split
  · exact ⟨_, hc.symm⟩
  · split
    · rename_i h
      exact ⟨_, (f32_of_nanPattern _ h).symm⟩
    · exact ⟨_, hc.symm⟩

end Sys2Proof.Machine
end

