-- ==== Sys2Proof/Laws/State.lean ====
section
/-! SUPPORT. What each shared update of the state leaves in each field, so that no proof unfolds a record
update. -/

namespace Sys2Proof.Machine

/-! Completion with success (60_exceptions.md R244). -/

@[simp] theorem completeSuccess_platform (s : State) :
    (completeSuccess s).platform = s.platform := rfl
@[simp] theorem completeSuccess_params (s : State) :
    (completeSuccess s).params = s.params := rfl
@[simp] theorem completeSuccess_simdEn (s : State) :
    (completeSuccess s).simdEn = s.simdEn := rfl
@[simp] theorem completeSuccess_irqEn (s : State) :
    (completeSuccess s).irqEn = s.irqEn := rfl
@[simp] theorem completeSuccess_busy (s : State) :
    (completeSuccess s).busy = false := rfl
@[simp] theorem completeSuccess_done (s : State) :
    (completeSuccess s).done = true := rfl
@[simp] theorem completeSuccess_err (s : State) :
    (completeSuccess s).err = false := rfl
@[simp] theorem completeSuccess_ovf (s : State) :
    (completeSuccess s).ovf = s.ovf := rfl
@[simp] theorem completeSuccess_errcode (s : State) :
    (completeSuccess s).errcode = 0 := rfl
@[simp] theorem completeSuccess_pixcount (s : State) :
    (completeSuccess s).pixcount = s.pixcount := rfl
@[simp] theorem completeSuccess_errinfo (s : State) :
    (completeSuccess s).errinfo = s.errinfo := rfl
@[simp] theorem completeSuccess_colorPm (s : State) :
    (completeSuccess s).colorPm = s.colorPm := rfl
@[simp] theorem completeSuccess_invE (s : State) :
    (completeSuccess s).invE = s.invE := rfl
@[simp] theorem completeSuccess_blValid (s : State) :
    (completeSuccess s).blValid = s.blValid := rfl
@[simp] theorem completeSuccess_blCs (s : State) :
    (completeSuccess s).blCs = s.blCs := rfl
@[simp] theorem completeSuccess_ph (s : State) :
    (completeSuccess s).ph = .idle := rfl
@[simp] theorem completeSuccess_p (s : State) :
    (completeSuccess s).p = s.p := rfl
@[simp] theorem completeSuccess_runs (s : State) :
    (completeSuccess s).runs = s.runs := rfl
@[simp] theorem completeSuccess_ri (s : State) :
    (completeSuccess s).ri = s.ri := rfl
@[simp] theorem completeSuccess_off (s : State) :
    (completeSuccess s).off = s.off := rfl
@[simp] theorem completeSuccess_fpath (s : State) :
    (completeSuccess s).fpath = s.fpath := rfl
@[simp] theorem completeSuccess_ipath (s : State) :
    (completeSuccess s).ipath = s.ipath := rfl
@[simp] theorem completeSuccess_maskOn (s : State) :
    (completeSuccess s).maskOn = s.maskOn := rfl
@[simp] theorem completeSuccess_c (s : State) :
    (completeSuccess s).c = s.c := rfl
@[simp] theorem completeSuccess_inv (s : State) :
    (completeSuccess s).inv = s.inv := rfl
@[simp] theorem completeSuccess_mem (s : State) :
    (completeSuccess s).mem = s.mem := rfl
@[simp] theorem completeSuccess_host (s : State) :
    (completeSuccess s).host = s.host := rfl
@[simp] theorem completeSuccess_turns (s : State) :
    (completeSuccess s).turns = s.turns := rfl
@[simp] theorem completeSuccess_rdata (s : State) :
    (completeSuccess s).rdata = s.rdata := rfl

/-! Completion with failure (60_exceptions.md R245). -/

@[simp] theorem raiseError_platform (e : ErrCode) (i : Word) (s : State) :
    (raiseError e i s).platform = s.platform := rfl
@[simp] theorem raiseError_params (e : ErrCode) (i : Word) (s : State) :
    (raiseError e i s).params = s.params := rfl
@[simp] theorem raiseError_simdEn (e : ErrCode) (i : Word) (s : State) :
    (raiseError e i s).simdEn = s.simdEn := rfl
@[simp] theorem raiseError_irqEn (e : ErrCode) (i : Word) (s : State) :
    (raiseError e i s).irqEn = s.irqEn := rfl
@[simp] theorem raiseError_busy (e : ErrCode) (i : Word) (s : State) :
    (raiseError e i s).busy = false := rfl
@[simp] theorem raiseError_done (e : ErrCode) (i : Word) (s : State) :
    (raiseError e i s).done = false := rfl
@[simp] theorem raiseError_err (e : ErrCode) (i : Word) (s : State) :
    (raiseError e i s).err = true := rfl
@[simp] theorem raiseError_ovf (e : ErrCode) (i : Word) (s : State) :
    (raiseError e i s).ovf = s.ovf := rfl
@[simp] theorem raiseError_errcode (e : ErrCode) (i : Word) (s : State) :
    (raiseError e i s).errcode = e.code := rfl
@[simp] theorem raiseError_pixcount (e : ErrCode) (i : Word) (s : State) :
    (raiseError e i s).pixcount = s.pixcount := rfl
@[simp] theorem raiseError_errinfo (e : ErrCode) (i : Word) (s : State) :
    (raiseError e i s).errinfo = i := rfl
@[simp] theorem raiseError_colorPm (e : ErrCode) (i : Word) (s : State) :
    (raiseError e i s).colorPm = s.colorPm := rfl
@[simp] theorem raiseError_invE (e : ErrCode) (i : Word) (s : State) :
    (raiseError e i s).invE = s.invE := rfl
@[simp] theorem raiseError_blValid (e : ErrCode) (i : Word) (s : State) :
    (raiseError e i s).blValid = s.blValid := rfl
@[simp] theorem raiseError_blCs (e : ErrCode) (i : Word) (s : State) :
    (raiseError e i s).blCs = s.blCs := rfl
@[simp] theorem raiseError_ph (e : ErrCode) (i : Word) (s : State) :
    (raiseError e i s).ph = .idle := rfl
@[simp] theorem raiseError_p (e : ErrCode) (i : Word) (s : State) :
    (raiseError e i s).p = s.p := rfl
@[simp] theorem raiseError_runs (e : ErrCode) (i : Word) (s : State) :
    (raiseError e i s).runs = s.runs := rfl
@[simp] theorem raiseError_ri (e : ErrCode) (i : Word) (s : State) :
    (raiseError e i s).ri = s.ri := rfl
@[simp] theorem raiseError_off (e : ErrCode) (i : Word) (s : State) :
    (raiseError e i s).off = s.off := rfl
@[simp] theorem raiseError_fpath (e : ErrCode) (i : Word) (s : State) :
    (raiseError e i s).fpath = s.fpath := rfl
@[simp] theorem raiseError_ipath (e : ErrCode) (i : Word) (s : State) :
    (raiseError e i s).ipath = s.ipath := rfl
@[simp] theorem raiseError_maskOn (e : ErrCode) (i : Word) (s : State) :
    (raiseError e i s).maskOn = s.maskOn := rfl
@[simp] theorem raiseError_c (e : ErrCode) (i : Word) (s : State) :
    (raiseError e i s).c = s.c := rfl
@[simp] theorem raiseError_inv (e : ErrCode) (i : Word) (s : State) :
    (raiseError e i s).inv = s.inv := rfl
@[simp] theorem raiseError_mem (e : ErrCode) (i : Word) (s : State) :
    (raiseError e i s).mem = s.mem := rfl
@[simp] theorem raiseError_host (e : ErrCode) (i : Word) (s : State) :
    (raiseError e i s).host = s.host := rfl
@[simp] theorem raiseError_turns (e : ErrCode) (i : Word) (s : State) :
    (raiseError e i s).turns = s.turns := rfl
@[simp] theorem raiseError_rdata (e : ErrCode) (i : Word) (s : State) :
    (raiseError e i s).rdata = s.rdata := rfl

/-! Acceptance (30_encoding.md R103). -/

@[simp] theorem accept_platform (w : Word) (s : State) :
    (accept w s).platform = s.platform := rfl
@[simp] theorem accept_params (w : Word) (s : State) :
    (accept w s).params = s.params := rfl
@[simp] theorem accept_simdEn (w : Word) (s : State) :
    (accept w s).simdEn = s.simdEn := rfl
@[simp] theorem accept_irqEn (w : Word) (s : State) :
    (accept w s).irqEn = s.irqEn := rfl
@[simp] theorem accept_busy (w : Word) (s : State) :
    (accept w s).busy = true := rfl
@[simp] theorem accept_done (w : Word) (s : State) :
    (accept w s).done = false := rfl
@[simp] theorem accept_err (w : Word) (s : State) :
    (accept w s).err = false := rfl
@[simp] theorem accept_ovf (w : Word) (s : State) :
    (accept w s).ovf = s.ovf := rfl
@[simp] theorem accept_errcode (w : Word) (s : State) :
    (accept w s).errcode = 0 := rfl
@[simp] theorem accept_pixcount (w : Word) (s : State) :
    (accept w s).pixcount = 0 := rfl
@[simp] theorem accept_errinfo (w : Word) (s : State) :
    (accept w s).errinfo = 0 := rfl
@[simp] theorem accept_colorPm (w : Word) (s : State) :
    (accept w s).colorPm = s.colorPm := rfl
@[simp] theorem accept_invE (w : Word) (s : State) :
    (accept w s).invE = s.invE := rfl
@[simp] theorem accept_blValid (w : Word) (s : State) :
    (accept w s).blValid = s.blValid := rfl
@[simp] theorem accept_blCs (w : Word) (s : State) :
    (accept w s).blCs = s.blCs := rfl
@[simp] theorem accept_ph (w : Word) (s : State) :
    (accept w s).ph = .validate := rfl
@[simp] theorem accept_p (w : Word) (s : State) :
    (accept w s).p = snapshot w s := rfl
@[simp] theorem accept_runs (w : Word) (s : State) :
    (accept w s).runs = s.runs := rfl
@[simp] theorem accept_ri (w : Word) (s : State) :
    (accept w s).ri = s.ri := rfl
@[simp] theorem accept_off (w : Word) (s : State) :
    (accept w s).off = s.off := rfl
@[simp] theorem accept_fpath (w : Word) (s : State) :
    (accept w s).fpath = s.fpath := rfl
@[simp] theorem accept_ipath (w : Word) (s : State) :
    (accept w s).ipath = s.ipath := rfl
@[simp] theorem accept_maskOn (w : Word) (s : State) :
    (accept w s).maskOn = s.maskOn := rfl
@[simp] theorem accept_c (w : Word) (s : State) :
    (accept w s).c = s.c := rfl
@[simp] theorem accept_inv (w : Word) (s : State) :
    (accept w s).inv = s.inv := rfl
@[simp] theorem accept_mem (w : Word) (s : State) :
    (accept w s).mem = s.mem := rfl
@[simp] theorem accept_host (w : Word) (s : State) :
    (accept w s).host = s.host := rfl
@[simp] theorem accept_turns (w : Word) (s : State) :
    (accept w s).turns = s.turns := rfl
@[simp] theorem accept_rdata (w : Word) (s : State) :
    (accept w s).rdata = s.rdata := rfl

/-! Soft reset (70_reset_and_hazards.md R281). -/

@[simp] theorem softReset_platform (s : State) :
    (softReset s).platform = s.platform := rfl
@[simp] theorem softReset_params (s : State) :
    (softReset s).params = State.reset.params := rfl
@[simp] theorem softReset_simdEn (s : State) :
    (softReset s).simdEn = State.reset.simdEn := rfl
@[simp] theorem softReset_irqEn (s : State) :
    (softReset s).irqEn = State.reset.irqEn := rfl
@[simp] theorem softReset_busy (s : State) :
    (softReset s).busy = State.reset.busy := rfl
@[simp] theorem softReset_done (s : State) :
    (softReset s).done = State.reset.done := rfl
@[simp] theorem softReset_err (s : State) :
    (softReset s).err = State.reset.err := rfl
@[simp] theorem softReset_ovf (s : State) :
    (softReset s).ovf = State.reset.ovf := rfl
@[simp] theorem softReset_errcode (s : State) :
    (softReset s).errcode = State.reset.errcode := rfl
@[simp] theorem softReset_pixcount (s : State) :
    (softReset s).pixcount = State.reset.pixcount := rfl
@[simp] theorem softReset_errinfo (s : State) :
    (softReset s).errinfo = State.reset.errinfo := rfl
@[simp] theorem softReset_colorPm (s : State) :
    (softReset s).colorPm = State.reset.colorPm := rfl
@[simp] theorem softReset_invE (s : State) :
    (softReset s).invE = State.reset.invE := rfl
@[simp] theorem softReset_blValid (s : State) :
    (softReset s).blValid = State.reset.blValid := rfl
@[simp] theorem softReset_blCs (s : State) :
    (softReset s).blCs = State.reset.blCs := rfl
@[simp] theorem softReset_ph (s : State) :
    (softReset s).ph = State.reset.ph := rfl
@[simp] theorem softReset_p (s : State) :
    (softReset s).p = State.reset.p := rfl
@[simp] theorem softReset_runs (s : State) :
    (softReset s).runs = State.reset.runs := rfl
@[simp] theorem softReset_ri (s : State) :
    (softReset s).ri = State.reset.ri := rfl
@[simp] theorem softReset_off (s : State) :
    (softReset s).off = State.reset.off := rfl
@[simp] theorem softReset_fpath (s : State) :
    (softReset s).fpath = State.reset.fpath := rfl
@[simp] theorem softReset_ipath (s : State) :
    (softReset s).ipath = State.reset.ipath := rfl
@[simp] theorem softReset_maskOn (s : State) :
    (softReset s).maskOn = State.reset.maskOn := rfl
@[simp] theorem softReset_c (s : State) :
    (softReset s).c = State.reset.c := rfl
@[simp] theorem softReset_inv (s : State) :
    (softReset s).inv = State.reset.inv := rfl
@[simp] theorem softReset_mem (s : State) :
    (softReset s).mem = s.mem := rfl
@[simp] theorem softReset_host (s : State) :
    (softReset s).host = s.host := rfl
@[simp] theorem softReset_turns (s : State) :
    (softReset s).turns = s.turns := rfl
@[simp] theorem softReset_rdata (s : State) :
    (softReset s).rdata = s.rdata := rfl

/-! A host read. -/

@[simp] theorem hostRead_platform (s : State) (v : Word) :
    (hostRead s v).platform = s.platform := rfl
@[simp] theorem hostRead_params (s : State) (v : Word) :
    (hostRead s v).params = s.params := rfl
@[simp] theorem hostRead_simdEn (s : State) (v : Word) :
    (hostRead s v).simdEn = s.simdEn := rfl
@[simp] theorem hostRead_irqEn (s : State) (v : Word) :
    (hostRead s v).irqEn = s.irqEn := rfl
@[simp] theorem hostRead_busy (s : State) (v : Word) :
    (hostRead s v).busy = s.busy := rfl
@[simp] theorem hostRead_done (s : State) (v : Word) :
    (hostRead s v).done = s.done := rfl
@[simp] theorem hostRead_err (s : State) (v : Word) :
    (hostRead s v).err = s.err := rfl
@[simp] theorem hostRead_ovf (s : State) (v : Word) :
    (hostRead s v).ovf = s.ovf := rfl
@[simp] theorem hostRead_errcode (s : State) (v : Word) :
    (hostRead s v).errcode = s.errcode := rfl
@[simp] theorem hostRead_pixcount (s : State) (v : Word) :
    (hostRead s v).pixcount = s.pixcount := rfl
@[simp] theorem hostRead_errinfo (s : State) (v : Word) :
    (hostRead s v).errinfo = s.errinfo := rfl
@[simp] theorem hostRead_colorPm (s : State) (v : Word) :
    (hostRead s v).colorPm = s.colorPm := rfl
@[simp] theorem hostRead_invE (s : State) (v : Word) :
    (hostRead s v).invE = s.invE := rfl
@[simp] theorem hostRead_blValid (s : State) (v : Word) :
    (hostRead s v).blValid = s.blValid := rfl
@[simp] theorem hostRead_blCs (s : State) (v : Word) :
    (hostRead s v).blCs = s.blCs := rfl
@[simp] theorem hostRead_ph (s : State) (v : Word) :
    (hostRead s v).ph = s.ph := rfl
@[simp] theorem hostRead_p (s : State) (v : Word) :
    (hostRead s v).p = s.p := rfl
@[simp] theorem hostRead_runs (s : State) (v : Word) :
    (hostRead s v).runs = s.runs := rfl
@[simp] theorem hostRead_ri (s : State) (v : Word) :
    (hostRead s v).ri = s.ri := rfl
@[simp] theorem hostRead_off (s : State) (v : Word) :
    (hostRead s v).off = s.off := rfl
@[simp] theorem hostRead_fpath (s : State) (v : Word) :
    (hostRead s v).fpath = s.fpath := rfl
@[simp] theorem hostRead_ipath (s : State) (v : Word) :
    (hostRead s v).ipath = s.ipath := rfl
@[simp] theorem hostRead_maskOn (s : State) (v : Word) :
    (hostRead s v).maskOn = s.maskOn := rfl
@[simp] theorem hostRead_c (s : State) (v : Word) :
    (hostRead s v).c = s.c := rfl
@[simp] theorem hostRead_inv (s : State) (v : Word) :
    (hostRead s v).inv = s.inv := rfl
@[simp] theorem hostRead_mem (s : State) (v : Word) :
    (hostRead s v).mem = s.mem := rfl
@[simp] theorem hostRead_host (s : State) (v : Word) :
    (hostRead s v).host = s.host := rfl
@[simp] theorem hostRead_turns (s : State) (v : Word) :
    (hostRead s v).turns = s.turns := rfl
@[simp] theorem hostRead_rdata (s : State) (v : Word) :
    (hostRead s v).rdata = v := rfl

/-! Taking a turn. -/

@[simp] theorem takeTurn_platform (s : State) :
    (takeTurn s).platform = s.platform := rfl
@[simp] theorem takeTurn_params (s : State) :
    (takeTurn s).params = s.params := rfl
@[simp] theorem takeTurn_simdEn (s : State) :
    (takeTurn s).simdEn = s.simdEn := rfl
@[simp] theorem takeTurn_irqEn (s : State) :
    (takeTurn s).irqEn = s.irqEn := rfl
@[simp] theorem takeTurn_busy (s : State) :
    (takeTurn s).busy = s.busy := rfl
@[simp] theorem takeTurn_done (s : State) :
    (takeTurn s).done = s.done := rfl
@[simp] theorem takeTurn_err (s : State) :
    (takeTurn s).err = s.err := rfl
@[simp] theorem takeTurn_ovf (s : State) :
    (takeTurn s).ovf = s.ovf := rfl
@[simp] theorem takeTurn_errcode (s : State) :
    (takeTurn s).errcode = s.errcode := rfl
@[simp] theorem takeTurn_pixcount (s : State) :
    (takeTurn s).pixcount = s.pixcount := rfl
@[simp] theorem takeTurn_errinfo (s : State) :
    (takeTurn s).errinfo = s.errinfo := rfl
@[simp] theorem takeTurn_colorPm (s : State) :
    (takeTurn s).colorPm = s.colorPm := rfl
@[simp] theorem takeTurn_invE (s : State) :
    (takeTurn s).invE = s.invE := rfl
@[simp] theorem takeTurn_blValid (s : State) :
    (takeTurn s).blValid = s.blValid := rfl
@[simp] theorem takeTurn_blCs (s : State) :
    (takeTurn s).blCs = s.blCs := rfl
@[simp] theorem takeTurn_ph (s : State) :
    (takeTurn s).ph = s.ph := rfl
@[simp] theorem takeTurn_p (s : State) :
    (takeTurn s).p = s.p := rfl
@[simp] theorem takeTurn_runs (s : State) :
    (takeTurn s).runs = s.runs := rfl
@[simp] theorem takeTurn_ri (s : State) :
    (takeTurn s).ri = s.ri := rfl
@[simp] theorem takeTurn_off (s : State) :
    (takeTurn s).off = s.off := rfl
@[simp] theorem takeTurn_fpath (s : State) :
    (takeTurn s).fpath = s.fpath := rfl
@[simp] theorem takeTurn_ipath (s : State) :
    (takeTurn s).ipath = s.ipath := rfl
@[simp] theorem takeTurn_maskOn (s : State) :
    (takeTurn s).maskOn = s.maskOn := rfl
@[simp] theorem takeTurn_c (s : State) :
    (takeTurn s).c = s.c := rfl
@[simp] theorem takeTurn_inv (s : State) :
    (takeTurn s).inv = s.inv := rfl
@[simp] theorem takeTurn_mem (s : State) :
    (takeTurn s).mem = s.mem := rfl
@[simp] theorem takeTurn_host (s : State) :
    (takeTurn s).host = s.host := rfl
@[simp] theorem takeTurn_turns (s : State) :
    (takeTurn s).turns = s.turns.tail := rfl
@[simp] theorem takeTurn_rdata (s : State) :
    (takeTurn s).rdata = s.rdata := rfl

/-! A write to STATUS (10_state.md R34). -/

@[simp] theorem writeStatus_platform (s : State) (v : Word) :
    (writeStatus s v).platform = s.platform := rfl
@[simp] theorem writeStatus_params (s : State) (v : Word) :
    (writeStatus s v).params = s.params := rfl
@[simp] theorem writeStatus_simdEn (s : State) (v : Word) :
    (writeStatus s v).simdEn = s.simdEn := rfl
@[simp] theorem writeStatus_irqEn (s : State) (v : Word) :
    (writeStatus s v).irqEn = s.irqEn := rfl
@[simp] theorem writeStatus_busy (s : State) (v : Word) :
    (writeStatus s v).busy = s.busy := rfl
@[simp] theorem writeStatus_done (s : State) (v : Word) :
    (writeStatus s v).done = (s.done && !v.getLsbD 1) := rfl
@[simp] theorem writeStatus_err (s : State) (v : Word) :
    (writeStatus s v).err = (s.err && !v.getLsbD 2) := rfl
@[simp] theorem writeStatus_ovf (s : State) (v : Word) :
    (writeStatus s v).ovf = (s.ovf && !v.getLsbD 3) := rfl
@[simp] theorem writeStatus_errcode (s : State) (v : Word) :
    (writeStatus s v).errcode = s.errcode := rfl
@[simp] theorem writeStatus_pixcount (s : State) (v : Word) :
    (writeStatus s v).pixcount = s.pixcount := rfl
@[simp] theorem writeStatus_errinfo (s : State) (v : Word) :
    (writeStatus s v).errinfo = s.errinfo := rfl
@[simp] theorem writeStatus_colorPm (s : State) (v : Word) :
    (writeStatus s v).colorPm = s.colorPm := rfl
@[simp] theorem writeStatus_invE (s : State) (v : Word) :
    (writeStatus s v).invE = s.invE := rfl
@[simp] theorem writeStatus_blValid (s : State) (v : Word) :
    (writeStatus s v).blValid = s.blValid := rfl
@[simp] theorem writeStatus_blCs (s : State) (v : Word) :
    (writeStatus s v).blCs = s.blCs := rfl
@[simp] theorem writeStatus_ph (s : State) (v : Word) :
    (writeStatus s v).ph = s.ph := rfl
@[simp] theorem writeStatus_p (s : State) (v : Word) :
    (writeStatus s v).p = s.p := rfl
@[simp] theorem writeStatus_runs (s : State) (v : Word) :
    (writeStatus s v).runs = s.runs := rfl
@[simp] theorem writeStatus_ri (s : State) (v : Word) :
    (writeStatus s v).ri = s.ri := rfl
@[simp] theorem writeStatus_off (s : State) (v : Word) :
    (writeStatus s v).off = s.off := rfl
@[simp] theorem writeStatus_fpath (s : State) (v : Word) :
    (writeStatus s v).fpath = s.fpath := rfl
@[simp] theorem writeStatus_ipath (s : State) (v : Word) :
    (writeStatus s v).ipath = s.ipath := rfl
@[simp] theorem writeStatus_maskOn (s : State) (v : Word) :
    (writeStatus s v).maskOn = s.maskOn := rfl
@[simp] theorem writeStatus_c (s : State) (v : Word) :
    (writeStatus s v).c = s.c := rfl
@[simp] theorem writeStatus_inv (s : State) (v : Word) :
    (writeStatus s v).inv = s.inv := rfl
@[simp] theorem writeStatus_mem (s : State) (v : Word) :
    (writeStatus s v).mem = s.mem := rfl
@[simp] theorem writeStatus_host (s : State) (v : Word) :
    (writeStatus s v).host = s.host := rfl
@[simp] theorem writeStatus_turns (s : State) (v : Word) :
    (writeStatus s v).turns = s.turns := rfl
@[simp] theorem writeStatus_rdata (s : State) (v : Word) :
    (writeStatus s v).rdata = s.rdata := rfl

/-! What a FILL fixes (42_fill.md R172). -/

@[simp] theorem fixFill_platform (s : State) (rs : List Run) :
    (fixFill s rs).platform = s.platform := rfl
@[simp] theorem fixFill_params (s : State) (rs : List Run) :
    (fixFill s rs).params = s.params := rfl
@[simp] theorem fixFill_simdEn (s : State) (rs : List Run) :
    (fixFill s rs).simdEn = s.simdEn := rfl
@[simp] theorem fixFill_irqEn (s : State) (rs : List Run) :
    (fixFill s rs).irqEn = s.irqEn := rfl
@[simp] theorem fixFill_busy (s : State) (rs : List Run) :
    (fixFill s rs).busy = s.busy := rfl
@[simp] theorem fixFill_done (s : State) (rs : List Run) :
    (fixFill s rs).done = s.done := rfl
@[simp] theorem fixFill_err (s : State) (rs : List Run) :
    (fixFill s rs).err = s.err := rfl
@[simp] theorem fixFill_ovf (s : State) (rs : List Run) :
    (fixFill s rs).ovf = s.ovf := rfl
@[simp] theorem fixFill_errcode (s : State) (rs : List Run) :
    (fixFill s rs).errcode = s.errcode := rfl
@[simp] theorem fixFill_pixcount (s : State) (rs : List Run) :
    (fixFill s rs).pixcount = s.pixcount := rfl
@[simp] theorem fixFill_errinfo (s : State) (rs : List Run) :
    (fixFill s rs).errinfo = s.errinfo := rfl
@[simp] theorem fixFill_colorPm (s : State) (rs : List Run) :
    (fixFill s rs).colorPm = Sys2Proof.Machine.colorPm s.blCs s.p.params.colorIn := rfl
@[simp] theorem fixFill_invE (s : State) (rs : List Run) :
    (fixFill s rs).invE = s.invE := rfl
@[simp] theorem fixFill_blValid (s : State) (rs : List Run) :
    (fixFill s rs).blValid = s.blValid := rfl
@[simp] theorem fixFill_blCs (s : State) (rs : List Run) :
    (fixFill s rs).blCs = s.blCs := rfl
@[simp] theorem fixFill_ph (s : State) (rs : List Run) :
    (fixFill s rs).ph = s.ph := rfl
@[simp] theorem fixFill_p (s : State) (rs : List Run) :
    (fixFill s rs).p = s.p := rfl
@[simp] theorem fixFill_runs (s : State) (rs : List Run) :
    (fixFill s rs).runs = rs := rfl
@[simp] theorem fixFill_ri (s : State) (rs : List Run) :
    (fixFill s rs).ri = s.ri := rfl
@[simp] theorem fixFill_off (s : State) (rs : List Run) :
    (fixFill s rs).off = s.off := rfl
@[simp] theorem fixFill_fpath (s : State) (rs : List Run) :
    (fixFill s rs).fpath = fillPath s.p.params := rfl
@[simp] theorem fixFill_ipath (s : State) (rs : List Run) :
    (fixFill s rs).ipath = s.ipath := rfl
@[simp] theorem fixFill_maskOn (s : State) (rs : List Run) :
    (fixFill s rs).maskOn = s.maskOn := rfl
@[simp] theorem fixFill_c (s : State) (rs : List Run) :
    (fixFill s rs).c = Sys2Proof.Machine.colorPm s.blCs s.p.params.colorIn := rfl
@[simp] theorem fixFill_inv (s : State) (rs : List Run) :
    (fixFill s rs).inv = s.inv := rfl
@[simp] theorem fixFill_mem (s : State) (rs : List Run) :
    (fixFill s rs).mem = s.mem := rfl
@[simp] theorem fixFill_host (s : State) (rs : List Run) :
    (fixFill s rs).host = s.host := rfl
@[simp] theorem fixFill_turns (s : State) (rs : List Run) :
    (fixFill s rs).turns = s.turns := rfl
@[simp] theorem fixFill_rdata (s : State) (rs : List Run) :
    (fixFill s rs).rdata = s.rdata := rfl

/-! What an IMAGE on the direct path fixes (43_image.md R217). -/

@[simp] theorem fixImage_none_platform (s : State) (rs : List Run) :
    (fixImage s none rs).platform = s.platform := rfl
@[simp] theorem fixImage_none_params (s : State) (rs : List Run) :
    (fixImage s none rs).params = s.params := rfl
@[simp] theorem fixImage_none_simdEn (s : State) (rs : List Run) :
    (fixImage s none rs).simdEn = s.simdEn := rfl
@[simp] theorem fixImage_none_irqEn (s : State) (rs : List Run) :
    (fixImage s none rs).irqEn = s.irqEn := rfl
@[simp] theorem fixImage_none_busy (s : State) (rs : List Run) :
    (fixImage s none rs).busy = s.busy := rfl
@[simp] theorem fixImage_none_done (s : State) (rs : List Run) :
    (fixImage s none rs).done = s.done := rfl
@[simp] theorem fixImage_none_err (s : State) (rs : List Run) :
    (fixImage s none rs).err = s.err := rfl
@[simp] theorem fixImage_none_ovf (s : State) (rs : List Run) :
    (fixImage s none rs).ovf = s.ovf := rfl
@[simp] theorem fixImage_none_errcode (s : State) (rs : List Run) :
    (fixImage s none rs).errcode = s.errcode := rfl
@[simp] theorem fixImage_none_pixcount (s : State) (rs : List Run) :
    (fixImage s none rs).pixcount = s.pixcount := rfl
@[simp] theorem fixImage_none_errinfo (s : State) (rs : List Run) :
    (fixImage s none rs).errinfo = s.errinfo := rfl
@[simp] theorem fixImage_none_colorPm (s : State) (rs : List Run) :
    (fixImage s none rs).colorPm = s.colorPm := rfl
@[simp] theorem fixImage_none_invE (s : State) (rs : List Run) :
    (fixImage s none rs).invE = s.invE := rfl
@[simp] theorem fixImage_none_blValid (s : State) (rs : List Run) :
    (fixImage s none rs).blValid = s.blValid := rfl
@[simp] theorem fixImage_none_blCs (s : State) (rs : List Run) :
    (fixImage s none rs).blCs = s.blCs := rfl
@[simp] theorem fixImage_none_ph (s : State) (rs : List Run) :
    (fixImage s none rs).ph = s.ph := rfl
@[simp] theorem fixImage_none_p (s : State) (rs : List Run) :
    (fixImage s none rs).p = s.p := rfl
@[simp] theorem fixImage_none_runs (s : State) (rs : List Run) :
    (fixImage s none rs).runs = rs := rfl
@[simp] theorem fixImage_none_ri (s : State) (rs : List Run) :
    (fixImage s none rs).ri = s.ri := rfl
@[simp] theorem fixImage_none_off (s : State) (rs : List Run) :
    (fixImage s none rs).off = s.off := rfl
@[simp] theorem fixImage_none_fpath (s : State) (rs : List Run) :
    (fixImage s none rs).fpath = s.fpath := rfl
@[simp] theorem fixImage_none_ipath (s : State) (rs : List Run) :
    (fixImage s none rs).ipath = .direct := rfl
@[simp] theorem fixImage_none_maskOn (s : State) (rs : List Run) :
    (fixImage s none rs).maskOn = (maskKind s.p.params.maskMethod).isSome := rfl
@[simp] theorem fixImage_none_c (s : State) (rs : List Run) :
    (fixImage s none rs).c = s.c := rfl
@[simp] theorem fixImage_none_inv (s : State) (rs : List Run) :
    (fixImage s none rs).inv = s.inv := rfl
@[simp] theorem fixImage_none_mem (s : State) (rs : List Run) :
    (fixImage s none rs).mem = s.mem := rfl
@[simp] theorem fixImage_none_host (s : State) (rs : List Run) :
    (fixImage s none rs).host = s.host := rfl
@[simp] theorem fixImage_none_turns (s : State) (rs : List Run) :
    (fixImage s none rs).turns = s.turns := rfl
@[simp] theorem fixImage_none_rdata (s : State) (rs : List Run) :
    (fixImage s none rs).rdata = s.rdata := rfl

/-! What an IMAGE on the resample path fixes (43_image.md R217). -/

@[simp] theorem fixImage_some_platform (s : State) (t : MatrixRows Binary32) (rs : List Run) :
    (fixImage s (some t) rs).platform = s.platform := rfl
@[simp] theorem fixImage_some_params (s : State) (t : MatrixRows Binary32) (rs : List Run) :
    (fixImage s (some t) rs).params = s.params := rfl
@[simp] theorem fixImage_some_simdEn (s : State) (t : MatrixRows Binary32) (rs : List Run) :
    (fixImage s (some t) rs).simdEn = s.simdEn := rfl
@[simp] theorem fixImage_some_irqEn (s : State) (t : MatrixRows Binary32) (rs : List Run) :
    (fixImage s (some t) rs).irqEn = s.irqEn := rfl
@[simp] theorem fixImage_some_busy (s : State) (t : MatrixRows Binary32) (rs : List Run) :
    (fixImage s (some t) rs).busy = s.busy := rfl
@[simp] theorem fixImage_some_done (s : State) (t : MatrixRows Binary32) (rs : List Run) :
    (fixImage s (some t) rs).done = s.done := rfl
@[simp] theorem fixImage_some_err (s : State) (t : MatrixRows Binary32) (rs : List Run) :
    (fixImage s (some t) rs).err = s.err := rfl
@[simp] theorem fixImage_some_ovf (s : State) (t : MatrixRows Binary32) (rs : List Run) :
    (fixImage s (some t) rs).ovf = s.ovf := rfl
@[simp] theorem fixImage_some_errcode (s : State) (t : MatrixRows Binary32) (rs : List Run) :
    (fixImage s (some t) rs).errcode = s.errcode := rfl
@[simp] theorem fixImage_some_pixcount (s : State) (t : MatrixRows Binary32) (rs : List Run) :
    (fixImage s (some t) rs).pixcount = s.pixcount := rfl
@[simp] theorem fixImage_some_errinfo (s : State) (t : MatrixRows Binary32) (rs : List Run) :
    (fixImage s (some t) rs).errinfo = s.errinfo := rfl
@[simp] theorem fixImage_some_colorPm (s : State) (t : MatrixRows Binary32) (rs : List Run) :
    (fixImage s (some t) rs).colorPm = s.colorPm := rfl
@[simp] theorem fixImage_some_invE (s : State) (t : MatrixRows Binary32) (rs : List Run) :
    (fixImage s (some t) rs).invE = rowBits t := rfl
@[simp] theorem fixImage_some_blValid (s : State) (t : MatrixRows Binary32) (rs : List Run) :
    (fixImage s (some t) rs).blValid = s.blValid := rfl
@[simp] theorem fixImage_some_blCs (s : State) (t : MatrixRows Binary32) (rs : List Run) :
    (fixImage s (some t) rs).blCs = s.blCs := rfl
@[simp] theorem fixImage_some_ph (s : State) (t : MatrixRows Binary32) (rs : List Run) :
    (fixImage s (some t) rs).ph = s.ph := rfl
@[simp] theorem fixImage_some_p (s : State) (t : MatrixRows Binary32) (rs : List Run) :
    (fixImage s (some t) rs).p = s.p := rfl
@[simp] theorem fixImage_some_runs (s : State) (t : MatrixRows Binary32) (rs : List Run) :
    (fixImage s (some t) rs).runs = rs := rfl
@[simp] theorem fixImage_some_ri (s : State) (t : MatrixRows Binary32) (rs : List Run) :
    (fixImage s (some t) rs).ri = s.ri := rfl
@[simp] theorem fixImage_some_off (s : State) (t : MatrixRows Binary32) (rs : List Run) :
    (fixImage s (some t) rs).off = s.off := rfl
@[simp] theorem fixImage_some_fpath (s : State) (t : MatrixRows Binary32) (rs : List Run) :
    (fixImage s (some t) rs).fpath = s.fpath := rfl
@[simp] theorem fixImage_some_ipath (s : State) (t : MatrixRows Binary32) (rs : List Run) :
    (fixImage s (some t) rs).ipath = .resample := rfl
@[simp] theorem fixImage_some_maskOn (s : State) (t : MatrixRows Binary32) (rs : List Run) :
    (fixImage s (some t) rs).maskOn = (maskKind s.p.params.maskMethod).isSome := rfl
@[simp] theorem fixImage_some_c (s : State) (t : MatrixRows Binary32) (rs : List Run) :
    (fixImage s (some t) rs).c = s.c := rfl
@[simp] theorem fixImage_some_inv (s : State) (t : MatrixRows Binary32) (rs : List Run) :
    (fixImage s (some t) rs).inv = t := rfl
@[simp] theorem fixImage_some_mem (s : State) (t : MatrixRows Binary32) (rs : List Run) :
    (fixImage s (some t) rs).mem = s.mem := rfl
@[simp] theorem fixImage_some_host (s : State) (t : MatrixRows Binary32) (rs : List Run) :
    (fixImage s (some t) rs).host = s.host := rfl
@[simp] theorem fixImage_some_turns (s : State) (t : MatrixRows Binary32) (rs : List Run) :
    (fixImage s (some t) rs).turns = s.turns := rfl
@[simp] theorem fixImage_some_rdata (s : State) (t : MatrixRows Binary32) (rs : List Run) :
    (fixImage s (some t) rs).rdata = s.rdata := rfl

end Sys2Proof.Machine
end

