-- ==== Sys2Proof/Laws/Checks.lean ====
section
/-! SUPPORT. When each check of the validation step passes, and what the runs it builds satisfy: one lemma a
check, for proofs to cite instead of unfolding it. -/

namespace Sys2Proof.Machine

/-- Sequencing two checks: the whole passes when both do. -/
theorem Except.bind_ok_iff {ε α β : Type} (x : Except ε α) (f : α → Except ε β) (b : β) :
    (x >>= f) = .ok b ↔ ∃ a, x = .ok a ∧ f a = .ok b := by
  cases x <;> simp [bind, Except.bind]

/-- Sequencing two checks that give no value: the whole passes when both do. -/
theorem Except.bind_unit_ok_iff {ε β : Type} (x : Except ε Unit) (f : Unit → Except ε β) (b : β) :
    (x >>= f) = .ok b ↔ x = .ok () ∧ f () = .ok b := by
  cases x <;> simp [bind, Except.bind]

/-- Sequencing two checks: the whole stops where the first does, or where the second does. -/
theorem Except.bind_error_iff {ε α β : Type} (x : Except ε α) (f : α → Except ε β) (e : ε) :
    (x >>= f) = .error e ↔ x = .error e ∨ ∃ a, x = .ok a ∧ f a = .error e := by
  cases x <;> simp [bind, Except.bind]

theorem checkRange_ok_iff (pl : Platform) (base : Word) (n : Nat) (ks : List AccessKind) :
    checkRange pl base n ks = .ok () ↔ RangeUsable pl base.toNat n ks := by
  unfold checkRange
  constructor
  · intro h
    split at h
    · cases h
    · split at h
      · cases h
      · split at h
        · cases h
        · rename_i h1 h2 h3
          exact ⟨Nat.le_of_not_lt h1, by simpa using h2, by simpa using h3⟩
  · rintro ⟨h1, h2, h3⟩
    rw [if_neg (Nat.not_lt.2 h1), if_neg (by simpa using h2), if_neg (by simp [h3])]

/-- A range check stops with ERR_ADDR and the base, or refuses a device; it never faults. -/
theorem checkRange_error (pl : Platform) (base : Word) (n : Nat) (ks : List AccessKind) (h : Halt)
    (he : checkRange pl base n ks = .error h) :
    h = .error .addr base ∨ h = .refusal (.deviceBuffer base) := by
  unfold checkRange at he
  split at he
  · cases he; exact .inl rfl
  · split at he
    · cases he; exact .inl rfl
    · split at he <;> cases he
      exact .inr rfl

theorem checkAlign_ok_iff (base : Word) : checkAlign base = .ok () ↔ base.toNat % 4 = 0 := by
  unfold checkAlign; split <;> simp_all

/-- The extent of a buffer of positive height, as natural numbers (20_memory.md R75). -/
theorem extent_of_pos (w h s : Nat) (hh : 0 < h) : extent w h s = 4 * ((h - 1) * s + w) := by
  unfold extent
  obtain ⟨k, rfl⟩ : ∃ k, h = k + 1 := ⟨h - 1, by omega⟩
  have : (((k + 1 : Nat) : Int) - 1) = (k : Int) := by push_cast; ring
  rw [this]
  simp only [Nat.add_sub_cancel]
  norm_cast

theorem pos_of_ne_zero {n : Nat} (x : BitVec n) (h : x ≠ 0) : 0 < x.toNat := by
  rcases Nat.eq_zero_or_pos x.toNat with h0 | h0
  · exact absurd (BitVec.eq_of_toNat_eq (by simpa using h0)) h
  · exact h0

theorem checkSurface_ok_iff (pl : Platform) (p : Params) :
    checkSurface pl p = .ok () ↔ SurfaceUsable pl p := by
  unfold checkSurface
  by_cases h0 : p.surfBase = 0 ∨ p.surfW = 0 ∨ p.surfH = 0 ∨ p.surfStride.toNat < p.surfW.toNat
  · rw [if_pos h0]
    constructor
    · intro h; cases h
    · rintro ⟨a, b, c, d, -, -⟩
      rcases h0 with h | h | h | h
      · exact absurd h a
      · exact absurd h b
      · exact absurd h c
      · omega
  · rw [if_neg h0]
    simp only [not_or, not_lt] at h0
    obtain ⟨a, b, c, d⟩ := h0
    have hx : p.surfRange.size = 4 * ((p.surfH.toNat - 1) * p.surfStride.toNat + p.surfW.toNat) :=
      extent_of_pos _ _ _ (pos_of_ne_zero _ c)
    simp only [Except.bind_unit_ok_iff, checkAlign_ok_iff, checkRange_ok_iff, hx]
    exact ⟨fun ⟨h1, h2⟩ => ⟨a, b, c, d, h1, h2⟩, fun h => ⟨h.aligned, h.range⟩⟩

theorem maskKind_isSome_iff (mm : BitVec 2) : (maskKind mm).isSome = true ↔ mm = 2 ∨ mm = 3 := by
  unfold maskKind; split
  · simp_all
  · split <;> simp_all

theorem checkMask_ok_iff (pl : Platform) (p : Params) (hs : p.surfH ≠ 0) :
    checkMask pl p = .ok () ↔ MaskUsable pl p := by
  have hx : p.maskRange.size = 4 * ((p.surfH.toNat - 1) * p.surfStride.toNat + p.surfW.toNat) :=
    extent_of_pos _ _ _ (pos_of_ne_zero _ hs)
  unfold checkMask
  by_cases hm : (maskKind p.maskMethod).isSome
  · have hmm := (maskKind_isSome_iff _).1 hm
    rw [if_pos hm]
    by_cases hb : p.maskBase = 0
    · rw [if_pos hb]
      constructor
      · intro h; cases h
      · intro h; exact absurd hb (h.base hmm)
    · rw [if_neg hb]
      simp only [Except.bind_unit_ok_iff, checkAlign_ok_iff, checkRange_ok_iff, hx]
      exact ⟨fun ⟨h1, h2⟩ => ⟨fun _ => hb, fun _ => h1, fun _ => h2⟩,
        fun h => ⟨h.aligned hmm, h.range hmm⟩⟩
  · rw [if_neg hm]
    have hmm : ¬ (p.maskMethod = 2 ∨ p.maskMethod = 3) := fun h => hm ((maskKind_isSome_iff _).2 h)
    exact ⟨fun _ => ⟨fun h => absurd h hmm, fun h => absurd h hmm, fun h => absurd h hmm⟩, fun _ => rfl⟩

theorem checkImage_ok_iff (pl : Platform) (p : Params) :
    checkImage pl p = .ok () ↔ ImageUsable pl p := by
  unfold checkImage
  by_cases h0 : p.imgBase = 0 ∨ p.imgW = 0 ∨ p.imgH = 0 ∨ p.imgStride.toNat < p.imgW.toNat
  · rw [if_pos h0]
    constructor
    · intro h; cases h
    · rintro ⟨a, b, c, d, -, -⟩
      rcases h0 with h | h | h | h
      · exact absurd h a
      · exact absurd h b
      · exact absurd h c
      · omega
  · rw [if_neg h0]
    simp only [not_or, not_lt] at h0
    obtain ⟨a, b, c, d⟩ := h0
    have hx : p.imgRange.size = 4 * ((p.imgH.toNat - 1) * p.imgStride.toNat + p.imgW.toNat) :=
      extent_of_pos _ _ _ (pos_of_ne_zero _ c)
    simp only [Except.bind_unit_ok_iff, checkAlign_ok_iff, checkRange_ok_iff, hx]
    exact ⟨fun ⟨h1, h2⟩ => ⟨a, b, c, d, h1, h2⟩, fun h => ⟨h.aligned, h.range⟩⟩

theorem checkRle_ok_iff (pl : Platform) (p : Params) : checkRle pl p = .ok () ↔ SpansUsable pl p := by
  unfold checkRle
  by_cases hc : p.rleCount = 0
  · rw [if_neg (by simpa using hc)]
    exact ⟨fun _ => ⟨fun h => absurd hc h, fun h => absurd hc h, fun h => absurd hc h⟩, fun _ => rfl⟩
  · rw [if_pos hc]
    by_cases hb : p.rleBase = 0
    · rw [if_pos hb]
      constructor
      · intro h; cases h
      · intro h; exact absurd hb (h.base hc)
    · rw [if_neg hb]
      simp only [Except.bind_unit_ok_iff, checkAlign_ok_iff, checkRange_ok_iff]
      exact ⟨fun ⟨h1, h2⟩ => ⟨fun _ => hb, fun _ => h1, fun _ => h2⟩,
        fun h => ⟨h.aligned hc, h.range hc⟩⟩

theorem checkBlender_ok_iff (s : State) : checkBlender s = .ok () ↔ s.blValid = true := by
  unfold checkBlender; split <;> simp_all

theorem checkDraw_ok_iff (s : State) : checkDraw s = .ok () ↔
    s.blValid = true ∧ SurfaceUsable s.platform s.p.params ∧ MaskUsable s.platform s.p.params := by
  unfold checkDraw
  simp only [Except.bind_unit_ok_iff, checkBlender_ok_iff, checkSurface_ok_iff]
  constructor
  · rintro ⟨h1, h2, h3⟩
    exact ⟨h1, h2, (checkMask_ok_iff _ _ h2.height).1 h3⟩
  · rintro ⟨h1, h2, h3⟩
    exact ⟨h1, h2, (checkMask_ok_iff _ _ h2.height).2 h3⟩

theorem emptyRegion_iff (p : Params) : emptyRegion p = true ↔ p.maxX ≤ p.minX ∨ p.maxY ≤ p.minY := by
  simp [emptyRegion]

theorem checkRectBounds_ok_iff (p : Params) : checkRectBounds p = .ok () ↔
    emptyRegion p = true ∨ (p.maxX ≤ p.surfW.toNat ∧ p.maxY ≤ p.surfH.toNat) := by
  unfold checkRectBounds; split <;> simp_all

theorem checkRectSource_ok_iff (p : Params) : checkRectSource p = .ok () ↔
    emptyRegion p = true ∨ (p.originX + (p.maxX - p.minX) ≤ p.imgW.toNat ∧
      p.originY + (p.maxY - p.minY) ≤ p.imgH.toNat) := by
  unfold checkRectSource; split <;> simp_all

/-- The runs of a rectangle (42_fill.md R161). -/
theorem mem_regionRuns (p : Params) (r : Run) (h : r ∈ regionRuns p) :
    p.minX < p.maxX ∧ p.minY ≤ r.y ∧ r.y < p.maxY ∧ r.x0 = p.minX ∧ r.len = p.maxX - p.minX ∧
      r.cov = 255 := by
  unfold regionRuns rectRuns at h
  split at h
  · simp at h
  · rename_i hne
    obtain ⟨k, hk, rfl⟩ := List.mem_map.1 h
    have := List.mem_range.1 hk
    simp only [not_or, not_le] at hne
    exact ⟨hne.1, by simp, by simp; omega, rfl, rfl, rfl⟩

/-- The runs of a rectangle that passed its bounds check lie in the surface. -/
theorem regionRuns_inSurface (p : Params) (h : checkRectBounds p = .ok ()) :
    ∀ r ∈ regionRuns p, RunInSurface p r := by
  intro r hr
  obtain ⟨h1, h2, h3, h4, h5, -⟩ := mem_regionRuns p r hr
  rcases (checkRectBounds_ok_iff p).1 h with he | ⟨hx, hy⟩
  · rcases (emptyRegion_iff p).1 he with h | h <;> omega
  · unfold RunInSurface; omega

/-- The runs of a rectangle that passed the source check lie in the image. -/
theorem regionRuns_inImage (p : Params) (h : checkRectSource p = .ok ()) :
    ∀ r ∈ regionRuns p, RunInImage p r := by
  intro r hr
  obtain ⟨h1, h2, h3, h4, h5, -⟩ := mem_regionRuns p r hr
  rcases (checkRectSource_ok_iff p).1 h with he | ⟨hx, hy⟩
  · rcases (emptyRegion_iff p).1 he with h | h <;> omega
  · unfold RunInImage; omega

/-- The runs of CLEAR lie in the surface (42_fill.md R174). -/
theorem clearRuns_inSurface (p : Params) (hw : p.surfW ≠ 0) : ∀ r ∈ clearRuns p, RunInSurface p r := by
  intro r hr
  obtain ⟨k, hk, rfl⟩ := List.mem_map.1 hr
  have := List.mem_range.1 hk
  have := pos_of_ne_zero _ hw
  exact ⟨this, by simp, by simpa using ‹k < _›⟩

/-- Span records below 2^32 can be read. -/
theorem readSpan_ok (p : Params) (m : Memory) (i : Nat) (h : p.spanAddr i + 8 ≤ addressSpace) :
    readSpan p m i = .ok ⟨lowHalf (wordAt m (p.spanAddr i)), highHalf (wordAt m (p.spanAddr i)),
      lowHalf (wordAt m (p.spanAddr i + 4)), byteOf (wordAt m (p.spanAddr i + 4)) 2⟩ := by
  unfold readSpan readWord
  rw [if_pos (by omega), if_pos (by omega)]
  rfl

/-- Runs built from a span list lie in the surface, and with `direct` in the image (42_fill.md R162). -/
theorem spanRuns_ok (p : Params) (m : Memory) (direct : Bool) (n i : Nat) (rs : List Run)
    (h : spanRuns p m direct i n = .ok rs) :
    ∀ r ∈ rs, RunInSurface p r ∧ (direct = true → RunInImage p r) := by
  induction n generalizing i rs with
  | zero => simp only [spanRuns] at h; cases h; simp
  | succ n ih =>
    unfold spanRuns at h
    split at h
    · cases h
    · rename_i sp _
      split at h
      · exact ih _ _ h
      · split at h
        · cases h
        · split at h
          · cases h
          · rename_i hlen hin him
            obtain ⟨rest, hr, hp⟩ := (Except.bind_ok_iff _ _ _).1 h
            cases hp
            intro r hr'
            rcases List.mem_cons.1 hr' with rfl | hr'
            · simp only [spanInSurface, Bool.not_eq_true, Bool.not_eq_false', Bool.and_eq_true,
                decide_eq_true_eq] at hin
              refine ⟨⟨Nat.pos_of_ne_zero hlen, hin.2, hin.1⟩, fun hd => ?_⟩
              subst hd
              simpa [spanInImage, RunInImage, Span.run, and_assoc] using him
            · exact ih _ _ hr r hr'

/-- Building runs from readable span records never faults. -/
theorem spanRuns_not_fault (p : Params) (m : Memory) (direct : Bool) (n i : Nat) (f : Fault)
    (hr : p.spanAddr (i + n) ≤ addressSpace) : spanRuns p m direct i n ≠ .error (.fault f) := by
  induction n generalizing i with
  | zero => simp [spanRuns]
  | succ n ih =>
    have hstep : p.spanAddr i + 8 ≤ addressSpace := by unfold Params.spanAddr at hr ⊢; omega
    have hnext : p.spanAddr (i + 1 + n) ≤ addressSpace := by
      rwa [show i + 1 + n = i + (n + 1) by omega]
    unfold spanRuns
    rw [readSpan_ok p m i hstep]
    dsimp only
    split
    · exact ih _ hnext
    · split
      · simp
      · split
        · simp
        · intro h
          rcases (Except.bind_error_iff _ _ _).1 h with h | ⟨_, _, h⟩
          · exact ih _ hnext h
          · cases h

end Sys2Proof.Machine
end

