-- ==== Sys2Proof/Laws/Memory.lean ====
section
/-! SUPPORT. Laws of memory: what a read after a write sees, and that every operation keeps the canonical
form. -/

namespace Sys2Proof.Machine

@[simp] theorem readByte_nil (a : Nat) : readByte [] a = unlistedByte := rfl

/-- A byte below every listed address reads as unlisted. -/
theorem readByte_of_lt (m : Memory) (a : Nat) (h : ∀ c ∈ m, a < c.1) : readByte m a = unlistedByte := by
  induction m with
  | nil => rfl
  | cons c m ih =>
    obtain ⟨b, u⟩ := c
    have hb : a < b := h (b, u) (by simp)
    rw [readByte, if_neg (by omega), ih fun c hc => h c (by simp [hc])]

theorem sorted_tail {c : Host.Cell} {m : Memory} (h : (c :: m).Pairwise fun c d => c.1 < d.1) :
    m.Pairwise fun c d => c.1 < d.1 := (List.pairwise_cons.1 h).2

/-- Read after write, on a memory whose addresses rise. -/
theorem readByte_writeByte_of_sorted (m : Memory) (a b : Nat) (v : Byte)
    (h : m.Pairwise fun c d => c.1 < d.1) :
    readByte (writeByte m a v) b = if b = a then v else readByte m b := by
  induction m with
  | nil => by_cases hv : v = unlistedByte <;> by_cases hb : b = a <;>
      simp_all [writeByte, readByte, eq_comm]
  | cons c m ih =>
    obtain ⟨d, u⟩ := c
    have hlt : ∀ c ∈ m, d < c.1 := (List.pairwise_cons.1 h).1
    have ih := ih (sorted_tail h)
    unfold writeByte
    split
    · rename_i had
      have hnot : readByte ((d, u) :: m) a = unlistedByte :=
        readByte_of_lt _ _ fun c hc => by
          rcases List.mem_cons.1 hc with rfl | hc
          · exact had
          · have := hlt c hc; omega
      split
      · rename_i hv
        split
        · rename_i hb; subst hb; rw [hnot, hv]
        · rfl
      · by_cases hb : a = b
        · simp [readByte, hb]
        · simp [readByte, hb, Ne.symm hb]
    · split
      · rename_i had; subst had
        have hm : readByte m a = unlistedByte := readByte_of_lt _ _ hlt
        by_cases hb : b = a
        · subst hb
          split <;> simp_all [readByte]
        · split <;> simp [readByte, Ne.symm hb]
      · rename_i hd1 hd2
        by_cases hb : d = b
        · subst hb; simp [readByte, Ne.symm hd2]
        · simp [readByte, hb, ih]

/-- Every listed address after a write was listed before or is the address written. -/
theorem mem_writeByte (m : Memory) (a : Nat) (v : Byte) (c : Host.Cell) (h : c ∈ writeByte m a v) :
    c ∈ m ∨ (c = (a, v) ∧ v ≠ unlistedByte) := by
  induction m with
  | nil =>
    unfold writeByte at h
    split at h
    · simp at h
    · right; simp_all
  | cons d m ih =>
    unfold writeByte at h
    split at h
    · split at h
      · exact .inl h
      · rcases List.mem_cons.1 h with rfl | h
        · right; simp_all
        · exact .inl h
    · split at h
      · split at h
        · exact .inl (List.mem_cons_of_mem _ h)
        · rcases List.mem_cons.1 h with rfl | h
          · right; simp_all
          · exact .inl (List.mem_cons_of_mem _ h)
      · rcases List.mem_cons.1 h with rfl | h
        · exact .inl (by simp)
        · rcases ih h with h | h
          · exact .inl (List.mem_cons_of_mem _ h)
          · exact .inr h

/-- A byte write keeps the addresses rising. -/
theorem sorted_writeByte (m : Memory) (a : Nat) (v : Byte) (h : m.Pairwise fun c d => c.1 < d.1) :
    (writeByte m a v).Pairwise fun c d => c.1 < d.1 := by
  induction m with
  | nil => unfold writeByte; split <;> simp
  | cons d m ih =>
    have hd := List.pairwise_cons.1 h
    unfold writeByte
    split
    · rename_i had
      split
      · exact h
      · refine List.pairwise_cons.2 ⟨fun c hc => ?_, h⟩
        rcases List.mem_cons.1 hc with rfl | hc
        · exact had
        · exact lt_trans had (hd.1 c hc)
    · split
      · rename_i had
        split
        · exact hd.2
        · exact List.pairwise_cons.2 ⟨fun c hc => by rw [had]; exact hd.1 c hc, hd.2⟩
      · rename_i h1 h2
        refine List.pairwise_cons.2 ⟨fun c hc => ?_, ih hd.2⟩
        rcases mem_writeByte m a v c hc with hc | ⟨rfl, -⟩
        · exact hd.1 c hc
        · show d.1 < a; omega

/-- A byte write inside the space keeps the canonical form. -/
theorem wf_writeByte (m : Memory) (a : Nat) (v : Byte) (ha : a < addressSpace) (h : Memory.wf m) :
    Memory.wf (writeByte m a v) := by
  refine ⟨sorted_writeByte m a v h.1, fun c hc => ?_⟩
  rcases mem_writeByte m a v c hc with hc | ⟨rfl, hv⟩
  · exact h.2 c hc
  · exact ⟨hv, ha⟩

/-- Read after write (20_memory.md R70). -/
theorem readByte_writeByte (m : Memory) (a b : Nat) (v : Byte) (h : Memory.wf m) :
    readByte (writeByte m a v) b = if b = a then v else readByte m b :=
  readByte_writeByte_of_sorted m a b v h.1

/-- A word write inside the space keeps the canonical form. -/
theorem wf_storeWord (m : Memory) (a : Nat) (v : Word) (ha : a + 4 ≤ addressSpace) (h : Memory.wf m) :
    Memory.wf (storeWord m a v) := by
  unfold storeWord
  refine wf_writeByte _ _ _ ?_ (wf_writeByte _ _ _ ?_ (wf_writeByte _ _ _ ?_ (wf_writeByte _ _ _ ?_ h))) <;>
    simp only [addressSpace] at * <;> omega

/-- The addresses stay rising under a word write. -/
theorem sorted_storeWord (m : Memory) (a : Nat) (v : Word) (h : m.Pairwise fun c d => c.1 < d.1) :
    (storeWord m a v).Pairwise fun c d => c.1 < d.1 :=
  sorted_writeByte _ _ _ (sorted_writeByte _ _ _ (sorted_writeByte _ _ _ (sorted_writeByte _ _ _ h)))

/-- What every byte reads after a word write (20_memory.md R71). -/
theorem readByte_storeWord (m : Memory) (a b : Nat) (v : Word) (h : Memory.wf m) :
    readByte (storeWord m a v) b =
      if b = a then byteOf v 0 else if b = a + 1 then byteOf v 1 else if b = a + 2 then byteOf v 2
      else if b = a + 3 then byteOf v 3 else readByte m b := by
  have h0 := h.1
  have h1 := sorted_writeByte m a (byteOf v 0) h0
  have h2 := sorted_writeByte _ (a + 1) (byteOf v 1) h1
  have h3 := sorted_writeByte _ (a + 2) (byteOf v 2) h2
  unfold storeWord
  rw [readByte_writeByte_of_sorted _ _ _ _ h3, readByte_writeByte_of_sorted _ _ _ _ h2,
    readByte_writeByte_of_sorted _ _ _ _ h1, readByte_writeByte_of_sorted _ _ _ _ h0]
  split_ifs <;> first | rfl | omega

/-- Joining a word's four bytes gives the word. -/
theorem pack_byteOf (v : Word) : pack (byteOf v 3) (byteOf v 2) (byteOf v 1) (byteOf v 0) = v := by
  apply BitVec.eq_of_getLsbD_eq
  intro i hi
  simp only [pack, byteOf, BitVec.getLsbD_append, BitVec.getLsbD_extractLsb']
  rcases (by omega : i < 8 ∨ (8 ≤ i ∧ i < 16) ∨ (16 ≤ i ∧ i < 24) ∨ 24 ≤ i) with h | h | h | h
  · simp [h]
  · simp [show ¬ i < 8 by omega, show i - 8 < 8 by omega, show 8 + (i - 8) = i by omega]
  · simp [show ¬ i < 8 by omega, show ¬ i - 8 < 8 by omega, show i - 8 - 8 < 8 by omega,
      show 16 + (i - 8 - 8) = i by omega]
  · simp [show ¬ i < 8 by omega, show ¬ i - 8 < 8 by omega, show ¬ i - 8 - 8 < 8 by omega,
      show i - 8 - 8 - 8 < 8 by omega, show 24 + (i - 8 - 8 - 8) = i by omega]

/-- A word read back from where it was stored is that word (20_memory.md R71). -/
theorem wordAt_storeWord_self (m : Memory) (a : Nat) (v : Word) (h : Memory.wf m) :
    wordAt (storeWord m a v) a = v := by
  simp only [wordAt, readByte_storeWord _ _ _ _ h]
  simp [pack_byteOf]

/-- A word that shares no byte with the stored one reads as before. -/
theorem wordAt_storeWord_of_disjoint (m : Memory) (a b : Nat) (v : Word) (h : Memory.wf m)
    (hd : b + 4 ≤ a ∨ a + 4 ≤ b) : wordAt (storeWord m a v) b = wordAt m b := by
  simp only [wordAt, readByte_storeWord _ _ _ _ h]
  congr 1 <;> split_ifs <;> first | rfl | omega

/-- Two memories in canonical form that read alike everywhere are the same list. -/
theorem Memory.eq_of_readByte_eq (m n : Memory) (hm : Memory.wf m) (hn : Memory.wf n)
    (h : ∀ a, readByte m a = readByte n a) : m = n := by
  induction m generalizing n with
  | nil =>
    cases n with
    | nil => rfl
    | cons d n =>
      have := h d.1
      obtain ⟨b, u⟩ := d
      simp only [readByte, if_true] at this
      exact absurd this.symm (hn.2 (b, u) (by simp)).1
  | cons c m ih =>
    obtain ⟨b, u⟩ := c
    have hmu := (hm.2 (b, u) (by simp)).1
    have hml := (List.pairwise_cons.1 hm.1).1
    cases n with
    | nil =>
      have := h b
      simp only [readByte, if_true] at this
      exact absurd this hmu
    | cons d n =>
      obtain ⟨e, w⟩ := d
      have hnw := (hn.2 (e, w) (by simp)).1
      have hnl := (List.pairwise_cons.1 hn.1).1
      have hbe : b = e := by
        rcases lt_trichotomy b e with hlt | heq | hgt
        · have h1 := h b
          rw [readByte_of_lt ((e, w) :: n) b] at h1
          · simp only [readByte, if_true] at h1; exact absurd h1 hmu
          · intro c hc
            rcases List.mem_cons.1 hc with rfl | hc
            · exact hlt
            · exact lt_trans hlt (hnl c hc)
        · exact heq
        · have h1 := h e
          rw [readByte_of_lt ((b, u) :: m) e] at h1
          · simp only [readByte, if_true] at h1; exact absurd h1.symm hnw
          · intro c hc
            rcases List.mem_cons.1 hc with rfl | hc
            · exact hgt
            · exact lt_trans hgt (hml c hc)
      subst hbe
      have huw : u = w := by simpa [readByte] using h b
      subst huw
      have : m = n := by
        refine ih n ⟨sorted_tail hm.1, fun c hc => hm.2 c (by simp [hc])⟩
          ⟨sorted_tail hn.1, fun c hc => hn.2 c (by simp [hc])⟩ fun a => ?_
        by_cases ha : b = a
        · subst ha
          rw [readByte_of_lt m b hml, readByte_of_lt n b hnl]
        · simpa [readByte, ha] using h a
      rw [this]

theorem readWord_ok_iff (m : Memory) (a : Nat) (v : Word) :
    readWord m a = .ok v ↔ a + 4 ≤ addressSpace ∧ v = wordAt m a := by
  unfold readWord; split <;> simp_all [eq_comm]

theorem writeWord_ok_iff (m : Memory) (a : Nat) (v : Word) (m' : Memory) :
    writeWord m a v = .ok m' ↔ a + 4 ≤ addressSpace ∧ m' = storeWord m a v := by
  unfold writeWord; split <;> simp_all [eq_comm]

end Sys2Proof.Machine
end

