-- ==== Sys2Proof/Laws/Colour.lean ====
section
/-! SUPPORT. Words as their four bytes (00_scope.md R12). -/

namespace Sys2Proof.Machine

/-- The bytes of a packed word. -/
theorem byteOf_pack (b3 b2 b1 b0 : Byte) : byteOf (pack b3 b2 b1 b0) 3 = b3 ∧ byteOf (pack b3 b2 b1 b0) 2 = b2
    ∧ byteOf (pack b3 b2 b1 b0) 1 = b1 ∧ byteOf (pack b3 b2 b1 b0) 0 = b0 := by
  refine ⟨?_,?_,?_,?_⟩ <;> (apply BitVec.eq_of_getLsbD_eq; intro i hi; simp only
      [pack, byteOf, BitVec.getLsbD_append, BitVec.getLsbD_extractLsb']; interval_cases i <;> simp)

/-- A packed word as a number. -/
theorem pack_toNat (b3 b2 b1 b0 : Byte) : (pack b3 b2 b1 b0).toNat = b3.toNat * 2^24 + b2.toNat * 2^16 +
    b1.toNat * 2^8 + b0.toNat := by
  simp only [pack, BitVec.toNat_append]
  have := b0.isLt; have := b1.isLt; have := b2.isLt
  rw [← Nat.shiftLeft_add_eq_or_of_lt (by omega), ← Nat.shiftLeft_add_eq_or_of_lt (by omega), ←
      Nat.shiftLeft_add_eq_or_of_lt (by omega)]
  simp only [Nat.shiftLeft_eq]; omega

/-- A byte of a word as a number. -/
theorem byteOf_toNat (v : Word) (i : Nat) : (byteOf v i).toNat = v.toNat / 2^(8*i) % 256 := by
  simp [byteOf, BitVec.extractLsb'_toNat, Nat.shiftRight_eq_div_pow]

/-- A word as its bytes. -/
theorem word_split (v : Word) : v.toNat = (byteOf v 3).toNat * 2^24 + (byteOf v 2).toNat * 2^16 +
    (byteOf v 1).toNat * 2^8 + (byteOf v 0).toNat := by
  conv_lhs => rw [← pack_byteOf v, pack_toNat]

/-- Words with equal bytes are equal. -/
theorem word_ext (a b : Word) (h : ∀ i < 4, byteOf a i = byteOf b i) : a = b := by
  rw [← pack_byteOf a, ← pack_byteOf b, h 0 (by omega), h 1 (by omega), h 2 (by omega), h 3 (by omega)]

end Sys2Proof.Machine
end

