-- ==== Sys2Proof/Laws/Walk.lean ====
section
/-! SUPPORT. What the walk step and its parts can do, said once (42_fill.md R164). -/

namespace Sys2Proof.Machine

/-- The values of lanes that are all computed: one a column, in order. -/
theorem laneValues_ok (px : PixelFn) (y : Nat) (cov : Byte) (n x : Nat) (vs : List (Nat × Option Word))
    (h : laneValues px y cov x n = .ok vs) :
    vs.length = n ∧ ∀ j < n, ∃ v, px (x + j) y cov = .ok v ∧ vs[j]? = some (x + j, v) := by
  induction n generalizing x vs with
  | zero => simp only [laneValues] at h; cases h; simp
  | succ n ih =>
    unfold laneValues at h
    obtain ⟨v, hv, h⟩ := (Except.bind_ok_iff _ _ _).1 h
    obtain ⟨rest, hr, h⟩ := (Except.bind_ok_iff _ _ _).1 h
    cases h
    obtain ⟨hl, hj⟩ := ih _ _ hr
    refine ⟨by simp [hl], fun j hjn => ?_⟩
    cases j with
    | zero => exact ⟨v, hv, rfl⟩
    | succ j =>
      obtain ⟨w, hw, hg⟩ := hj j (by omega)
      exact ⟨w, by rwa [show x + (j + 1) = x + 1 + j by omega], by
        rw [List.getElem?_cons_succ, hg, show x + 1 + j = x + (j + 1) by omega]⟩

/-- Lanes whose pixel function gives a value at every column are all computed. -/
theorem laneValues_of_ok (px : PixelFn) (y : Nat) (cov : Byte) (n x : Nat)
    (h : ∀ j < n, ∃ v, px (x + j) y cov = .ok v) : ∃ vs, laneValues px y cov x n = .ok vs := by
  induction n generalizing x with
  | zero => exact ⟨[], rfl⟩
  | succ n ih =>
    obtain ⟨v, hv⟩ := h 0 (by omega)
    obtain ⟨vs, hvs⟩ := ih (x + 1) fun j hj => by
      obtain ⟨w, hw⟩ := h (j + 1) (by omega)
      exact ⟨w, by rwa [show x + 1 + j = x + (j + 1) by omega]⟩
    refine ⟨(x, v) :: vs, ?_⟩
    unfold laneValues
    rw [show px x y cov = .ok v from hv, hvs]
    rfl

/-- Storing lanes whose words lie in the space succeeds. -/
theorem storeLanes_of_inSpace (p : Params) (y : Nat) (vs : List (Nat × Option Word)) (m : Memory)
    (h : ∀ c ∈ vs, p.dstAddr c.1 y + 4 ≤ addressSpace) : ∃ m', storeLanes p y m vs = .ok m' := by
  induction vs generalizing m with
  | nil => exact ⟨m, rfl⟩
  | cons c vs ih =>
    obtain ⟨x, v⟩ := c
    cases v with
    | none => exact ih m fun c hc => h c (by simp [hc])
    | some v =>
      obtain ⟨m', hm⟩ := ih (storeWord m (p.dstAddr x y) v) fun c hc => h c (by simp [hc])
      refine ⟨m', ?_⟩
      unfold storeLanes writeWord
      rw [if_pos (h (x, some v) (by simp))]
      exact hm

/-- Storing lanes keeps the canonical form. -/
theorem wf_storeLanes (p : Params) (y : Nat) (vs : List (Nat × Option Word)) (m m' : Memory)
    (h : storeLanes p y m vs = .ok m') (hm : Memory.wf m) : Memory.wf m' := by
  induction vs generalizing m with
  | nil => simp only [storeLanes] at h; cases h; exact hm
  | cons c vs ih =>
    obtain ⟨x, v⟩ := c
    cases v with
    | none => exact ih m h hm
    | some v =>
      unfold storeLanes at h
      obtain ⟨m1, h1, h2⟩ := (Except.bind_ok_iff _ _ _).1 h
      obtain ⟨hs, rfl⟩ := (writeWord_ok_iff _ _ _ _).1 h1
      exact ih _ h2 (wf_storeWord _ _ _ hs hm)

/-- Storing lanes leaves every byte outside the words it stores (42_fill.md R166). -/
theorem storeLanes_frame (p : Params) (y : Nat) (vs : List (Nat × Option Word)) (m m' : Memory)
    (h : storeLanes p y m vs = .ok m') (hm : Memory.wf m) (a : Nat)
    (ha : ∀ x v, (x, some v) ∈ vs → a < p.dstAddr x y ∨ p.dstAddr x y + 4 ≤ a) :
    readByte m' a = readByte m a := by
  induction vs generalizing m with
  | nil => simp only [storeLanes] at h; cases h; rfl
  | cons c vs ih =>
    obtain ⟨x, v⟩ := c
    cases v with
    | none => exact ih m h hm fun x v hv => ha x v (by simp [hv])
    | some v =>
      unfold storeLanes at h
      obtain ⟨m1, h1, h2⟩ := (Except.bind_ok_iff _ _ _).1 h
      obtain ⟨hs, rfl⟩ := (writeWord_ok_iff _ _ _ _).1 h1
      rw [ih _ h2 (wf_storeWord _ _ _ hs hm) fun x v hv => ha x v (by simp [hv]),
        readByte_storeWord _ _ _ _ hm]
      have := ha x v (by simp)
      split_ifs <;> first | rfl | omega

/-- A group has 1 or 4 pixels, never more than are left (42_fill.md R164). -/
theorem groupSize_cases (simd : Bool) (left : Nat) :
    (groupSize simd left = 4 ∧ simd = true ∧ 4 ≤ left) ∨
    (groupSize simd left = 1 ∧ (simd = false ∨ left < 4)) := by
  unfold groupSize
  cases simd <;> by_cases h : 4 ≤ left <;> (simp [h]; try omega)

theorem groupSize_pos (simd : Bool) (left : Nat) : 0 < groupSize simd left := by
  rcases groupSize_cases simd left with h | h <;> omega

theorem groupSize_le (simd : Bool) (left : Nat) (h : 0 < left) : groupSize simd left ≤ left := by
  rcases groupSize_cases simd left with h | h <;> omega

/-- What a walk step that goes on has done (42_fill.md R164). -/
theorem walkStep_next (px : PixelFn) (s s' : State) (h : walkStep px s = .next s') :
    ∃ r vs m, s.runs[s.ri]? = some r ∧ s.off < r.len ∧
      laneValues px r.y r.cov (r.x0 + s.off) (groupSize s.p.simdEn (r.len - s.off)) = .ok vs ∧
      storeLanes s.p.params r.y s.mem vs = .ok m ∧
      s' = advance (groupSize s.p.simdEn (r.len - s.off)) r.len { s with mem := m } := by
  unfold walkStep at h
  split at h
  · cases h
  · rename_i r hr
    split at h
    · cases h
    · rename_i hoff
      dsimp only at h
      split at h
      · cases h
      · rename_i vs hvs
        split at h
        · cases h
        · rename_i m hm
          cases h
          exact ⟨r, vs, m, hr, by omega, hvs, hm, rfl⟩

/-- A walk step never refuses (60_exceptions.md R243). -/
theorem walkStep_not_refused (px : PixelFn) (s : State) (r : Refusal) : walkStep px s ≠ .refused r := by
  unfold walkStep
  split
  · simp
  · split
    · simp
    · dsimp only
      split
      · simp
      · split <;> simp

/-- The three ways a group can end: inside its run, at the end of a run with another after it, at the end
of the last run (42_fill.md R164). -/
theorem advance_cases (n len : Nat) (s : State) :
    (s.off + n ≠ len ∧ s.ri ≠ s.runs.length ∧
      advance n len s = { s with pixcount := s.pixcount + BitVec.ofNat 32 n, off := s.off + n }) ∨
    (s.off + n = len ∧ s.ri + 1 ≠ s.runs.length ∧
      advance n len s =
        { s with pixcount := s.pixcount + BitVec.ofNat 32 n, ri := s.ri + 1, off := 0 }) ∨
    (s.off + n = len ∧ s.ri + 1 = s.runs.length ∧
      advance n len s = completeSuccess
        { s with pixcount := s.pixcount + BitVec.ofNat 32 n, ri := s.ri + 1, off := 0 }) ∨
    (s.off + n ≠ len ∧ s.ri = s.runs.length ∧
      advance n len s = completeSuccess
        { s with pixcount := s.pixcount + BitVec.ofNat 32 n, off := s.off + n }) := by
  unfold advance
  dsimp only
  by_cases h : s.off + n = len
  · rw [if_pos h]
    dsimp only
    by_cases hr : s.ri + 1 = s.runs.length
    · rw [if_pos hr]; exact .inr (.inr (.inl ⟨h, hr, rfl⟩))
    · rw [if_neg hr]; exact .inr (.inl ⟨h, hr, rfl⟩)
  · rw [if_neg h]
    dsimp only
    by_cases hr : s.ri = s.runs.length
    · rw [if_pos hr]; exact .inr (.inr (.inr ⟨h, hr, rfl⟩))
    · rw [if_neg hr]; exact .inl ⟨h, hr, rfl⟩

/-- What the start of a walk can answer (42_fill.md R160, R165; 20_memory.md R92). -/
theorem startWalk_cases (i : Instr) (s : State) :
    (s.runs = [] ∧ startWalk i s = .next (completeSuccess { s with ri := 0, off := 0 })) ∨
    (s.runs ≠ [] ∧ overlaps i s.p.params = true ∧ startWalk i s = .refused .overlappingBuffers) ∨
    (s.runs ≠ [] ∧ overlaps i s.p.params = false ∧
      startWalk i s = .next { s with ri := 0, off := 0, ph := .walk }) := by
  unfold startWalk
  dsimp only
  by_cases h : s.runs = []
  · left; exact ⟨h, by simp [h]⟩
  · right
    have hb : s.runs.isEmpty = false := by simpa using h
    cases ho : overlaps i s.p.params
    · exact .inr ⟨h, rfl, by simp [hb]⟩
    · exact .inl ⟨h, rfl, by simp [hb]⟩

/-- What one engine step of a drawing command can answer, by phase (42_fill.md R160). -/
theorem drawStep_cases (i : Instr) (v : State → Except Halt State) (px : State → PixelFn) (s : State) :
    (s.ph = .idle ∧ drawStep i v px s = .next s) ∨
    (s.ph = .validate ∧ ∃ h, v s = .error h ∧ drawStep i v px s = haltOutcome s h) ∨
    (s.ph = .validate ∧ ∃ s', v s = .ok s' ∧ drawStep i v px s = startWalk i s') ∨
    (s.ph = .walk ∧ drawStep i v px s = walkStep (px s) s) := by
  unfold drawStep
  cases hp : s.ph
  · simp
  · cases hv : v s <;> simp
  · simp

/-- Pixels of a run in the surface are words of the surface range (20_memory.md R75). -/
theorem dstAddr_inSpace (pl : Platform) (p : Params) (hs : SurfaceUsable pl p) (x y : Nat)
    (hx : x < p.surfW.toNat) (hy : y < p.surfH.toNat) : p.dstAddr x y + 4 ≤ addressSpace := by
  have h := hs.range.inSpace
  obtain ⟨k, hk⟩ : ∃ k, p.surfH.toNat = k + 1 := ⟨p.surfH.toNat - 1, by omega⟩
  have hm : y * p.surfStride.toNat ≤ k * p.surfStride.toNat := Nat.mul_le_mul_right _ (by omega)
  rw [hk, Nat.add_sub_cancel] at h
  unfold Params.dstAddr addressSpace
  omega

theorem maskAddr_inSpace (pl : Platform) (p : Params) (hs : MaskUsable pl p)
    (hk : (maskKind p.maskMethod).isSome = true) (x y : Nat)
    (hx : x < p.surfW.toNat) (hy : y < p.surfH.toNat) : p.maskAddr x y + 4 ≤ addressSpace := by
  have h := (hs.range ((maskKind_isSome_iff _).1 hk)).inSpace
  obtain ⟨k, hk⟩ : ∃ k, p.surfH.toNat = k + 1 := ⟨p.surfH.toNat - 1, by omega⟩
  have hm : y * p.surfStride.toNat ≤ k * p.surfStride.toNat := Nat.mul_le_mul_right _ (by omega)
  rw [hk, Nat.add_sub_cancel] at h
  unfold Params.maskAddr addressSpace
  omega

theorem imgAddr_inSpace (pl : Platform) (p : Params) (hs : ImageUsable pl p) (sx sy : Nat)
    (hx : sx < p.imgW.toNat) (hy : sy < p.imgH.toNat) : p.imgAddr sx sy + 4 ≤ addressSpace := by
  have h := hs.range.inSpace
  obtain ⟨k, hk⟩ : ∃ k, p.imgH.toNat = k + 1 := ⟨p.imgH.toNat - 1, by omega⟩
  have hm : sy * p.imgStride.toNat ≤ k * p.imgStride.toNat := Nat.mul_le_mul_right _ (by omega)
  rw [hk, Nat.add_sub_cancel] at h
  unfold Params.imgAddr addressSpace
  omega

end Sys2Proof.Machine
end

