-- ==== Sys2Proof/Laws/Pixels.lean ====
section
/-! SUPPORT. When the pixel functions give a value (42_fill.md R178, 43_image.md R216). -/

namespace Sys2Proof.Machine

/-- The mask factor of a pixel, where a mask is bound (40_color_algebra.md R131). -/
theorem maskFactorAt_ok (p : Params) (m : Memory) (x y : Nat) (k : MaskKind)
    (hk : maskKind p.maskMethod = some k) (ha : p.maskAddr x y + 4 ≤ addressSpace) :
    maskFactorAt p m x y = .ok (mfac k (wordAt m (p.maskAddr x y))) := by
  unfold maskFactorAt readWord
  rw [hk]; dsimp only; rw [if_pos ha]; rfl

/-- An image word inside the image. -/
theorem readImagePixel_ok (p : Params) (m : Memory) (sx sy : Int)
    (h : 0 ≤ sx ∧ sx < p.imgW.toNat ∧ 0 ≤ sy ∧ sy < p.imgH.toNat)
    (ha : p.imgAddr sx.toNat sy.toNat + 4 ≤ addressSpace) :
    readImagePixel p m sx sy = .ok (wordAt m (p.imgAddr sx.toNat sy.toNat)) := by
  unfold readImagePixel readWord
  rw [if_pos h, if_pos ha]

theorem fillPixel_opaque (s : State) (x y : Nat) (cov : Byte) (h : s.fpath = .opaqueFill)
    (ha : s.p.params.dstAddr x y + 4 ≤ addressSpace) :
    fillPixel s x y cov = .ok (some (if cov = 255 then s.c
      else srcover (alphaMul s.c cov) (wordAt s.mem (s.p.params.dstAddr x y)))) := by
  unfold fillPixel fillSource readWord
  simp only [h, if_pos ha]
  split <;> rfl

theorem fillPixel_translucent (s : State) (x y : Nat) (cov : Byte) (h : s.fpath = .translucentFill)
    (ha : s.p.params.dstAddr x y + 4 ≤ addressSpace) :
    fillPixel s x y cov =
      .ok (some (srcover (fillSource s.c cov) (wordAt s.mem (s.p.params.dstAddr x y)))) := by
  unfold fillPixel readWord
  simp only [h]
  rw [if_pos ha]; rfl

theorem fillPixel_masked (s : State) (x y : Nat) (cov : Byte) (k : MaskKind) (h : s.fpath = .maskedFill)
    (hk : maskKind s.p.params.maskMethod = some k)
    (hm : s.p.params.maskAddr x y + 4 ≤ addressSpace)
    (ha : s.p.params.dstAddr x y + 4 ≤ addressSpace) :
    fillPixel s x y cov = .ok (some (srcover
      (masked (fillSource s.c cov) k (wordAt s.mem (s.p.params.maskAddr x y)))
      (wordAt s.mem (s.p.params.dstAddr x y)))) := by
  unfold fillPixel
  simp only [h]
  rw [maskFactorAt_ok _ _ _ _ _ hk hm]
  unfold readWord
  rw [if_pos ha]; rfl

theorem imagePixel_skip (s : State) (k : Byte) (x y : Nat) (h : sourceCoord s x y = none) :
    imagePixelWeighted s k x y = .ok none := by
  unfold imagePixelWeighted; rw [h]

theorem imagePixel_unmasked (s : State) (k : Byte) (x y : Nat) (sx sy : Int)
    (h : sourceCoord s x y = some (sx, sy)) (hm : s.maskOn = false)
    (hin : 0 ≤ sx ∧ sx < s.p.params.imgW.toNat ∧ 0 ≤ sy ∧ sy < s.p.params.imgH.toNat)
    (hi : s.p.params.imgAddr sx.toNat sy.toNat + 4 ≤ addressSpace)
    (ha : s.p.params.dstAddr x y + 4 ≤ addressSpace) :
    imagePixelWeighted s k x y = .ok (some (srcover
      (alphaMul (wordAt s.mem (s.p.params.imgAddr sx.toNat sy.toNat)) k)
      (wordAt s.mem (s.p.params.dstAddr x y)))) := by
  unfold imagePixelWeighted
  rw [h]; dsimp only
  rw [readImagePixel_ok _ _ _ _ hin hi]
  unfold readWord
  simp only [hm, if_pos ha]; rfl

theorem imagePixel_masked (s : State) (k : Byte) (x y : Nat) (sx sy : Int) (mk : MaskKind)
    (h : sourceCoord s x y = some (sx, sy)) (hm : s.maskOn = true)
    (hk : maskKind s.p.params.maskMethod = some mk)
    (hin : 0 ≤ sx ∧ sx < s.p.params.imgW.toNat ∧ 0 ≤ sy ∧ sy < s.p.params.imgH.toNat)
    (hi : s.p.params.imgAddr sx.toNat sy.toNat + 4 ≤ addressSpace)
    (hma : s.p.params.maskAddr x y + 4 ≤ addressSpace)
    (ha : s.p.params.dstAddr x y + 4 ≤ addressSpace) :
    imagePixelWeighted s k x y = .ok (some (srcover
      (masked (alphaMul (wordAt s.mem (s.p.params.imgAddr sx.toNat sy.toNat)) k) mk
        (wordAt s.mem (s.p.params.maskAddr x y)))
      (wordAt s.mem (s.p.params.dstAddr x y)))) := by
  unfold imagePixelWeighted
  rw [h]; dsimp only
  rw [readImagePixel_ok _ _ _ _ hin hi, maskFactorAt_ok _ _ _ _ _ hk hma]
  unfold readWord
  simp only [hm, if_pos ha]; rfl

/-- `FPATH` is MASKED exactly when a mask is bound (42_fill.md R170). -/
theorem fillPath_masked_iff (p : Params) :
    fillPath p = .maskedFill ↔ (maskKind p.maskMethod).isSome = true := by
  unfold fillPath
  by_cases h0 : p.maskMethod = 0
  · have hk : (maskKind p.maskMethod).isSome = false := by rw [h0]; rfl
    rw [hk]
    cases translucent p <;> simp
  · have ht : translucent p = true := by
      unfold translucent; rw [Bool.or_eq_true]; exact .inr (by simpa using h0)
    rw [ht]
    cases (maskKind p.maskMethod).isSome <;> simp

/-- In a good walk every pixel function of the running command gives a value or a skip, on every pixel of
every run. -/
theorem fillPixel_total (s : State) (hs : SurfaceUsable s.platform s.p.params)
    (hm : MaskUsable s.platform s.p.params) (hf : s.fpath = fillPath s.p.params) (x y : Nat) (cov : Byte)
    (hx : x < s.p.params.surfW.toNat) (hy : y < s.p.params.surfH.toNat) :
    ∃ v, fillPixel s x y cov = .ok (some v) := by
  have ha := dstAddr_inSpace _ _ hs x y hx hy
  cases hp : s.fpath with
  | opaqueFill => exact ⟨_, fillPixel_opaque s x y cov hp ha⟩
  | translucentFill => exact ⟨_, fillPixel_translucent s x y cov hp ha⟩
  | maskedFill =>
    have hk := (fillPath_masked_iff _).1 (hf ▸ hp)
    obtain ⟨k, hk'⟩ := Option.isSome_iff_exists.1 hk
    exact ⟨_, fillPixel_masked s x y cov k hp hk' (maskAddr_inSpace _ _ hm hk x y hx hy) ha⟩

theorem imagePixel_total (s : State) (hs : SurfaceUsable s.platform s.p.params)
    (hm : MaskUsable s.platform s.p.params) (hi : ImageUsable s.platform s.p.params)
    (hon : s.maskOn = (maskKind s.p.params.maskMethod).isSome) (k : Byte) (x y : Nat)
    (hx : x < s.p.params.surfW.toNat) (hy : y < s.p.params.surfH.toNat)
    (hsrc : ∀ sx sy, sourceCoord s x y = some (sx, sy) →
      0 ≤ sx ∧ sx < s.p.params.imgW.toNat ∧ 0 ≤ sy ∧ sy < s.p.params.imgH.toNat) :
    ∃ v, imagePixelWeighted s k x y = .ok v := by
  have ha := dstAddr_inSpace _ _ hs x y hx hy
  cases hc : sourceCoord s x y with
  | none => exact ⟨_, imagePixel_skip s k x y hc⟩
  | some c =>
    obtain ⟨sx, sy⟩ := c
    have hin := hsrc sx sy hc
    have hia := imgAddr_inSpace _ _ hi sx.toNat sy.toNat (by omega) (by omega)
    cases hmk : maskKind s.p.params.maskMethod with
    | none =>
      rw [hmk] at hon
      exact ⟨_, imagePixel_unmasked s k x y sx sy hc hon hin hia ha⟩
    | some mk =>
      have hk : (maskKind s.p.params.maskMethod).isSome = true := by rw [hmk]; rfl
      rw [hmk] at hon
      exact ⟨_, imagePixel_masked s k x y sx sy mk hc hon hmk hin hia
        (maskAddr_inSpace _ _ hm hk x y hx hy) ha⟩

/-- The source pixel of a pixel of a run inside the image lies in the image, on either path
(43_image.md R209, R213). -/
theorem sourceCoord_inImage (s : State) (r : Run) (j : Nat) (hj : j < r.len)
    (hd : s.ipath = .direct → RunInImage s.p.params r) (sx sy : Int)
    (h : sourceCoord s (r.x0 + j) r.y = some (sx, sy)) :
    0 ≤ sx ∧ sx < s.p.params.imgW.toNat ∧ 0 ≤ sy ∧ sy < s.p.params.imgH.toNat := by
  unfold sourceCoord at h
  cases hp : s.ipath with
  | direct =>
    rw [hp] at h
    obtain ⟨h1, h2, h3, h4⟩ := hd hp
    unfold directCoord at h
    simp only [Option.some.injEq, Prod.mk.injEq] at h
    obtain ⟨rfl, rfl⟩ := h
    push_cast
    refine ⟨by omega, by omega, h3, h4⟩
  | resample => rw [hp] at h; exact resampleCoord_inImage _ _ _ _ _ _ h

end Sys2Proof.Machine
end

