-- ==== Sys2Proof/Laws/Ops.lean ====
section
/-! SUPPORT. What each shared operation of a command's step answers, in the vocabulary of Safety.lean: one
lemma an operation and case, for proofs to cite instead of unfolding it. -/

namespace Sys2Proof.Machine

/-- One engine step in phase VALIDATE (42_fill.md R160). -/
theorem drawStep_validate (i v px s) (h : s.ph = .validate) : drawStep i v px s =
    (match v s with | .error e => haltOutcome s e | .ok t => startWalk i t) := by
  cases hv : v s <;> simp only [drawStep, h, hv]

/-- Two ranges share a byte when some address lies in both. -/
theorem shares_iff (r t : ByteRange) : r.shares t = true ↔ ∃ a, r.has a = true ∧ t.has a = true := by
  simp only [ByteRange.shares, ByteRange.has, Bool.and_eq_true, decide_eq_true_eq]
  constructor
  · rintro ⟨⟨⟨h1, h2⟩, h3⟩, h4⟩
    exact ⟨max r.base t.base, by omega, by omega⟩
  · rintro ⟨a, h1, h2⟩; omega

/-- The overlap test of a drawing command is the condition of 20_memory.md R92. -/
theorem overlaps_iff (i : Instr) (p : Params) (hd : draws i = true) : overlaps i p = true ↔ ¬ BuffersApart i
    p := by
  unfold overlaps BuffersApart SourceByte sourceRanges destRanges
  rw [← maskKind_isSome_iff]
  simp only [hd, if_true, List.any_cons, List.any_nil, Bool.or_false, List.any_append]
  simp only [Bool.or_eq_true, not_forall, not_not, exists_prop]
  have key : ∀ (b : Bool) (r : ByteRange), ((if b = true then [r] else []).any fun r => p.surfRange.shares r)
      = true ↔ ∃ a, p.surfRange.has a = true ∧ b = true ∧ r.has a = true := by
    intro b r; cases b <;> simp [shares_iff]
  rw [key, key, key]
  constructor
  · rintro ((⟨a, h1, h2⟩ | ⟨a, h1, h2⟩) | ⟨a, h1, h2⟩)
    · rw [Bool.and_eq_true] at h2; exact ⟨a, h1, .inl ⟨h2.1.1, h2.1.2, h2.2⟩⟩
    · exact ⟨a, h1, .inr (.inl h2)⟩
    · exact ⟨a, h1, .inr (.inr h2)⟩
  · rintro ⟨a, h1, h2 | h2 | h2⟩
    · exact .inl (.inl ⟨a, h1, by rw [Bool.and_eq_true]; exact ⟨⟨h2.1, h2.2.1⟩, h2.2.2⟩⟩)
    · exact .inl (.inr ⟨a, h1, h2⟩)
    · exact .inr ⟨a, h1, h2⟩

/-- The walk begins when there is a run and the buffers are apart (42_fill.md R160). -/
theorem startWalk_walk (i : Instr) (s : State) (rs : List Run) (hrs : s.runs = rs) (pp : Params)
    (hpp : s.p.params = pp) (hd : draws i = true) (hr : rs ≠ []) (h : BuffersApart i pp) : startWalk i s =
        .next (walkingState s) := by
  subst hrs; subst hpp
  rcases startWalk_cases i s with ⟨h1, _⟩ | ⟨_, h1, _⟩ | ⟨_, _, e⟩
  · exact absurd h1 hr
  · exact absurd h ((overlaps_iff i _ hd).1 h1)
  · exact e

/-- A command with no run completes with success at once (42_fill.md R165). -/
theorem startWalk_empty (i : Instr) (s : State) (hr : s.runs = []) : startWalk i s = .next
    (emptyWalkState s) := by
  rcases startWalk_cases i s with ⟨h1, e⟩ | ⟨h1, _, _⟩ | ⟨h1, _, _⟩
  · exact e
  · exact absurd hr h1
  · exact absurd hr h1

/-- A command about to walk over overlapping buffers is refused (20_memory.md R92). -/
theorem startWalk_refused (i : Instr) (s : State) (hd : draws i = true) (hr : s.runs ≠ [])
    (h : ¬ BuffersApart i s.p.params) : startWalk i s = .refused .overlappingBuffers := by
  rcases startWalk_cases i s with ⟨h1, _⟩ | ⟨_, h1, e⟩ | ⟨_, h1, e⟩
  · exact absurd h1 hr
  · exact e
  · exact absurd ((overlaps_iff i _ hd).2 h) (by simp [h1])

/-- The opening checks of a FILL or IMAGE command pass when the state is checkDraw_of_ready for it. -/
theorem checkDraw_of_ready (s : State) (h : DrawReady s) : checkDraw s = .ok () := (checkDraw_ok_iff s).2
    ⟨h.blender, h.surface, h.mask⟩

/-- After a check that passed. -/
theorem Except.ok_bind {ε α β} (a : α) (f : α → Except ε β) : (Except.ok a >>= f) = f a := rfl

/-- After a check that stopped. -/
theorem Except.error_bind {ε α β} (a : ε) (f : α → Except ε β) : (Except.error a >>= f) = .error a := rfl

/-- The runs of a non-empty region (42_fill.md R161). -/
theorem regionRuns_eq (p : Params) (h : ¬ RegionEmpty p) : regionRuns p = rowRuns p := by
  unfold regionRuns rectRuns rowRuns; unfold RegionEmpty at h; rw [if_neg h]

/-- The runs of an empty region (42_fill.md R165). -/
theorem regionRuns_of_empty (p : Params) (h : RegionEmpty p) : regionRuns p = [] := by
  unfold regionRuns rectRuns; unfold RegionEmpty at h; rw [if_pos h]

/-- A non-empty region has a row. -/
theorem rowRuns_ne_nil (p : Params) (h : ¬ RegionEmpty p) : rowRuns p ≠ [] := by
  unfold rowRuns RegionEmpty at *
  simp only [not_or, not_le] at h
  intro he; rw [List.map_eq_nil_iff, List.range_eq_nil] at he; omega

/-- The region test is the condition of 42_fill.md R167. -/
theorem emptyRegion_eq (p : Params) : emptyRegion p = true ↔ RegionEmpty p := emptyRegion_iff p

/-- The translucency multiplexer in one expression (42_fill.md R170). -/
theorem fillPath_eq (p : Params) : fillPath p = (if byteOf p.colorIn 3 = 255 ∧ p.maskMethod = 0 then
    FillPath.opaqueFill
      else if p.maskMethod = 2 ∨ p.maskMethod = 3 then .maskedFill else .translucentFill) := by
  unfold fillPath translucent Params.colorA
  have ha : (byteOf p.colorIn 3 < 255) ↔ byteOf p.colorIn 3 ≠ 255 := by
    rw [BitVec.lt_def]; constructor
    · intro h he; rw [he] at h; exact absurd h (by decide)
    · intro h; have := (byteOf p.colorIn 3).isLt
      rcases Nat.lt_or_ge (byteOf p.colorIn 3).toNat 255 with h1 | h1
      · exact h1
      · exact absurd (BitVec.eq_of_toNat_eq (show _ = (255:Byte).toNat by show _ = 255; omega)) h
  have hk := maskKind_isSome_iff p.maskMethod
  by_cases h1 : byteOf p.colorIn 3 = 255
  · by_cases h2 : p.maskMethod = 0
    · simp [h1, h2]
    · have e1 : (decide (byteOf p.colorIn 3 < 255) || p.maskMethod != 0) = true := by simp [h1]; exact h2
      simp only [e1, Bool.not_true, Bool.false_eq_true, if_false, hk, h2, and_false]
  · have e1 : (decide (byteOf p.colorIn 3 < 255) || p.maskMethod != 0) = true := by
      rw [decide_eq_true (ha.2 h1)]; rfl
    simp only [e1, Bool.not_true, Bool.false_eq_true, if_false, hk, h1, false_and]

/-- When the destination bounds check of a rectangle passes (42_fill.md R168). -/
theorem checkRectBounds_of (p : Params) (h : RegionEmpty p ∨
    (p.maxX ≤ p.surfW.toNat ∧ p.maxY ≤ p.surfH.toNat)) : checkRectBounds p = .ok () :=
        (checkRectBounds_ok_iff p).2 (by rw [emptyRegion_eq]; exact h)

/-- The records of a usable span list lie in the space. -/
theorem spanAddr_le (s : State) (h : SpansUsable s.platform s.p.params) : s.p.params.spanAddr
    s.p.params.rleCount.toNat ≤ addressSpace ∨ s.p.params.rleCount = 0 := by
  by_cases h0 : s.p.params.rleCount = 0
  · exact .inr h0
  · left; have := (h.range h0).inSpace; unfold Params.spanAddr addressSpace; omega

/-- A record in the space reads as the span memory holds (20_memory.md R78). -/
theorem readSpan_eq (p : Params) (m : Memory) (i : Nat) (h : p.spanAddr i + 8 ≤ addressSpace) : readSpan p m i
    = .ok (spanOf p m i) := by
  rw [readSpan_ok p m i h]
  unfold spanOf Params.spanAddr
  dsimp only
  have hb := (wordAt m (p.rleBase.toNat + 8 * i)).isLt
  have e1 : ∀ v : Word, lowHalf v = v.toNat % 2^16 := fun v => by simp [lowHalf]
  have e2 : ∀ v : Word, highHalf v = v.toNat / 2^16 := fun v => by
    have := v.isLt
    simp only [highHalf, BitVec.extractLsb'_toNat, Nat.shiftRight_eq_div_pow]; omega
  have e3 : ∀ v : Word, byteOf v 2 = BitVec.ofNat 8 (v.toNat / 2^16) := fun v => by
    apply BitVec.eq_of_toNat_eq; simp [byteOf, Nat.shiftRight_eq_div_pow]
  rw [e1, e2, e1, e3]

/-- The span bounds condition of 42_fill.md R168. -/
theorem spanInSurface_iff (p : Params) (m : Memory) (i : Nat) (h : (spanOf p m i).len ≠ 0) : spanInSurface p
    (spanOf p m i) = true ↔ SpanInSurface p m i := by
  unfold spanInSurface SpanInSurface
  simp only [Bool.and_eq_true, decide_eq_true_eq]
  have : 0 < (spanOf p m i).len := by omega
  simp [this]

/-- The span source bounds condition of 43_image.md R211. -/
theorem spanInImage_iff (p : Params) (m : Memory) (i : Nat) (h : (spanOf p m i).len ≠ 0) : spanInImage p
    (spanOf p m i) = true ↔ SpanInImage p m i := by
  unfold spanInImage SpanInImage RunInImage Span.run
  simp only [Bool.and_eq_true, decide_eq_true_eq, and_assoc]
  have : 0 < (spanOf p m i).len := by omega
  simp [this]

/-- The runs of `n` records from record `i` (42_fill.md R161). -/
def runsFrom (p : Params) (m : Memory) (i n : Nat) : List Run :=
    (((List.range' i n).map (spanOf p m)).filter fun sp => decide (0 < sp.len)).map Span.run

/-- The runs of records that all pass their checks (42_fill.md R161, R162). -/
theorem spanRuns_eq (p : Params) (m : Memory) (direct : Bool) (n i : Nat)
    (hr : p.spanAddr (i+n) ≤ addressSpace)
   (h1 : ∀ j, i ≤ j → j < i + n → SpanInSurface p m j)
       (h2 : direct = true → ∀ j, i ≤ j → j < i + n → SpanInImage p m j) :
   spanRuns p m direct i n = .ok (runsFrom p m i n) := by
  induction n generalizing i with
  | zero => rfl
  | succ n ih =>
    have hstep : p.spanAddr i + 8 ≤ addressSpace := by unfold Params.spanAddr at hr ⊢; omega
    have ih' := ih (i+1) (by rwa [show i + 1 + n = i + (n + 1) by omega])
        (fun j a b => h1 j (by omega) (by omega)) (fun hd j a b => h2 hd j (by omega) (by omega))
    unfold spanRuns; rw [readSpan_eq _ _ _ hstep]; dsimp only
    have hrf : runsFrom p m i (n+1) = if (spanOf p m i).len = 0 then runsFrom p m (i+1) n else
        (spanOf p m i).run :: runsFrom p m (i+1) n := by
      unfold runsFrom; rw [List.range'_succ, List.map_cons]
      by_cases h0 : (spanOf p m i).len = 0
      · rw [List.filter_cons_of_neg (by simp [h0]), if_pos h0]
      · rw [List.filter_cons_of_pos (by simp; omega), if_neg h0]; rfl
    rw [hrf]
    by_cases h0 : (spanOf p m i).len = 0
    · rw [if_pos h0, if_pos h0]; exact ih'
    · rw [if_neg h0, if_neg h0]
      have a1 := (spanInSurface_iff p m i h0).2 (h1 i (by omega) (by omega))
      rw [a1]
      have a2 : (direct && !spanInImage p (spanOf p m i)) = false := by
        cases hd : direct
        · rfl
        · rw [(spanInImage_iff p m i h0).2 (h2 hd i (by omega) (by omega))]; rfl
      rw [a2, ih']; rfl

/-- The runs of a list whose spans all pass their checks (42_fill.md R161, R162). -/
theorem spanListRuns_eq (s : State) (direct : Bool) (hu : SpansUsable s.platform s.p.params)
   (h1 : ∀ j < s.p.params.rleCount.toNat, SpanInSurface s.p.params s.mem j)
       (h2 : direct = true → ∀ j < s.p.params.rleCount.toNat, SpanInImage s.p.params s.mem j) :
   spanListRuns s.p.params s.mem direct = .ok (listedRuns s.p.params s.mem) := by
  have : listedRuns s.p.params s.mem = runsFrom s.p.params s.mem 0 s.p.params.rleCount.toNat := by
    unfold listedRuns runsFrom; rw [List.range_eq_range']
  rw [this]; unfold spanListRuns
  rcases spanAddr_le s hu with h | h
  · exact spanRuns_eq _ _ _ _ _ (by simpa using h) (fun j _ hj => h1 j (by omega))
        (fun hd j _ hj => h2 hd j (by omega))
  · rw [h]; rfl

/-- The direct path (43_image.md R204). -/
theorem transform_direct (mat : Bool) (p : Params) (h : TakesDirect mat p) : transform mat p = .ok none := by
  unfold transform; rw [if_pos (by rcases h with h | h <;> simp [h])]

/-- The resample path with its inverse (43_image.md R204, R207). -/
theorem transform_resample (mat : Bool) (p : Params) (h : TakesResample mat p) : transform mat p = .ok
    (some (inverseRows p.matrix (determinant p.matrix))) := by
  obtain ⟨h1, h2, h3⟩ := h
  unfold transform; rw [if_neg (by simp [h1, h2])]
  dsimp only; unfold isSingular Config.fltEps; rw [h3]; rfl

/-- When the source bounds check of a rectangle passes (43_image.md R210). -/
theorem checkRectSource_of (p : Params) (h : RegionEmpty p ∨ (p.originX + (p.maxX - p.minX) ≤ p.imgW.toNat ∧
      p.originY + (p.maxY - p.minY) ≤ p.imgH.toNat)) : checkRectSource p = .ok () :=
          (checkRectSource_ok_iff p).2 (by rw [emptyRegion_eq]; exact h)

/-- MASKON as a condition on the method (43_image.md R208). -/
theorem maskKind_isSome_eq (mm : BitVec 2) : (maskKind mm).isSome = decide (mm = 2 ∨ mm = 3) := by
  rw [Bool.eq_iff_iff, maskKind_isSome_iff]; simp

/-- Addresses along a row (20_memory.md R74). -/
theorem dstAddr_add (p : Params) (x y n : Nat) : p.dstAddr (x + n) y = p.dstAddr x y + 4 * n :=
    by unfold Params.dstAddr; ring

/-- Storing a group: the words stored and the bytes kept (42_fill.md R164, R166). -/
theorem storeLanes_group (p : Params) (y : Nat) (n x : Nat) (val : Nat → Option Word)
    (vs : List (Nat × Option Word)) (m : Memory)
   (hvs : vs = (List.range n).map fun j => (x + j, val j)) (hm : Memory.wf m)
       (hin : ∀ j < n, p.dstAddr (x + j) y + 4 ≤ addressSpace) :
   ∃ m', storeLanes p y m vs = .ok m' ∧ GroupStored p y x n val m m' := by
  induction n generalizing x vs m val with
  | zero => subst hvs; exact ⟨m, rfl, hm, by simp, fun a _ => rfl⟩
  | succ n ih =>
    have hvs' : vs = (x, val 0) :: (List.range n).map fun j => (x + 1 + j, val (j+1)) := by
      rw [hvs, List.range_succ_eq_map]; simp [Function.comp_def, Nat.add_assoc, Nat.add_comm 1]
    have hin' : ∀ j < n, p.dstAddr (x + 1 + j) y + 4 ≤ addressSpace := fun j hj =>
        by rw [show x + 1 + j = x + (j+1) by omega]; exact hin _ (by omega)
    cases h0 : val 0 with
    | none =>
      obtain ⟨m', h1, h2, h3, h4⟩ := ih (x+1) (fun j => val (j+1)) _ m rfl hm hin'
      refine ⟨m', by rw [hvs', h0]; exact h1, h2, fun j hj v hv => ?_, fun a ha => ?_⟩
      · cases j with
        | zero => rw [h0] at hv; cases hv
        | succ j => rw [show x + (j+1) = x + 1 + j by omega]; exact h3 j (by omega) v hv
      · exact h4 a fun j hj hs => by rw [show x + 1 + j = x + (j+1) by omega]; exact ha (j+1) (by omega) hs
    | some v0 =>
      have hb : p.dstAddr x y + 4 ≤ addressSpace := by simpa using hin 0 (by omega)
      have hw := wf_storeWord m (p.dstAddr x y) v0 hb hm
      obtain ⟨m', h1, h2, h3, h4⟩ := ih (x+1) (fun j => val (j+1)) _ (storeWord m (p.dstAddr x y) v0) rfl hw
          hin'
      have hd : ∀ j, p.dstAddr (x+1+j) y = p.dstAddr x y + 4 * (1 + j) := fun j =>
          by rw [Nat.add_assoc, dstAddr_add]
      refine ⟨m', ?_, h2, fun j hj v hv => ?_, fun a ha => ?_⟩
      · rw [hvs', h0, storeLanes]; unfold writeWord; rw [if_pos hb]; exact h1
      · cases j with
        | zero =>
          rw [h0] at hv; obtain rfl : v0 = v := by simpa using hv
          have hk : ∀ i < 4, readByte m' (p.dstAddr x y + i) = readByte (storeWord m (p.dstAddr x y) v0)
              (p.dstAddr x y + i) := fun i hi => h4 _ fun j hj _ => by rw [hd]; omega
          rw [Nat.add_zero]
          have e : wordAt m' (p.dstAddr x y) = wordAt (storeWord m (p.dstAddr x y) v0) (p.dstAddr x y) := by
            have k0 := hk 0 (by omega)
            rw [Nat.add_zero] at k0
            unfold wordAt; rw [hk 3 (by omega), hk 2 (by omega), hk 1 (by omega), k0]
          rw [e, wordAt_storeWord_self _ _ _ hm]
        | succ j => rw [show x + (j+1) = x + 1 + j by omega]; exact h3 j (by omega) v hv
      · rw [h4 a fun j hj hs => by rw [show x + 1 + j = x + (j+1) by omega]; exact ha (j+1) (by omega) hs]
        have := ha 0 (by omega) (by rw [h0]; rfl)
        rw [Nat.add_zero] at this
        rw [readByte_storeWord _ _ _ _ hm]
        split_ifs <;> first | rfl | omega

/-- The values of a group whose pixel function answers on each lane. -/
theorem laneValues_eq (px : PixelFn) (y : Nat) (cov : Byte) (n x : Nat) (val : Nat → Option Word)
    (h : ∀ j < n, px (x + j) y cov = .ok (val j)) :
   laneValues px y cov x n = .ok ((List.range n).map fun j => (x + j, val j)) := by
  induction n generalizing x val with
  | zero => rfl
  | succ n ih =>
    rw [laneValues, ih (x+1) (fun j => val (j+1))
        (fun j hj => by rw [show x + 1 + j = x + (j+1) by omega]; exact h _ (by omega))]
    have := h 0 (by omega)
    rw [Nat.add_zero] at this
    rw [this, List.range_succ_eq_map]
    simp [Function.comp_def, Nat.add_assoc, Nat.add_comm 1]; rfl

/-- The group size is `n` of 42_fill.md R164. -/
theorem groupSize_eq_groupAt (s : State) (r : Run) : groupSize s.p.simdEn (r.len - s.off) = groupAt s r := by
  unfold groupSize groupAt; simp

/-- The cursor after a group (42_fill.md R164). -/
theorem advance_eq (s : State) (r : Run) (n : Nat) (m : Memory) (hcur : s.runs[s.ri]? = some r)
    (hn : n ≤ r.len - s.off) (ho : s.off < r.len) : advance n r.len { s with mem := m } = afterGroup s r n
        m := by
  have hri : s.ri < s.runs.length := by
    rcases Nat.lt_or_ge s.ri s.runs.length with h | h
    · exact h
    · rw [List.getElem?_eq_none h] at hcur; cases hcur
  unfold afterGroup
  rcases advance_cases n r.len { s with mem := m } with ⟨h, hl, e⟩ | ⟨h, hl, e⟩ | ⟨h, hl, e⟩ | ⟨h, hl, e⟩ <;>
      rw [e] <;> dsimp only at h hl ⊢
  · rw [if_pos (by omega)]
  · rw [if_neg (by omega), if_pos (by omega)]
  · rw [if_neg (by omega), if_neg (by omega)]; rfl
  · omega

/-- A group stays in its run. -/
theorem groupAt_le (s : State) (r : Run) (h : s.off < r.len) : groupAt s r ≤ r.len - s.off := by
  rw [← groupSize_eq_groupAt]; exact groupSize_le _ _ (by omega)

/-- A walk step whose pixel function answers on each lane of its group (42_fill.md R164). -/
theorem walkStep_eq (s : State) (r : Run) (px : PixelFn) (hc : CursorOn s r) (val : Nat → Option Word)
    (h : ∀ j < groupAt s r, px (r.x0 + s.off + j) r.y r.cov = .ok (val j)) :
    ∃ m, walkStep px s = .next (afterGroup s r (groupAt s r) m) ∧ GroupStored s.p.params r.y (r.x0 + s.off)
        (groupAt s r) val s.mem m := by
  have hle := groupAt_le s r hc.inRun
  obtain ⟨hl, hx, hy⟩ := hc.inSurface
  obtain ⟨m, h1, h2⟩ := storeLanes_group s.p.params r.y (groupAt s r) (r.x0 + s.off) val _ s.mem rfl hc.memory
      (fun j hj => dstAddr_inSpace _ _ hc.surface _ _ (by omega) hy)
  refine ⟨m, ?_, h2⟩
  unfold walkStep
  rw [hc.current]; dsimp only
  rw [if_neg (by have := hc.inRun; omega), groupSize_eq_groupAt, laneValues_eq _ _ _ _ _ val h]
  dsimp only
  rw [h1]; dsimp only
  rw [advance_eq s r _ m hc.current hle hc.inRun]

/-- One engine step in phase WALK (42_fill.md R160). -/
theorem drawStep_walk (i v px s) (h : s.ph = .walk) : drawStep i v px s = walkStep (px s) s :=
    by unfold drawStep; rw [h]

/-- A bound mask modulates the source (40_color_algebra.md R132). -/
theorem masked_eq_maskModulated (p : Params) (m : Memory) (x y : Nat) (src : Word) (k : MaskKind)
    (hk : maskKind p.maskMethod = some k) : masked src k (wordAt m (p.maskAddr x y)) = maskModulated p m x y
        src := by
  unfold maskKind at hk; unfold maskModulated masked
  split at hk
  · cases hk; rename_i h; rw [if_pos h]; rfl
  · rename_i h; split at hk <;> cases hk
    rename_i h2; rw [if_neg h, if_pos h2]; rfl

/-- Without a mask the source stays. -/
theorem maskModulated_of_unmasked (p : Params) (m : Memory) (x y : Nat) (src : Word)
    (h : ¬ (p.maskMethod = 2 ∨ p.maskMethod = 3)) : maskModulated p m x y src = src := by
  unfold maskModulated; rw [if_neg (by tauto), if_neg (by tauto)]

/-- The image pixel function on a pixel with a source (43_image.md R216). -/
theorem imagePixel_eq (s : State) (k : Byte) (x y : Nat) (sx sy : Int) (h : sourceCoord s x y = some (sx, sy))
    (hs : SurfaceUsable s.platform s.p.params) (hm : MaskUsable s.platform s.p.params)
        (hi : ImageUsable s.platform s.p.params)
    (hon : s.maskOn = true ↔ s.p.params.maskMethod = 2 ∨ s.p.params.maskMethod = 3)
    (hx : x < s.p.params.surfW.toNat) (hy : y < s.p.params.surfH.toNat)
    (hin : 0 ≤ sx ∧ sx < s.p.params.imgW.toNat ∧ 0 ≤ sy ∧ sy < s.p.params.imgH.toNat) :
    imagePixelWeighted s k x y = .ok (some (imageResult s.p.params s.mem k sx.toNat sy.toNat x y)) := by
  have ha := dstAddr_inSpace _ _ hs _ _ hx hy
  have hia := imgAddr_inSpace _ _ hi sx.toNat sy.toNat (by omega) (by omega)
  by_cases hmm : s.p.params.maskMethod = 2 ∨ s.p.params.maskMethod = 3
  · have hk := (maskKind_isSome_iff _).2 hmm
    obtain ⟨mk, hk'⟩ := Option.isSome_iff_exists.1 hk
    rw [imagePixel_masked s k x y sx sy mk h (hon.2 hmm) hk' hin hia (maskAddr_inSpace _ _ hm hk _ _ hx hy)
        ha, masked_eq_maskModulated _ _ _ _ _ _ hk']; rfl
  · have : s.maskOn = false := by rw [← Bool.not_eq_true, hon]; exact hmm
    rw [imagePixel_unmasked s k x y sx sy h this hin hia ha]; unfold imageResult; rw
        [maskModulated_of_unmasked _ _ _ _ _ hmm]

end Sys2Proof.Machine
end

