-- ==== Sys2Proof/Laws/PerInstr.lean ====
section
/-! SUPPORT. Statements made for every instruction, one lemma per constructor of `Instr`. They are about the
instruction as syntax: its fields and its word (30_encoding.md R100, R102). -/

namespace Sys2Proof.Laws.WordHasFields

/-- The word of the instruction holds its fields, and the command table's word of 32 bits is its word. -/
def Statement (i : Instr) : Prop :=
  cmdFields (encode i) = i.fields ∧ decodeTableWord 32 (encode i).toNat = some i

theorem nop : Statement .nop := ⟨by decide, by decide⟩

theorem setup : Statement .setup := ⟨by decide, by decide⟩

theorem clear : Statement .clear := ⟨by decide, by decide⟩

theorem fillRect : Statement .fillRect := ⟨by decide, by decide⟩

theorem fillRle : Statement .fillRle := ⟨by decide, by decide⟩

theorem imageRect (mat : Bool) : Statement (.imageRect mat) := by
  cases mat <;> exact ⟨by decide, by decide⟩

theorem imageRle (mat : Bool) : Statement (.imageRle mat) := by
  cases mat <;> exact ⟨by decide, by decide⟩

end Sys2Proof.Laws.WordHasFields
end

