-- ==== Sys2Proof/Tests/Slice0.lean ====
section
/-! SUPPORT. The model's own tests: ill-formed terms that the checks refuse, command words written out from
30_encoding.md, single steps on the values of 95_test_vectors.md, and for every statement with hypotheses
a state and operands that meet them. -/

namespace Sys2Proof.Tests
open Sys2Proof Sys2Proof.Machine

/-! ## Well-formedness refuses (30_encoding.md R100, R105; 10_state.md R21) -/

theorem test_wellFormed_refuses_unknown_op : (CmdFields.mk 0x03 false 0).legal = false := by decide

theorem test_wellFormed_refuses_reserved_bit : (CmdFields.mk 0x02 false 1).legal = false := by decide

theorem test_wellFormed_refuses_mat_on_fill : (CmdFields.mk 0x10 true 0).legal = false := by decide

theorem test_wellFormed_refuses_narrow_access : (HostStmt.busWrite 8 2 0).wellFormed 0 = false := by decide

theorem test_wellFormed_refuses_misaligned_access : (HostStmt.busRead 10 4).wellFormed 0 = false := by decide

theorem test_wellFormed_refuses_access_below_base : (HostStmt.busRead 8 4).wellFormed 12 = false := by decide

/-! ## Words written from the encoding: RSV [31:9], MAT [8], OP [7:0] (30_encoding.md R100, R110) -/

theorem test_word_nop : decode 0b00000000000000000000000_0_00000000 = .ok .nop := by decide

theorem test_word_setup : decode 0b00000000000000000000000_0_00000001 = .ok .setup := by decide

theorem test_word_clear : decode 0b00000000000000000000000_0_00000010 = .ok .clear := by decide

theorem test_word_fill_rect : decode 0b00000000000000000000000_0_00010000 = .ok .fillRect := by decide

theorem test_word_fill_rle : decode 0b00000000000000000000000_0_00010001 = .ok .fillRle := by decide

theorem test_word_image_rect : decode 0b00000000000000000000000_0_00100000 = .ok (.imageRect false) := by decide

theorem test_word_image_rect_m : decode 0b00000000000000000000000_1_00100000 = .ok (.imageRect true) := by decide

theorem test_word_image_rle : decode 0b00000000000000000000000_0_00100001 = .ok (.imageRle false) := by decide

theorem test_word_image_rle_m : decode 0b00000000000000000000000_1_00100001 = .ok (.imageRle true) := by decide

theorem test_word_mat_refused : decode 0x00000110 = .error (.matNotAllowed 0x10) := by decide

theorem test_word_reserved_refused : decode 0x00000220 = .error (.reservedBits 1) := by decide

theorem test_word_unknown_refused : decode 0x00000022 = .error (.unknownOp 0x22) := by decide

/-! ## Assembly text (30_encoding.md R109, R110, R117) -/

theorem test_assemble_write :
    assembleLine {} "wr M_E12, f(-1.0) ; P3" = some [.wr .m12 0xBF800000] := by decide

/-- The form `f(1.)`, accepted by the choice of log 23. -/
theorem test_assemble_point_without_digits :
    assembleLine {} "wr M_E11, f(1.)" = some [.wr .m11 0x3F800000] ∧
    assembleLine {} "wr M_E11, f(.5)" = none := by decide

theorem test_assemble_refuses_gradient : assembleLine {} "raster_gradient_shape" = none := by decide

/-! ## Single steps on the values of 95_test_vectors.md -/

/-- A surface of 4 by 2 pixels of stride 5, its mask, a 4 by 2 image, two span records, the identity
matrix and the region `[1, 4) x [0, 2)`, whose direct source touches the image's right edge. -/
def prm : Params :=
  { surfBase := 0x1000, surfW := 4, surfH := 2, surfStride := 5, maskBase := 0x2000,
    colorIn := 0xFF336699, bboxMin := 0x00000001, bboxMax := 0x00020004,
    rleBase := 0x4000, rleCount := 2, imgBase := 0x3000, imgW := 4, imgH := 2, imgStride := 4,
    imgOpacity := 255, imgOrigin := 0x00000001,
    m11 := 0x3F800000, m22 := 0x3F800000, m33 := 0x3F800000 }

/-- The span `(0, 1, 4, 128)`, which touches the surface's right and lower edges, and `(9, 9, 0, 0)`,
which is empty (20_memory.md R78). -/
def spanMem : Memory :=
  storeWord (storeWord (storeWord (storeWord [] 0x4000 0x00010000) 0x4004 0x00800004)
    0x4008 0x00090009) 0x400C 0x00000000

/-- A command right after its acceptance, with a blender installed. -/
def begun (cmd : Word) (p : Params) : State :=
  { State.reset with p := ⟨cmd, true, p⟩, ph := .validate, busy := true, blValid := true, mem := spanMem }

/-- A command in its walk over one run, the cursor at its start. -/
def walking (cmd : Word) (p : Params) (m : Memory) (r : Run) : State :=
  { begun cmd p with ph := .walk, runs := [r], mem := m }

/-- The outcome is a next state with the property. -/
def gives (o : Host.Outcome State Fault Refusal) (f : State → Bool) : Bool :=
  match o with
  | .next s => f s
  | .fault _ => false
  | .refused _ => false

theorem test_nop_completes :
    gives (exec .nop (begun 0 prm)) (fun t => t.done && !t.busy && t.pixcount == 0) = true := by decide

theorem test_setup_installs :
    gives (exec .setup (begun 1 { prm with surfCs := 1 })) (fun t => statusWord t == 0x00030002) = true := by
  decide

theorem test_setup_refuses_unknown_space :
    gives (exec .setup (begun 1 { prm with surfCs := 2 }))
      (fun t => statusWord t == 0x00000204 && t.errinfo == 2) = true := by decide

/-- A group of four pixels of row 0 becomes 0; the padding word keeps its value (42_fill.md R175). -/
theorem test_clear_group :
    gives (exec .clear (walking 2 prm (storeWord (storeWord [] 0x100C 0x12345678) 0x1010 0x9ABCDEF0)
        ⟨0, 0, 4, 255⟩))
      (fun t => wordAt t.mem 0x100C == 0 && wordAt t.mem 0x1010 == 0x9ABCDEF0 && t.pixcount == 4 &&
        t.done) = true := by decide

/-- Vector S2: the colour `0x80800000` over white. -/
theorem test_fill_rect_blends :
    gives (exec .fillRect { walking 0x10 prm (storeWord [] 0x1004 0xFFFFFFFF) ⟨0, 1, 1, 255⟩ with
        c := 0x80800000, fpath := .translucentFill })
      (fun t => wordAt t.mem 0x1004 == 0xFFFF7F7F && t.pixcount == 1) = true := by decide

/-- Vector S6: under an alpha mask of 0 the destination stays. -/
theorem test_fill_rect_masked :
    gives (exec .fillRect { walking 0x10 { prm with maskMethod := 2 } (storeWord [] 0x1000 0xFF000000)
        ⟨0, 0, 1, 255⟩ with c := 0xFFFF0000, fpath := .maskedFill })
      (fun t => wordAt t.mem 0x1000 == 0xFF000000) = true := by decide

/-- Vector S3: an opaque white span of coverage 128 over 0. -/
theorem test_fill_rle_edge :
    gives (exec .fillRle { walking 0x11 prm [] ⟨0, 0, 1, 128⟩ with c := 0xFFFFFFFF })
      (fun t => wordAt t.mem 0x1000 == 0x80808080) = true := by decide

/-- Vector S5: under the inverse `[0 1 -0; -1 0 1]` destination (0, 0) samples image pixel (0, 1). -/
theorem test_image_rect_rotates :
    gives (exec (.imageRect true) { walking 0x120 { prm with imgW := 2, imgStride := 2 }
        (storeWord [] 0x3008 0xFF0000FF) ⟨0, 0, 1, 255⟩ with
        ipath := .resample
        inv := ⟨f32 0, f32 0x3F800000, f32 0x80000000, f32 0xBF800000, f32 0, f32 0x3F800000⟩ })
      (fun t => wordAt t.mem 0x1000 == 0xFF0000FF) = true := by decide

/-- The matrix of vector S5 and the inverse rows validation writes. -/
theorem test_image_rect_inverts :
    gives (exec (.imageRect true) (begun 0x120 { prm with
        m11 := 0, m12 := 0xBF800000, m13 := 0x3F800000, m21 := 0x3F800000, m22 := 0 }))
      (fun t => t.invE == ⟨0, 0x3F800000, 0x80000000, 0xBF800000, 0, 0x3F800000⟩) = true := by decide

/-- The example of 43_image.md R219. -/
theorem test_image_rle_coverage :
    gives (exec (.imageRle false) (walking 0x21 { prm with bboxMin := 0, imgOrigin := 0 }
        (storeWord [] 0x3000 0xFFFFFFFF) ⟨0, 0, 1, 128⟩))
      (fun t => wordAt t.mem 0x1000 == 0x80808080) = true := by decide

/-! ## The hypotheses of the statements are met -/

/-- The surface of `prm` is usable. -/
theorem test_prm_surface : SurfaceUsable {} prm := (checkSurface_ok_iff _ _).1 rfl

/-- Without a mask method the mask needs nothing. -/
theorem test_prm_mask : MaskUsable {} prm := (checkMask_ok_iff _ _ (by decide)).1 rfl

/-- The image of `prm` is usable. -/
theorem test_prm_image : ImageUsable {} prm := (checkImage_ok_iff _ _).1 rfl

/-- The span list of `prm` is usable. -/
theorem test_prm_spans : SpansUsable {} prm := (checkRle_ok_iff _ _).1 rfl

/-- A drawing command on `prm` is ready, whatever its word. -/
theorem test_prm_ready (w : Word) : DrawReady (begun w prm) := ⟨rfl, test_prm_surface, test_prm_mask⟩

/-- Both spans of `spanMem` are in the surface: one at its edge, one empty. -/
theorem test_prm_spans_in_surface : ∀ j < prm.rleCount.toNat, SpanInSurface prm spanMem j := by
  unfold SpanInSurface; decide

/-- Both spans of `spanMem` have their direct source in the image: one at its edge, one empty. -/
theorem test_prm_spans_in_image : ∀ j < prm.rleCount.toNat, SpanInImage prm spanMem j := by
  unfold SpanInImage RunInImage; decide

/-- CLEAR in its walk over the rows of `prm`. -/
def clearing : State := { begun 2 prm with ph := .walk, runs := clearRuns prm }

theorem test_clearing_good : clearing.Inv where
  busy_iff := by decide
  not_both := by decide
  busy_clear := by decide
  done_clear := by decide
  codes := by decide
  err_code := by decide
  simd := by decide
  memory := by decide
  unwalked := by decide
  walk := fun _ =>
    { command := ⟨.clear, by decide, trivial, by decide⟩
      surface := test_prm_surface
      runs := by unfold RunInSurface; decide
      cursor := ⟨⟨0, 0, 4, 255⟩, by decide, by decide⟩
      count := by decide }

theorem test_met_DecodeAndEncodeAgree : decode 0x00000121 = .ok (.imageRle true) := by decide

theorem test_met_IllegalWordFailsWithItself :
    nextAgent (begun 0x120 prm) = .engine ∧ (begun 0x120 prm).ph = .validate ∧
    nextAgent (begun 0x110 prm) = .engine ∧ (begun 0x110 prm).ph = .validate ∧
    (begun 0x110 prm).p.cmd.toNat / 256 % 2 = 1 ∧
    (begun 0x110 prm).p.cmd.toNat % 256 ∉ [0x20, 0x21] := by decide

theorem test_met_NineSpellingsAndTheirWords :
    ∀ e ∈ ["nop", "setup", "clear", "fill.rect", "fill.rle", "image.rect", "image.rect.m", "image.rle",
      "image.rle.m"], "fill.rect.m".toList ≠ e.toList := by decide

theorem test_met_StepRunsTheDecodedCommand :
    nextAgent clearing = .engine ∧ clearing.ph ≠ .idle ∧ decode clearing.p.cmd = .ok .clear ∧
    decode 0x00000011 = .ok .fillRle := by decide

theorem test_met_TurnsOfHostAndIdleEngine :
    ({ clearing with turns := [.host, .engine] } : State).turns = .host :: [.engine] ∧ clearing.turns = [] ∧
    State.reset.ph = .idle ∧ nextAgent { State.reset with turns := [.engine] } = .engine ∧
    nextAgent State.reset = .host ∧ State.reset.host = [] ∧
    nextAgent { State.reset with host := [.wait] } = .host := by decide

theorem test_met_IdleCommandWriteIsAccepted :
    State.reset.busy = false ∧ encode (.imageRle true) = 0x00000121 := by decide

theorem test_met_BusyCommandWriteSetsOverflow : clearing.busy = true := by decide

theorem test_met_ParameterWriteReadsBackAlone :
    implementedBits .surfW = 0xFFFF ∧ implementedBits .surfW ≠ 0 ∧ Reg.surfH ≠ .surfW := by decide

theorem test_met_ControlWriteSetsItsTwoBits : (0xFFFFFFFB : Word).getLsbD 2 = false := by decide

theorem test_met_ResetLeavesTheSpecifiedValues : (0x00000004 : Word).getLsbD 2 = true := by decide

/-- The last mapped offset; inside the window a gap of the map, the first offset after the map, a misaligned
one, the window's last byte and a narrow access; outside it the addresses next to the window. -/
theorem test_met_BusAccessReachesOneRegister :
    regOffset .inv23 = 0xE4 ∧
    (∀ off ∈ [0x01C, 0x0E8, 0x00A, 0x0FF], off < 0x100 ∧ ∀ r ∈ allRegs, off ≠ regOffset r) ∧
    (0x0E4 < 0x100 ∧ 2 ≠ 4) ∧ 0x0FFF < 0x1000 ∧ 0x1000 + 0x100 ≤ 0x1100 := by decide

theorem test_met_InterruptRisesAtCompletion :
    clearing.Inv ∧ nextAgent clearing = .engine ∧ clearing.ph ≠ .idle ∧
    gives (step clearing) (fun t => t.busy) = true ∧ State.reset.busy = false :=
  ⟨test_clearing_good, by decide, by decide, by decide, by decide⟩

/-- The first and the last byte of the surface and of the image, and the bytes next to them; and a running
illegal word. -/
theorem test_met_HostAccessToRunningBuffersIsRefused :
    decode (begun 0x20 prm).p.cmd = .ok (.imageRect false) ∧ (begun 0x20 prm).busy = true ∧
    decode (begun 0x110 prm).p.cmd = .error (.matNotAllowed 0x10) ∧ (begun 0x110 prm).busy = true ∧
    prm.surfRange.has 0x1000 = true ∧ prm.surfRange.has 0x1023 = true ∧
    prm.surfRange.has 0x0FFF = false ∧ prm.surfRange.has 0x1024 = false ∧
    SourceByte (.imageRect false) prm 0x301F ∧ ¬ SourceByte (.imageRect false) prm 0x3020 ∧
    Memory.wf (begun 0x20 prm).mem := by
  unfold SourceByte; decide

/-- The highest word of the space. -/
theorem test_met_MemoryWordsAreLittleEndian : Memory.wf spanMem ∧ 0xFFFFFFFC + 4 ≤ 2 ^ 32 := by decide

theorem test_met_PackedMultiplierActsPerByte : 3 < 4 := by decide

theorem test_met_SolidColourIsPremultiplied :
    byteOf (0xFF336699 : Word) 3 = 255 ∧ byteOf (0x00FFFFFF : Word) 3 = 0 := by decide

theorem test_met_SourceOverEquationAndExtremes : byteOf (0xFF123456 : Word) 3 = 255 := by decide

theorem test_met_PremultipliedSourceOverHasNoCarry :
    premultiplied 0x80808080 = true ∧ premultiplied 0xFFFFFFFF = true ∧
    premultiplied 0x00FF0000 = false := by decide

theorem test_met_MaskedSourceAndExtremes :
    byteOf (0xFF000000 : Word) 3 = 255 ∧ byteOf (0x00FFFFFF : Word) 3 = 0 := by decide

/-- Vector P-6: `0x80FF0000` over white under both colour spaces. -/
theorem test_met_ColourSpaceSwapExchangesRedAndBlue :
    let s := { walking 0x10 prm (storeWord [] 0x1000 0xFFFFFFFF) ⟨0, 0, 1, 255⟩ with
      c := 0x80800000, fpath := .translucentFill }
    let t := { s with c := 0x80000080 }
    s.c = colorPm .argb8888 0x80FF0000 ∧ t.c = colorPm .abgr8888 0x80FF0000 ∧ t.fpath = s.fpath ∧
    t.p.params = s.p.params ∧
    wordAt t.mem (s.p.params.dstAddr 0 0) = swapRB (wordAt s.mem (s.p.params.dstAddr 0 0)) ∧
    alpha (wordAt t.mem (s.p.params.maskAddr 0 0)) = alpha (wordAt s.mem (s.p.params.maskAddr 0 0)) ∧
    fillPixel s 0 0 255 = .ok (some 0xFFFF7F7F) ∧ fillPixel t 0 0 255 = .ok (some 0xFF7F7FFF) := by
  decide

/-- The operands of each case and the results there: finite ones (1.0 and 3.0, the quotient inexact), a zero sum
and a zero difference, divisions by zero, infinities and a NaN; and the sums on both sides of where infinity
begins, the largest finite value and half its last place, or the value just below that half. -/
theorem test_met_RoundedOperationsGiveTheNearestValue :
    f32 0x3F800000 = .fin false (2 ^ 23) 126 ∧ f32 0x40400000 = .fin false 12582912 127 ∧
    f32 0x80000000 = .fin true 0 0 ∧ f32 0x7F800000 = .inf false ∧ f32 0xFF800000 = .inf true ∧
    isNaN (f32 0x7FC00000) = true ∧
    fadd (f32 0x3F800000) (f32 0x40400000) = .fin false (2 ^ 23) 128 ∧
    fsub (f32 0x3F800000) (f32 0x40400000) = .fin true (2 ^ 23) 127 ∧
    fmul (f32 0x3F800000) (f32 0x40400000) = .fin false 12582912 127 ∧
    fdiv (f32 0x3F800000) (f32 0x40400000) = .fin false 11184811 124 ∧
    fadd (f32 0x3F800000) (f32 0xBF800000) = f32 0x00000000 ∧
    fsub (f32 0x80000000) (f32 0x00000000) = f32 0x80000000 ∧
    fdiv (f32 0x3F800000) (f32 0x80000000) = .inf true ∧ isNaN (fdiv (f32 0) (f32 0)) = true ∧
    fadd (f32 0x7F7FFFFF) (f32 0x72FFFFFF) = f32 0x7F7FFFFF ∧
    fadd (f32 0x7F7FFFFF) (f32 0x73000000) = .inf false := by decide +kernel

/-- The bounds of the integers; 2.5, which rounds up; an infinity. -/
theorem test_met_SmallIntegersConvertExactly :
    2 ^ 24 - 1 < 2 ^ 24 ∧ 0 < 2 ^ 24 ∧ f32 0x40200000 = .fin false 10485760 127 ∧
    fround (f32 0x40200000) = f32 0x40400000 ∧ f32 0x7F800000 = .inf false := by decide +kernel

theorem test_met_NopCompletesAndChangesNothingElse : (begun 0 prm).ph = .validate := by decide

theorem test_met_SetupInstallsTheBlenderOrFails :
    (begun 1 prm).ph = .validate ∧ (begun 1 prm).p.params.surfCs = 0 ∧
    (begun 1 { prm with surfCs := 1 }).p.params.surfCs = 1 ∧
    2 ≤ (begun 1 { prm with surfCs := 2 }).p.params.surfCs.toNat ∧
    2 ≤ (begun 1 { prm with surfCs := 255 }).p.params.surfCs.toNat := by decide

theorem test_met_DrawWithoutBlenderFails :
    (begun 0x21 prm).ph = .validate ∧ ({ begun 0x21 prm with blValid := false } : State).blValid = false ∧
    (begun 2 prm).ph = .validate := by decide

/-- A platform that admits no access to the bytes from `0x1023` on. -/
def denying : Platform := { denied := [⟨0x1023, 1, true, true⟩] }

/-- The check's four first conditions, a misaligned base, a range that just fits and one that just does not,
and a range denied in its last byte. -/
theorem test_met_UnusableSurfaceFails :
    draws .clear = true ∧ takesMask .clear = false ∧ (begun 2 prm).ph = .validate ∧
    ({ prm with surfBase := 0 } : Params).surfBase = 0 ∧ ({ prm with surfW := 0 } : Params).surfW = 0 ∧
    ({ prm with surfH := 0 } : Params).surfH = 0 ∧
    ({ prm with surfStride := 3 } : Params).surfStride.toNat < prm.surfW.toNat ∧
    prm.surfW.toNat ≤ ({ prm with surfStride := 4 } : Params).surfStride.toNat ∧
    (0x1002 : Word).toNat % 4 ≠ 0 ∧ 2 ^ 32 < (0xFFFFFFE0 : Word).toNat + 4 * ((2 - 1) * 5 + 4) ∧
    ¬ 2 ^ 32 < (0xFFFFFFDC : Word).toNat + 4 * ((2 - 1) * 5 + 4) ∧
    memAdmit denying 0x1000 (4 * ((2 - 1) * 5 + 4)) .read = false ∧
    memAdmit denying 0x1000 (4 * ((2 - 1) * 5 + 4)) .write = false := by decide

/-- The surface of `prm` is usable whatever the mask is. -/
theorem test_masked_surface (mm : BitVec 2) (b : Word) :
    SurfaceUsable {} { prm with maskMethod := mm, maskBase := b } :=
  ⟨test_prm_surface.base, test_prm_surface.width, test_prm_surface.height, test_prm_surface.stride,
    test_prm_surface.aligned, test_prm_surface.range⟩

theorem test_met_UnusableMaskFails :
    takesMask .fillRect = true ∧ (begun 0x10 { prm with maskMethod := 2, maskBase := 0 }).ph = .validate ∧
    (begun 0x10 { prm with maskMethod := 2, maskBase := 0 }).blValid = true ∧
    (∀ mm b, SurfaceUsable {} { prm with maskMethod := mm, maskBase := b }) ∧
    ({ prm with maskMethod := 3 } : Params).maskMethod = 3 ∧ (0x2001 : Word).toNat % 4 ≠ 0 ∧
    2 ^ 32 < (0xFFFFFFE0 : Word).toNat + 4 * ((2 - 1) * 5 + 4) ∧
    ¬ 2 ^ 32 < (0xFFFFFFDC : Word).toNat + 4 * ((2 - 1) * 5 + 4) :=
  ⟨by decide, by decide, by decide, test_masked_surface, by decide, by decide, by decide, by decide⟩

theorem test_met_UnusableImageFails :
    takesImage (.imageRect true) = true ∧ (begun 0x120 { prm with imgBase := 0 }).ph = .validate ∧
    DrawReady (begun 0x120 { prm with imgBase := 0 }) ∧ DrawReady (begun 0x120 { prm with imgBase := 2 }) ∧
    ({ prm with imgStride := 3 } : Params).imgStride.toNat < prm.imgW.toNat ∧ (2 : Word).toNat % 4 ≠ 0 ∧
    2 ^ 32 < (0xFFFFFFE4 : Word).toNat + 4 * ((2 - 1) * 4 + 4) ∧
    ¬ 2 ^ 32 < (0xFFFFFFE0 : Word).toNat + 4 * ((2 - 1) * 4 + 4) :=
  ⟨by decide, by decide, (checkDraw_ok_iff _).1 rfl |> fun h => ⟨h.1, h.2.1, h.2.2⟩,
    (checkDraw_ok_iff _).1 rfl |> fun h => ⟨h.1, h.2.1, h.2.2⟩, by decide, by decide, by decide, by decide⟩

theorem test_met_UnusableSpanListFails :
    takesSpans .fillRle = true ∧ (begun 0x11 { prm with rleBase := 0 }).ph = .validate ∧
    DrawReady (begun 0x11 { prm with rleBase := 0 }) ∧ takesImage .fillRle = false ∧
    ImageUsable {} { prm with rleBase := 0 } ∧ prm.rleCount ≠ 0 ∧ (0x4002 : Word).toNat % 4 ≠ 0 ∧
    2 ^ 32 < (0xFFFFFFF4 : Word).toNat + 8 * prm.rleCount.toNat ∧
    ¬ 2 ^ 32 < (0xFFFFFFF0 : Word).toNat + 8 * prm.rleCount.toNat :=
  ⟨by decide, by decide, (checkDraw_ok_iff _).1 rfl |> fun h => ⟨h.1, h.2.1, h.2.2⟩, by decide,
    (checkImage_ok_iff _ _).1 rfl, by decide, by decide, by decide, by decide⟩

/-- The matrix of all zeros, as after reset, is singular (43_image.md R206). -/
theorem test_met_SingularMatrixFails :
    let p := { prm with m11 := 0, m22 := 0, m33 := 0 }
    (begun 0x120 p).ph = .validate ∧ DrawReady (begun 0x120 p) ∧ ImageUsable {} p ∧ SpansUsable {} p ∧
    isIdentity p.matrix = false ∧ flt (fabs (determinant p.matrix)) (f32 0x34000000) = true :=
  ⟨by decide, (checkDraw_ok_iff _).1 rfl |> fun h => ⟨h.1, h.2.1, h.2.2⟩, (checkImage_ok_iff _ _).1 rfl,
    (checkRle_ok_iff _ _).1 rfl, by decide, by decide⟩

/-- A matrix that doubles `x`: not the identity, not singular. -/
def doubling (p : Params) : Params := { p with m11 := 0x40000000 }

theorem test_prm_direct : TakesDirect false prm ∧ TakesDirect true prm := ⟨.inl rfl, .inr (by decide)⟩

theorem test_prm_resample : TakesResample true (doubling prm) := ⟨rfl, by decide, by decide⟩

/-- The region of `prm` moved one column to the right leaves the surface; its source moved one column to the
right leaves the image. -/
theorem test_met_RectangleOutOfBoundsFails :
    (begun 0x10 { prm with bboxMax := 0x00020005 }).ph = .validate ∧
    DrawReady (begun 0x10 { prm with bboxMax := 0x00020005 }) ∧
    ¬ RegionEmpty { prm with bboxMax := 0x00020005 } ∧
    prm.surfW.toNat < ({ prm with bboxMax := 0x00020005 } : Params).maxX ∧
    prm.surfH.toNat < ({ prm with bboxMax := 0x00030004 } : Params).maxY ∧
    ImageUsable {} { prm with bboxMax := 0x00020005 } ∧ TakesDirect false prm ∧
    TakesResample true (doubling prm) ∧ prm.maxX ≤ prm.surfW.toNat ∧ prm.maxY ≤ prm.surfH.toNat ∧
    prm.imgW.toNat < ({ prm with imgOrigin := 2 } : Params).originX + (prm.maxX - prm.minX) ∧
    prm.imgH.toNat < ({ prm with imgOrigin := 0x00010001 } : Params).originY + (prm.maxY - prm.minY) :=
  ⟨by decide, (checkDraw_ok_iff _).1 rfl |> fun h => ⟨h.1, h.2.1, h.2.2⟩,
    by unfold RegionEmpty; decide, by decide, by decide, (checkImage_ok_iff _ _).1 rfl, test_prm_direct.1,
    test_prm_resample, by decide, by decide, by decide, by decide⟩

/-- With a surface one column narrower span 0 leaves it; with an origin of 2 its source leaves the image. -/
theorem test_met_FirstBadSpanFailsWithItsIndex :
    (begun 0x11 { prm with surfW := 3 }).ph = .validate ∧ DrawReady (begun 0x11 { prm with surfW := 3 }) ∧
    SpansUsable {} { prm with surfW := 3 } ∧ 0 < prm.rleCount.toNat ∧
    ¬ SpanInSurface { prm with surfW := 3 } spanMem 0 ∧ ImageUsable {} { prm with surfW := 3 } ∧
    TakesResample true (doubling { prm with surfW := 3 }) ∧ TakesDirect false { prm with imgOrigin := 2 } ∧
    SpanInSurface { prm with imgOrigin := 2 } spanMem 0 ∧ ¬ SpanInImage { prm with imgOrigin := 2 } spanMem 0 :=
  ⟨by decide, (checkDraw_ok_iff _).1 rfl |> fun h => ⟨h.1, h.2.1, h.2.2⟩, (checkRle_ok_iff _ _).1 rfl,
    by decide, by unfold SpanInSurface; decide, (checkImage_ok_iff _ _).1 rfl,
    ⟨rfl, by decide, by decide⟩, .inl rfl, by unfold SpanInSurface; decide,
    by unfold SpanInImage RunInImage; decide⟩

/-- Two ranges that share a byte are not apart. -/
theorem test_not_apart (i : Instr) (p : Params) (a : Nat) (h : p.surfRange.has a = true)
    (hs : SourceByte i p a) : ¬ BuffersApart i p := fun ha => ha a h hs

/-- The image's, the mask's or the span list's first byte is the surface's last; and a device under the
surface's last byte. -/
theorem test_met_OverlappingOrDeviceBuffersAreRefused :
    (begun 0x20 { prm with imgBase := 0x1020 }).ph = .validate ∧
    DrawReady (begun 0x20 { prm with imgBase := 0x1020 }) ∧ ¬ RegionEmpty { prm with imgBase := 0x1020 } ∧
    ImageUsable {} { prm with imgBase := 0x1020 } ∧
    ¬ BuffersApart (.imageRect false) { prm with imgBase := 0x1020 } ∧
    ¬ BuffersApart .fillRect { prm with maskMethod := 2, maskBase := 0x1020 } ∧
    DrawReady (begun 0x10 { prm with maskMethod := 2, maskBase := 0x1020 }) ∧
    ¬ BuffersApart .fillRle { prm with rleBase := 0x1020 } ∧
    DrawReady (begun 0x11 { prm with rleBase := 0x1020 }) ∧ SpansUsable {} { prm with rleBase := 0x1020 } ∧
    listedRuns prm spanMem ≠ [] ∧
    touchesDevice { devices := [⟨0x1023, 1, false, false⟩] } 0x1000 (4 * ((2 - 1) * 5 + 4)) = true ∧
    memAdmit { devices := [⟨0x1023, 1, false, false⟩] } 0x1000 (4 * ((2 - 1) * 5 + 4)) .write = true :=
  ⟨by decide, (checkDraw_ok_iff _).1 rfl |> fun h => ⟨h.1, h.2.1, h.2.2⟩, by unfold RegionEmpty; decide,
    (checkImage_ok_iff _ _).1 rfl, test_not_apart _ _ 0x1023 (by decide) (by unfold SourceByte; decide),
    test_not_apart _ _ 0x1023 (by decide) (by unfold SourceByte; decide),
    (checkDraw_ok_iff _).1 rfl |> fun h => ⟨h.1, h.2.1, h.2.2⟩,
    test_not_apart _ _ 0x1023 (by decide) (by unfold SourceByte; decide),
    (checkDraw_ok_iff _).1 rfl |> fun h => ⟨h.1, h.2.1, h.2.2⟩, (checkRle_ok_iff _ _).1 rfl, by decide,
    by decide, by decide⟩

/-- A platform with a device under the byte at `a`. -/
def deviceAt (a : Nat) : Platform := { devices := [⟨a, 1, false, false⟩] }

/-- The range `[base, base + n)` passes its check but for a device under its last byte. -/
def LastByteIsDevice (base : Word) (n : Nat) : Prop :=
  base.toNat % 4 = 0 ∧ base.toNat + n ≤ 2 ^ 32 ∧
  memAdmit (deviceAt (base.toNat + n - 1)) base.toNat n .read = true ∧
  touchesDevice (deviceAt (base.toNat + n - 1)) base.toNat n = true

/-- A device under the last byte of the mask, of the image and of the span list, the checks before each one
passing. -/
theorem test_met_OverlappingOrDeviceBuffersAreRefused_sources :
    SurfaceUsable (deviceAt 0x2023) { prm with maskMethod := 2 } ∧ takesMask .fillRect = true ∧
    ({ prm with maskMethod := 2 } : Params).maskBase ≠ 0 ∧ LastByteIsDevice 0x2000 (4 * ((2 - 1) * 5 + 4)) ∧
    DrawReady { begun 0x20 prm with platform := deviceAt 0x301F } ∧ takesImage (.imageRect false) = true ∧
    LastByteIsDevice 0x3000 (4 * ((2 - 1) * 4 + 4)) ∧
    DrawReady { begun 0x21 prm with platform := deviceAt 0x400F } ∧ takesSpans (.imageRle false) = true ∧
    ImageUsable (deviceAt 0x400F) prm ∧ LastByteIsDevice 0x4000 (8 * prm.rleCount.toNat) := by
  unfold LastByteIsDevice
  exact ⟨(checkSurface_ok_iff _ _).1 rfl, by decide, by decide, by decide,
    (checkDraw_ok_iff _).1 rfl |> fun h => ⟨h.1, h.2.1, h.2.2⟩, by decide, by decide,
    (checkDraw_ok_iff _).1 rfl |> fun h => ⟨h.1, h.2.1, h.2.2⟩, by decide,
    (checkImage_ok_iff _ _).1 rfl, by decide⟩

/-- The buffers of `prm` are apart, for every command. -/
theorem test_prm_apart (i : Instr) (h : overlaps i prm = false) (hd : draws i = true) :
    BuffersApart i prm := by
  by_contra hn
  rw [(overlaps_iff i prm hd).2 hn] at h
  cases h

theorem test_met_ClearValidates : (begun 2 prm).ph = .validate ∧ SurfaceUsable {} prm :=
  ⟨by decide, test_prm_surface⟩

theorem test_met_FillRectValidates :
    (begun 0x10 prm).ph = .validate ∧ DrawReady (begun 0x10 prm) ∧ ¬ RegionEmpty prm ∧
    prm.maxX ≤ prm.surfW.toNat ∧ prm.maxY ≤ prm.surfH.toNat ∧ BuffersApart .fillRect prm ∧
    RegionEmpty { prm with bboxMax := 0x00020001 } ∧ RegionEmpty { prm with bboxMax := 0x00000004 } :=
  ⟨by decide, test_prm_ready _, by unfold RegionEmpty; decide, by decide, by decide,
    test_prm_apart _ (by decide) (by decide), by unfold RegionEmpty; decide, by unfold RegionEmpty; decide⟩

theorem test_met_FillRleValidates :
    (begun 0x11 prm).ph = .validate ∧ DrawReady (begun 0x11 prm) ∧ SpansUsable {} prm ∧
    (∀ j < prm.rleCount.toNat, SpanInSurface prm spanMem j) ∧ listedRuns prm spanMem ≠ [] ∧
    BuffersApart .fillRle prm ∧ listedRuns { prm with rleCount := 0 } spanMem = [] :=
  ⟨by decide, test_prm_ready _, test_prm_spans, test_prm_spans_in_surface, by decide,
    test_prm_apart _ (by decide) (by decide), by decide⟩

/-- The source of the region of `prm` touches the image's right and lower edges. -/
theorem test_met_ImageRectValidates :
    (begun 0x20 prm).ph = .validate ∧ DrawReady (begun 0x20 prm) ∧ ImageUsable {} prm ∧
    TakesDirect false prm ∧ TakesDirect true prm ∧ TakesResample true (doubling prm) ∧
    ¬ RegionEmpty prm ∧ prm.maxX ≤ prm.surfW.toNat ∧ prm.maxY ≤ prm.surfH.toNat ∧
    prm.originX + (prm.maxX - prm.minX) = prm.imgW.toNat ∧
    prm.originY + (prm.maxY - prm.minY) = prm.imgH.toNat ∧ BuffersApart (.imageRect false) prm :=
  ⟨by decide, test_prm_ready _, test_prm_image, test_prm_direct.1, test_prm_direct.2, test_prm_resample,
    by unfold RegionEmpty; decide, by decide, by decide, by decide, by decide,
    test_prm_apart _ (by decide) (by decide)⟩

theorem test_met_ImageRleValidates :
    (begun 0x21 prm).ph = .validate ∧ DrawReady (begun 0x21 prm) ∧ ImageUsable {} prm ∧
    SpansUsable {} prm ∧ (∀ j < prm.rleCount.toNat, SpanInSurface prm spanMem j) ∧
    (∀ j < prm.rleCount.toNat, SpanInImage prm spanMem j) ∧ TakesDirect false prm ∧
    TakesResample true (doubling prm) ∧ listedRuns prm spanMem ≠ [] ∧
    BuffersApart (.imageRle false) prm :=
  ⟨by decide, test_prm_ready _, test_prm_image, test_prm_spans, test_prm_spans_in_surface,
    test_prm_spans_in_image, test_prm_direct.1, test_prm_resample, by decide,
    test_prm_apart _ (by decide) (by decide)⟩

/-- The last row of the surface, from its first column to its last. -/
def lastRow : Run := ⟨1, 0, 4, 255⟩

/-- The cursor is on the last row of the surface. -/
theorem test_on_last_row (w : Word) : CursorOn (walking w prm spanMem lastRow) lastRow :=
  ⟨rfl, rfl, by
    show 0 < 4
    decide, by
    show 0 < 4 ∧ 0 + 4 ≤ 4 ∧ 1 < 2
    decide, test_prm_surface, by
    show Memory.wf spanMem
    decide⟩

theorem test_met_ClearWalkStepStoresZero : CursorOn (walking 2 prm spanMem lastRow) lastRow :=
  test_on_last_row 2

theorem test_met_FillWalkStepStoresTheBlend :
    CursorOn (walking 0x10 prm spanMem lastRow) lastRow ∧ MaskUsable {} prm ∧
    (walking 0x10 prm spanMem lastRow).fpath ≠ .maskedFill :=
  ⟨test_on_last_row _, test_prm_mask, by decide⟩

/-- The same with an alpha mask bound. -/
theorem test_met_FillWalkStepStoresTheBlend_masked :
    CursorOn { walking 0x10 { prm with maskMethod := 2 } spanMem lastRow with fpath := .maskedFill } lastRow ∧
    MaskUsable {} { prm with maskMethod := 2 } ∧ ({ prm with maskMethod := 2 } : Params).maskMethod = 2 :=
  ⟨⟨rfl, rfl, by decide, by unfold RunInSurface; decide, test_masked_surface 2 0x2000, by
    show Memory.wf spanMem
    decide⟩, (checkMask_ok_iff _ _ (by decide)).1 rfl, by decide⟩

/-- The run `(0, 1, 3)`, whose direct source touches the image's right edge. -/
theorem test_met_DirectImageWalkStepStoresTheBlend :
    CursorOn (walking 0x20 prm spanMem ⟨0, 1, 3, 255⟩) ⟨0, 1, 3, 255⟩ ∧ MaskUsable {} prm ∧
    ImageUsable {} prm ∧ (walking 0x20 prm spanMem ⟨0, 1, 3, 255⟩).maskOn = false ∧
    ¬ (prm.maskMethod = 2 ∨ prm.maskMethod = 3) ∧
    (walking 0x20 prm spanMem ⟨0, 1, 3, 255⟩).ipath = .direct ∧ RunInImage prm ⟨0, 1, 3, 255⟩ :=
  ⟨⟨rfl, rfl, by decide, by unfold RunInSurface; decide, test_prm_surface, by
    show Memory.wf spanMem
    decide⟩, test_prm_mask, test_prm_image, by decide, by decide, by decide,
    by unfold RunInImage; decide⟩

/-- Under the identity inverse column 3 is inside the image and, shifted by one, outside it: a pixel that is
sampled and one that is skipped. -/
theorem test_met_ResampledImageWalkStepStoresOrSkips :
    CursorOn { walking 0x120 prm spanMem lastRow with ipath := .resample } lastRow ∧ MaskUsable {} prm ∧
    ImageUsable {} prm ∧ (walking 0x120 prm spanMem lastRow).maskOn = false ∧
    resampleCoord ⟨.one, .zero, .zero, .zero, .one, .zero⟩ prm 3 1 = some (3, 1) ∧
    resampleCoord ⟨.one, .zero, .one, .zero, .one, .zero⟩ prm 3 1 = none :=
  ⟨⟨rfl, rfl, by decide, by unfold RunInSurface; decide, test_prm_surface, by
    show Memory.wf spanMem
    decide⟩, test_prm_mask, test_prm_image, by decide, by decide, by decide⟩

/-- The direct path with an inverse alpha mask bound. -/
theorem test_met_DirectImageWalkStepStoresTheBlend_masked :
    let p := { prm with maskMethod := 3 }
    CursorOn { walking 0x20 p spanMem ⟨0, 1, 3, 255⟩ with maskOn := true } ⟨0, 1, 3, 255⟩ ∧
    MaskUsable {} p ∧ ImageUsable {} p ∧ p.maskMethod = 3 ∧ RunInImage p ⟨0, 1, 3, 255⟩ :=
  ⟨⟨rfl, rfl, by decide, by unfold RunInSurface; decide, test_masked_surface 3 0x2000, by
    show Memory.wf spanMem
    decide⟩, (checkMask_ok_iff _ _ (by decide)).1 rfl, (checkImage_ok_iff _ _).1 rfl, by decide,
    by unfold RunInImage; decide⟩

theorem test_met_EveryStepKeepsAGoodState :
    clearing.Inv ∧ gives (step clearing) (fun t => t.off == 0 && t.ri == 1) = true :=
  ⟨test_clearing_good, by decide⟩

theorem test_met_GoodStateNeverFaults : clearing.Inv := test_clearing_good

theorem test_met_WalkCompletesAfterItsGroups :
    clearing.Inv ∧ clearing.ph = .walk ∧ clearing.turns = [] ∧ groupsLeft clearing = 2 :=
  ⟨test_clearing_good, by decide, by decide, by decide⟩

theorem test_met_SimdWalkEqualsScalarWalk :
    clearing.Inv ∧ clearing.ph = .walk ∧ clearing.turns = [] ∧ groupsLeft (scalarOf clearing) = 8 :=
  ⟨test_clearing_good, by decide, by decide, by decide⟩

theorem test_met_CommandsWriteOnlyTheirOwnState :
    gives (exec .clear clearing) (fun t => t.pixcount == 4) = true ∧
    gives (exec .fillRect (begun 0x10 prm)) (fun t => t.colorPm == 0xFF336699) = true := by decide

theorem test_met_EngineWritesOnlyPixelsOfTheRun :
    clearing.Inv ∧ decode clearing.p.cmd = .ok .clear ∧
    gives (exec .clear clearing) (fun t => t.busy) = true :=
  ⟨test_clearing_good, by decide, by decide⟩

theorem test_met_ClearZeroesExactlyTheSurface :
    (begun 2 prm).ph = .validate ∧ (begun 2 prm).turns = [] ∧ (begun 2 prm).p.cmd = 2 ∧
    Memory.wf (begun 2 prm).mem ∧ SurfaceUsable {} prm ∧ (begun 2 prm).pixcount = 0 :=
  ⟨by decide, by decide, by decide, by decide, test_prm_surface, by decide⟩

theorem test_met_OpaqueFillRectStoresTheColour :
    (begun 0x10 prm).ph = .validate ∧ (begun 0x10 prm).turns = [] ∧ (begun 0x10 prm).p.cmd = 0x10 ∧
    Memory.wf (begun 0x10 prm).mem ∧ (begun 0x10 prm).blValid = true ∧ SurfaceUsable {} prm ∧
    byteOf prm.colorIn 3 = 255 ∧ prm.maskMethod = 0 ∧ ¬ RegionEmpty prm ∧
    prm.maxX ≤ prm.surfW.toNat ∧ prm.maxY ≤ prm.surfH.toNat :=
  ⟨by decide, by decide, by decide, by decide, by decide, test_prm_surface, by decide, by decide,
    by unfold RegionEmpty; decide, by decide, by decide⟩

theorem test_met_IdentityMatrixEqualsNoMatrix :
    isIdentity prm.matrix = true ∧ 3 < prm.imgW.toNat ∧ 1 < prm.imgH.toNat ∧
    ({ prm with imgOrigin := prm.bboxMin } : Params).imgOrigin = prm.bboxMin := by decide

end Sys2Proof.Tests
end

section
/-! PROOFS. The statements of 00_scope.md about binary32 values (R14): patterns, the four rounded operations,
the conversions and `fround`. -/

namespace Sys2Proof.Machine

/-! ## Patterns and values -/

/-- The three fields of a pattern make it up: the left inverse of `packF32_fields`. -/
theorem packF32_of_fields (w : Word) :
    packF32 (w.getLsbD 31) (w.extractLsb' 23 8).toNat (w.extractLsb' 0 23).toNat = w := by
  unfold packF32
  rw [BitVec.ofNat_toNat, BitVec.ofNat_toNat, BitVec.setWidth_eq, BitVec.setWidth_eq]
  apply BitVec.eq_of_getLsbD_eq
  intro i hi
  simp only [BitVec.getLsbD_append, BitVec.getLsbD_extractLsb', BitVec.getLsbD_ofBool]
  by_cases h23 : i < 23
  · simp [h23, show i < 31 by omega]
  · by_cases h31 : i < 31
    · simp [h23, h31, show i - 23 < 8 by omega, show 23 + (i - 23) = i by omega]
    · obtain rfl : i = 31 := by omega
      simp

/-- Settles O27, by the branches of `f32`: a NaN carries its pattern, and in every other branch `bits` puts
the fields together that `f32` took apart. -/
theorem patternOfValueIsThePattern : Obligations.PatternOfValueIsThePattern := by
  unfold Obligations.PatternOfValueIsThePattern
  intro w
  have hw := packF32_of_fields w
  have hf := (w.extractLsb' 0 23).isLt
  unfold f32
  dsimp only
  split
  next he =>
    split
    next h0 => rw [he, h0] at hw; exact hw
    next => rfl
  next =>
    split
    next he => rw [he] at hw; rw [bits, if_pos hf]; exact hw
    next he =>
      rw [bits, if_neg (by omega), Nat.sub_add_cancel (by omega), Nat.add_sub_cancel_left]
      exact hw

/-! ## The four rounded operations

`IsPatternValue` names what every result of an operation is; each operation has one lemma for that and one
equation per case of an infinite operand. -/

/-- The value is the value of some 32-bit pattern. -/
def IsPatternValue (r : Binary32) : Prop := ∃ w, r = f32 w

theorem isPatternValue_nanResult (op : FloatOp) (a b : Binary32) : IsPatternValue (nanResult op a b) :=
  nanResult_pattern op a b

theorem isPatternValue_roundNearest (s : Bool) (n d : Nat) (hd : 0 < d) :
    IsPatternValue (roundNearest s n d) := (roundNearest_spec s n d hd).1

theorem isPatternValue_inf (s : Bool) : IsPatternValue (.inf s) := ⟨_, (f32_bits_inf s).symm⟩

theorem isPatternValue_zero (s : Bool) : IsPatternValue (.fin s 0 0) :=
  ⟨_, (f32_bits_fin s 0 0 (by norm_num) (by norm_num) (.inl rfl)).symm⟩

theorem unitsPerOne_pos : 0 < unitsPerOne := by unfold unitsPerOne; positivity

theorem isPatternValue_addNumbers (op : FloatOp) (x y a b : Binary32) :
    IsPatternValue (addNumbers op x y a b) := by
  unfold addNumbers
  split
  · split
    · exact isPatternValue_inf _
    · exact isPatternValue_nanResult _ _ _
  · exact isPatternValue_inf _
  · exact isPatternValue_inf _
  · dsimp only
    split
    · exact isPatternValue_zero _
    · exact isPatternValue_roundNearest _ _ _ one_pos

theorem isPatternValue_fadd (a b : Binary32) : IsPatternValue (fadd a b) := by
  unfold fadd
  split
  · exact isPatternValue_nanResult _ _ _
  · exact isPatternValue_addNumbers _ _ _ _ _

theorem isPatternValue_fsub (a b : Binary32) : IsPatternValue (fsub a b) := by
  unfold fsub
  split
  · exact isPatternValue_nanResult _ _ _
  · exact isPatternValue_addNumbers _ _ _ _ _

theorem isPatternValue_fmul (a b : Binary32) : IsPatternValue (fmul a b) := by
  unfold fmul
  split
  · exact isPatternValue_nanResult _ _ _
  · dsimp only
    split
    · exact isPatternValue_roundNearest _ _ _ unitsPerOne_pos
    · exact isPatternValue_nanResult _ _ _
    · exact isPatternValue_nanResult _ _ _
    · exact isPatternValue_inf _

theorem isPatternValue_fdiv (a b : Binary32) : IsPatternValue (fdiv a b) := by
  unfold fdiv
  split
  · exact isPatternValue_nanResult _ _ _
  · dsimp only
    split
    · exact isPatternValue_nanResult _ _ _
    · exact isPatternValue_inf _
    · exact isPatternValue_zero _
    · split
      · split
        · exact isPatternValue_nanResult _ _ _
        · exact isPatternValue_inf _
      next hb => exact isPatternValue_roundNearest _ _ _ (Nat.pos_of_ne_zero hb)

theorem isNaN_fsub_of_isNaN (a b : Binary32) (h : isNaN a = true ∨ isNaN b = true) :
    isNaN (fsub a b) = true := by
  unfold fsub; rw [if_pos (by simpa using h)]; exact isNaN_nanResult _ _ _

theorem isNaN_fmul_left (a b : Binary32) (h : isNaN a = true) : isNaN (fmul a b) = true := by
  unfold fmul; rw [if_pos (by simp [h])]; exact isNaN_nanResult _ _ _

theorem isNaN_fdiv_left (a b : Binary32) (h : isNaN a = true) : isNaN (fdiv a b) = true := by
  unfold fdiv; rw [if_pos (by simp [h])]; exact isNaN_nanResult _ _ _

/-- `fmul` of an infinity and a non-zero number, either way round. -/
theorem fmul_inf_fin (s t : Bool) (m k : Nat) (h : m ≠ 0) : fmul (.inf s) (.fin t m k) = .inf (s != t) := by
  cases m with
  | zero => exact absurd rfl h
  | succ m => rfl

theorem fmul_fin_inf (s t : Bool) (m k : Nat) (h : m ≠ 0) : fmul (.fin s m k) (.inf t) = .inf (s != t) := by
  cases m with
  | zero => exact absurd rfl h
  | succ m => rfl

/-- Zero times infinity, and infinity over infinity, are NaNs (log 10). -/
theorem fmul_inf_zero (s t : Bool) (k : Nat) :
    fmul (.inf s) (.fin t 0 k) = nanResult .mul (.inf s) (.fin t 0 k) := rfl

theorem fmul_zero_inf (s t : Bool) (k : Nat) :
    fmul (.fin s 0 k) (.inf t) = nanResult .mul (.fin s 0 k) (.inf t) := rfl

theorem fdiv_inf_inf (s t : Bool) : fdiv (.inf s) (.inf t) = nanResult .div (.inf s) (.inf t) := rfl

/-- Infinities add to an infinity when their signs agree, and else to a NaN (log 10). -/
theorem fadd_inf_inf (s t : Bool) :
    fadd (.inf s) (.inf t) = if s = t then .inf s else nanResult .add (.inf s) (.inf t) := rfl

theorem fsub_inf_inf (s t : Bool) :
    fsub (.inf s) (.inf t) = if s = !t then .inf s else nanResult .sub (.inf s) (.inf t) := rfl

/-- Every result is the value of a pattern, and a NaN when an operand is one. -/
theorem operations_isPatternValue_and_keep_isNaN (a b : Binary32) :
    ∀ r ∈ [fadd a b, fsub a b, fmul a b, fdiv a b], (∃ w, r = f32 w) ∧
      (isNaN a = true ∨ isNaN b = true → isNaN r = true) := by
  intro r hr
  simp only [List.mem_cons, List.not_mem_nil, or_false] at hr
  obtain rfl | rfl | rfl | rfl := hr
  · exact ⟨isPatternValue_fadd a b, fun h => h.elim (isNaN_fadd_left a b) (isNaN_fadd_right a b)⟩
  · exact ⟨isPatternValue_fsub a b, isNaN_fsub_of_isNaN a b⟩
  · exact ⟨isPatternValue_fmul a b, fun h => h.elim (isNaN_fmul_left a b) (isNaN_fmul_right a b)⟩
  · exact ⟨isPatternValue_fdiv a b, fun h => h.elim (isNaN_fdiv_left a b) (isNaN_fdiv_right a b)⟩

/-- A whole number of units, rounded unless it is 0: what `fadd_fin` and `fsub_fin` give. -/
theorem roundNearest_signed_or_zero (units : Int) (zero : Binary32) :
    let r := if units = 0 then zero else roundNearest (decide (units < 0)) units.natAbs 1
    (units ≠ 0 → RoundsTo (decide (units < 0)) units.natAbs 1 r) ∧ (units = 0 → r = zero) := by
  refine ⟨fun h => ?_, fun h => if_pos h⟩
  rw [if_neg h]
  exact (roundNearest_spec _ _ 1 one_pos).2

/-- A non-zero exact sum of finite values is rounded, and a zero one is a zero. -/
theorem fadd_fin_roundsTo (s t : Bool) (m n k l : Nat) :
    let sum := signedUnits (.fin s m k) + signedUnits (.fin t n l)
    (sum ≠ 0 → RoundsTo (decide (sum < 0)) sum.natAbs 1 (fadd (.fin s m k) (.fin t n l))) ∧
    (sum = 0 → fadd (.fin s m k) (.fin t n l) = .fin (s && t) 0 0) := by
  rw [fadd_fin]
  exact roundNearest_signed_or_zero _ _

/-- A non-zero exact difference of finite values is rounded, and a zero one is a zero. -/
theorem fsub_fin_roundsTo (s t : Bool) (m n k l : Nat) :
    let diff := signedUnits (.fin s m k) - signedUnits (.fin t n l)
    (diff ≠ 0 → RoundsTo (decide (diff < 0)) diff.natAbs 1 (fsub (.fin s m k) (.fin t n l))) ∧
    (diff = 0 → fsub (.fin s m k) (.fin t n l) = .fin (s && !t) 0 0) := by
  rw [fsub_fin]
  exact roundNearest_signed_or_zero _ _

/-- The exact product of finite values is rounded. -/
theorem fmul_fin_roundsTo (s t : Bool) (m n k l : Nat) :
    RoundsTo (s != t) (m * 2 ^ k * (n * 2 ^ l)) unitsPerOne (fmul (.fin s m k) (.fin t n l)) := by
  rw [fmul_fin]
  exact (roundNearest_spec _ _ _ unitsPerOne_pos).2

/-- The exact quotient of a finite value by a non-zero one is rounded. -/
theorem fdiv_fin_roundsTo (s t : Bool) (m n k l : Nat) (hn : n ≠ 0) :
    RoundsTo (s != t) (m * 2 ^ k * unitsPerOne) (n * 2 ^ l) (fdiv (.fin s m k) (.fin t n l)) := by
  have hpos : 0 < n * 2 ^ l := by positivity
  rw [fdiv_fin, if_neg hpos.ne']
  exact (roundNearest_spec _ _ _ hpos).2

/-- A finite value divided by zero: a NaN for a zero, and else an infinity (log 10). -/
theorem fdiv_fin_zero (s t : Bool) (m k l : Nat) : fdiv (.fin s m k) (.fin t 0 l) =
    if m = 0 then nanResult .div (.fin s m k) (.fin t 0 l) else .inf (s != t) := by
  simp [fdiv_fin]

/-- Settles O28, by the shapes of the two operands: each clause is the equation of its operation there, and
where the exact result is rounded it is `roundNearest_spec`. -/
theorem roundedOperationsGiveTheNearestValue : Obligations.RoundedOperationsGiveTheNearestValue := by
  unfold Obligations.RoundedOperationsGiveTheNearestValue
  intro wa wb
  dsimp only
  refine ⟨operations_isPatternValue_and_keep_isNaN _ _, ?finite, ?infFin, ?finInf, ?infInf⟩
  case finite =>
    intro sa sb ma mb ka kb ha hb
    rw [ha, hb]
    obtain ⟨hadd, haddZero⟩ := fadd_fin_roundsTo sa sb ma mb ka kb
    obtain ⟨hsub, hsubZero⟩ := fsub_fin_roundsTo sa sb ma mb ka kb
    refine ⟨hadd, haddZero, hsub, hsubZero, fmul_fin_roundsTo _ _ _ _ _ _,
      fdiv_fin_roundsTo _ _ _ _ _ _, ?_, ?_⟩
    · rintro rfl hma
      rw [fdiv_fin_zero, if_neg hma]
    · rintro rfl hma
      rw [fdiv_fin_zero, if_pos hma]
      exact isNaN_nanResult _ _ _
  case infFin =>
    intro sa sb mb kb ha hb
    rw [ha, hb]
    refine ⟨rfl, rfl, rfl, fmul_inf_fin _ _ _ _, ?_⟩
    rintro rfl
    rw [fmul_inf_zero]
    exact isNaN_nanResult _ _ _
  case finInf =>
    intro sa sb ma ka ha hb
    rw [ha, hb]
    refine ⟨rfl, rfl, rfl, fmul_fin_inf _ _ _ _, ?_⟩
    rintro rfl
    rw [fmul_zero_inf]
    exact isNaN_nanResult _ _ _
  case infInf =>
    intro sa sb ha hb
    rw [ha, hb, fadd_inf_inf, fsub_inf_inf, fdiv_inf_inf]
    refine ⟨rfl, isNaN_nanResult _ _ _, ?_, ?_⟩
    · rintro rfl
      rw [if_pos rfl, if_neg (by simp)]
      exact ⟨rfl, isNaN_nanResult _ _ _⟩
    · intro hne
      rw [if_neg hne, if_pos (Bool.eq_not_of_ne hne)]
      exact ⟨isNaN_nanResult _ _ _, rfl⟩

/-! ## Integers and `fround` -/

/-! `toF32_exact` as the comparisons, `toInteger` and `fround` see it. -/

theorem isNaN_toF32 (n : Nat) (hn : n < 2 ^ 24) : isNaN (toF32 n) = false := by
  obtain ⟨m, k, hfin, -⟩ := toF32_exact n hn
  rw [hfin]
  rfl

theorem orderKey_toF32 (n : Nat) (hn : n < 2 ^ 24) : orderKey (toF32 n) = (n * unitsPerOne : Nat) := by
  obtain ⟨m, k, hfin, hval⟩ := toF32_exact n hn
  rw [hfin, ← hval]
  rfl

theorem toInteger_toF32 (n : Nat) (hn : n < 2 ^ 24) : toInteger (toF32 n) = n := by
  obtain ⟨m, k, hfin, hval⟩ := toF32_exact n hn
  calc toInteger (toF32 n) = m * 2 ^ k / unitsPerOne := by rw [hfin]; rfl
    _ = n := by rw [hval, Nat.mul_div_cancel _ unitsPerOne_pos]

theorem flt_toF32 (a b : Nat) (ha : a < 2 ^ 24) (hb : b < 2 ^ 24) :
    flt (toF32 a) (toF32 b) = decide (a < b) := by
  rw [flt, isNaN_toF32 a ha, isNaN_toF32 b hb, orderKey_toF32 a ha, orderKey_toF32 b hb]
  simp only [Nat.cast_lt, Nat.mul_lt_mul_right unitsPerOne_pos, Bool.not_false, Bool.true_and]

theorem feq_toF32 (a b : Nat) (ha : a < 2 ^ 24) (hb : b < 2 ^ 24) :
    feq (toF32 a) (toF32 b) = decide (a = b) := by
  rw [feq, isNaN_toF32 a ha, isNaN_toF32 b hb, orderKey_toF32 a ha, orderKey_toF32 b hb]
  simp only [beq_eq_decide, Nat.cast_inj, Nat.mul_left_inj unitsPerOne_pos.ne', Bool.not_false, Bool.true_and]

/-- `roundHalfAway` gives the integer whose interval from half below (inclusive) to half above (exclusive)
holds the magnitude. -/
theorem roundHalfAway_eq_iff (u n : Nat) : roundHalfAway u = n ↔
    2 * (n * unitsPerOne) ≤ 2 * u + unitsPerOne ∧ 2 * u + unitsPerOne < 2 * ((n + 1) * unitsPerOne) := by
  have hpos : 0 < 2 * unitsPerOne := Nat.mul_pos two_pos unitsPerOne_pos
  unfold roundHalfAway
  rw [Nat.div_eq_iff hpos, add_one_mul,
    show n * (2 * unitsPerOne) = 2 * (n * unitsPerOne) by ring]
  omega

/-- A whole number of ones is its own nearest integer. -/
theorem roundHalfAway_mul (n : Nat) : roundHalfAway (n * unitsPerOne) = n := by
  have hpos := unitsPerOne_pos
  rw [roundHalfAway_eq_iff, add_one_mul]
  omega

/-- A small integer's value is integral. -/
theorem fround_toF32 (n : Nat) (hn : n < 2 ^ 24) : fround (toF32 n) = toF32 n := by
  obtain ⟨m, k, hfin, hval⟩ := toF32_exact n hn
  calc fround (toF32 n) = roundNearest false (roundHalfAway (m * 2 ^ k) * unitsPerOne) 1 := by rw [hfin]; rfl
    _ = toF32 n := by rw [hval, roundHalfAway_mul]; rfl

/-- The integer nearest to a finite magnitude has at most 24 significant bits: a value of 2^23 ones or more is
an integer itself, and a smaller one has a nearest integer of at most 2^23. -/
theorem roundHalfAway_representable (m k : Nat) (hm : m < 2 ^ 24) (hk : k ≤ 253) :
    ∃ a j, a < 2 ^ 24 ∧ j ≤ 253 ∧ roundHalfAway (m * 2 ^ k) * unitsPerOne = a * 2 ^ j := by
  rcases Nat.lt_or_ge k 149 with hlt | hge
  · refine ⟨roundHalfAway (m * 2 ^ k), 149, ?_, by norm_num, rfl⟩
    obtain ⟨hlow, -⟩ := (roundHalfAway_eq_iff (m * 2 ^ k) _).1 rfl
    have hsmall : m * 2 ^ k < 2 ^ 24 * 2 ^ 148 :=
      Nat.mul_lt_mul_of_lt_of_le hm (Nat.pow_le_pow_right two_pos (by omega)) (by positivity)
    unfold unitsPerOne at hlow
    omega
  · refine ⟨m, k, hm, hk, ?_⟩
    have hwhole : m * 2 ^ k = m * 2 ^ (k - 149) * unitsPerOne := by
      rw [unitsPerOne, mul_assoc, ← pow_add, Nat.sub_add_cancel hge]
    rw [hwhole, roundHalfAway_mul]

/-- `fround` of a finite value of a pattern is a finite value of a pattern, of the same sign, and its
magnitude is the integer `roundHalfAway` gives. -/
theorem fround_fin (s : Bool) (m k : Nat) (hm : m < 2 ^ 24) (hk : k ≤ 253) :
    ∃ (u : Word) (m' k' : Nat), fround (.fin s m k) = f32 u ∧ f32 u = .fin s m' k' ∧
      m' * 2 ^ k' = roundHalfAway (m * 2 ^ k) * unitsPerOne := by
  obtain ⟨a, j, ha, hj, hrep⟩ := roundHalfAway_representable m k hm hk
  obtain ⟨m', k', hround, hval⟩ := roundNearest_exact s a j ha hj
  rw [← hrep] at hround hval
  obtain ⟨u, hu⟩ := isPatternValue_roundNearest s (roundHalfAway (m * 2 ^ k) * unitsPerOne) 1 one_pos
  exact ⟨u, m', k', hu, hu ▸ hround, hval⟩

/-- `fround` leaves what is no finite value as it is. -/
theorem fround_of_not_fin (a : Binary32) (h : ∀ s m k, a ≠ .fin s m k) : fround a = a := by
  cases a with
  | nan b => rfl
  | inf s => rfl
  | fin s m k => exact absurd rfl (h s m k)

/-- Settles O29: small integers through `toF32_exact`, `fround` through the bounds of `roundHalfAway`, and
R213's example by evaluation. -/
theorem smallIntegersConvertExactly : Obligations.SmallIntegersConvertExactly := by
  unfold Obligations.SmallIntegersConvertExactly
  refine ⟨?integers, ?finite, fun w => fround_of_not_fin (f32 w), ?columnZero⟩
  case integers =>
    intro a b ha hb
    exact ⟨flt_toF32 a b ha hb, feq_toF32 a b ha hb, fround_toF32 a ha, toInteger_toF32 a ha,
      isNaN_toF32 a ha⟩
  case finite =>
    intro w s m k hw
    obtain ⟨hm, hk, -⟩ := f32_fin w s m k hw
    obtain ⟨u, m', k', hround, hfin, hval⟩ := fround_fin s m k hm hk
    obtain ⟨hlow, hhigh⟩ := (roundHalfAway_eq_iff (m * 2 ^ k) _).1 rfl
    exact ⟨u, m', k', _, hw ▸ hround, hfin, hval, hlow, hhigh⟩
  case columnZero => decide +kernel

end Sys2Proof.Machine
end

section
/-! PROOFS. What one step of the machine can do, the engine's and the host's, and that every step keeps a good
state good (10_state.md R30, R36, R55, R58; 42_fill.md R160 to R165; 60_exceptions.md R244, R245). -/

namespace Sys2Proof.Machine

/-! ## Validations that pass -/

/-- The validation of drawing command `i` took `s` to `u`: it fixed the runs and the path state of a good walk
and wrote nothing else (42_fill.md R160, R172; 43_image.md R217). -/
structure PassedValidation (i : Instr) (s u : State) : Prop where
  fixed : u = { s with
    runs := u.runs, c := u.c, colorPm := u.colorPm, fpath := u.fpath, maskOn := u.maskOn, ipath := u.ipath
    inv := u.inv, invE := u.invE }
  surface : SurfaceUsable s.platform s.p.params
  runs : ∀ r ∈ u.runs, RunInSurface s.p.params r
  path : WalkPathOk i u
  colorPm : i ≠ .fillRect → i ≠ .fillRle → u.colorPm = s.colorPm
  invE : takesImage i = false → u.invE = s.invE

theorem drawReady_of_checkDraw (s : State) (h : checkDraw s = .ok ()) : DrawReady s := by
  obtain ⟨hblender, hsurface, hmask⟩ := (checkDraw_ok_iff s).1 h
  exact ⟨hblender, hsurface, hmask⟩

theorem passedValidation_clear (s u : State) (h : validateClear s = .ok u) : PassedValidation .clear s u := by
  unfold validateClear at h
  obtain ⟨hcheck, hu⟩ := (Except.bind_unit_ok_iff _ _ _).1 h
  have hsurface := (checkSurface_ok_iff _ _).1 hcheck
  cases hu
  exact ⟨rfl, hsurface, clearRuns_inSurface _ hsurface.width, trivial, fun _ _ => rfl, fun _ => rfl⟩

theorem passedValidation_fixFill (i : Instr) (hi : i = .fillRect ∨ i = .fillRle) (s : State) (rs : List Run)
    (hready : DrawReady s) (hruns : ∀ r ∈ rs, RunInSurface s.p.params r) :
    PassedValidation i s (fixFill s rs) := by
  obtain rfl | rfl := hi
  · exact ⟨rfl, hready.surface, hruns, ⟨rfl, rfl, rfl, hready.mask⟩, fun h _ => absurd rfl h, fun _ => rfl⟩
  · exact ⟨rfl, hready.surface, hruns, ⟨rfl, rfl, rfl, hready.mask⟩, fun _ h => absurd rfl h, fun _ => rfl⟩

theorem passedValidation_fillRect (s u : State) (h : validateFillRect s = .ok u) :
    PassedValidation .fillRect s u := by
  unfold validateFillRect at h
  simp only [Except.bind_unit_ok_iff] at h
  obtain ⟨hdraw, hbounds, hu⟩ := h
  cases hu
  exact passedValidation_fixFill _ (.inl rfl) _ _ (drawReady_of_checkDraw s hdraw)
    (regionRuns_inSurface _ hbounds)

theorem passedValidation_fillRle (s u : State) (h : validateFillRle s = .ok u) :
    PassedValidation .fillRle s u := by
  unfold validateFillRle at h
  simp only [Except.bind_ok_iff] at h
  obtain ⟨⟨⟩, hdraw, -, -, rs, hspans, hu⟩ := h
  cases hu
  exact passedValidation_fixFill _ (.inr rfl) _ _ (drawReady_of_checkDraw s hdraw)
    fun r hr => (spanRuns_ok _ _ _ _ _ _ hspans r hr).1

theorem passedValidation_fixImage (i : Instr) (hi : takesImage i = true) (s : State)
    (t : Option (MatrixRows Binary32)) (rs : List Run) (hready : DrawReady s)
    (himage : ImageUsable s.platform s.p.params)
    (hruns : ∀ r ∈ rs, RunInSurface s.p.params r ∧ (t.isNone = true → RunInImage s.p.params r)) :
    PassedValidation i s (fixImage s t rs) := by
  have hsurface : ∀ r ∈ rs, RunInSurface s.p.params r := fun r hr => (hruns r hr).1
  cases i with
  | imageRect mat =>
    cases t with
    | none => exact ⟨rfl, hready.surface, hsurface, ⟨rfl, hready.mask, himage,
        fun _ r hr => (hruns r hr).2 rfl, nofun⟩, fun _ _ => rfl, nofun⟩
    | some rows => exact ⟨rfl, hready.surface, hsurface, ⟨rfl, hready.mask, himage, nofun, fun _ => rfl⟩,
        fun _ _ => rfl, nofun⟩
  | imageRle mat =>
    cases t with
    | none => exact ⟨rfl, hready.surface, hsurface, ⟨rfl, hready.mask, himage,
        fun _ r hr => (hruns r hr).2 rfl, nofun⟩, fun _ _ => rfl, nofun⟩
    | some rows => exact ⟨rfl, hready.surface, hsurface, ⟨rfl, hready.mask, himage, nofun, fun _ => rfl⟩,
        fun _ _ => rfl, nofun⟩
  | nop | setup | clear | fillRect | fillRle => exact absurd hi (by decide)

theorem passedValidation_imageRect (mat : Bool) (s u : State) (h : validateImageRect mat s = .ok u) :
    PassedValidation (.imageRect mat) s u := by
  unfold validateImageRect at h
  simp only [Except.bind_ok_iff] at h
  obtain ⟨⟨⟩, hdraw, ⟨⟩, hcheck, t, -, ⟨⟩, hbounds, h⟩ := h
  have hsource : (t.isNone = true → checkRectSource s.p.params = .ok ()) ∧
      u = fixImage s t (regionRuns s.p.params) := by
    split at h
    · obtain ⟨⟨⟩, hsource, hu⟩ := (Except.bind_ok_iff _ _ _).1 h
      cases hu
      exact ⟨fun _ => hsource, rfl⟩
    · cases h
      exact ⟨fun ht => absurd ht ‹_›, rfl⟩
  obtain ⟨hsource, rfl⟩ := hsource
  exact passedValidation_fixImage _ rfl s t _ (drawReady_of_checkDraw s hdraw)
    ((checkImage_ok_iff _ _).1 hcheck)
    fun r hr => ⟨regionRuns_inSurface _ hbounds r hr, fun ht => regionRuns_inImage _ (hsource ht) r hr⟩

theorem passedValidation_imageRle (mat : Bool) (s u : State) (h : validateImageRle mat s = .ok u) :
    PassedValidation (.imageRle mat) s u := by
  unfold validateImageRle at h
  simp only [Except.bind_ok_iff] at h
  obtain ⟨⟨⟩, hdraw, ⟨⟩, hcheck, -, -, t, -, rs, hspans, hu⟩ := h
  cases hu
  exact passedValidation_fixImage _ rfl s t rs (drawReady_of_checkDraw s hdraw)
    ((checkImage_ok_iff _ _).1 hcheck) (spanRuns_ok _ _ _ _ _ _ hspans)

/-! ## What an engine step of a command can do -/

/-- The next states of one engine step of command `i`: nothing while idle; in VALIDATE a failure, a
completion, or the start of a walk; in WALK one group (42_fill.md R160, R164, R165; 41_setup.md R150, R151). -/
inductive EngineStep (i : Instr) (s : State) : State → Prop where
  | idle (hph : s.ph = .idle) : EngineStep i s s
  | failed (hph : s.ph = .validate) (e : ErrCode) (info : Word) : EngineStep i s (raiseError e info s)
  | nop (hph : s.ph = .validate) : EngineStep i s (completeSuccess s)
  | setupInstalled (hph : s.ph = .validate) (hi : i = .setup) (cs : ColourSpace) :
      EngineStep i s (completeSuccess { s with blCs := cs, blValid := true })
  | setupFailed (hph : s.ph = .validate) (hi : i = .setup) (info : Word) :
      EngineStep i s (raiseError .cs info { s with blValid := false })
  | empty (hph : s.ph = .validate) (u : State) (hu : PassedValidation i s u) :
      EngineStep i s (emptyWalkState u)
  | begun (hph : s.ph = .validate) (u : State) (hu : PassedValidation i s u) (hruns : u.runs ≠ [])
      (hapart : overlaps i u.p.params = false) : EngineStep i s (walkingState u)
  | group (hph : s.ph = .walk) (r : Run) (m : Memory) (hcur : s.runs[s.ri]? = some r) (hoff : s.off < r.len)
      (hmem : Memory.wf s.mem → Memory.wf m) : EngineStep i s (afterGroup s r (groupAt s r) m)

theorem engineStep_of_walkStep (i : Instr) (px : PixelFn) (s t : State) (hph : s.ph = .walk)
    (h : walkStep px s = .next t) : EngineStep i s t := by
  obtain ⟨r, vs, m, hcur, hoff, -, hm, rfl⟩ := walkStep_next px s t h
  rw [groupSize_eq_groupAt, advance_eq s r _ m hcur (groupAt_le s r hoff) hoff]
  exact .group hph r m hcur hoff (wf_storeLanes _ _ _ _ _ hm)

theorem engineStep_of_drawStep (i : Instr) (v : State → Except Halt State) (px : State → PixelFn)
    (s t : State) (hv : ∀ u, v s = .ok u → PassedValidation i s u) (h : drawStep i v px s = .next t) :
    EngineStep i s t := by
  rcases drawStep_cases i v px s with ⟨hph, e⟩ | ⟨hph, halt, -, e⟩ | ⟨hph, u, hu, e⟩ | ⟨hph, e⟩ <;>
    rw [e] at h
  · cases h; exact .idle hph
  · cases halt <;> cases h
    exact .failed hph _ _
  · have hu := hv u hu
    rcases startWalk_cases i u with ⟨-, e⟩ | ⟨-, -, e⟩ | ⟨hruns, hapart, e⟩ <;> rw [e] at h <;> cases h
    · exact .empty hph u hu
    · exact .begun hph u hu hruns hapart
  · exact engineStep_of_walkStep i _ s t hph h

theorem engineStep_of_controlStep (i : Instr) (v : State → State) (s t : State)
    (hv : s.ph = .validate → EngineStep i s (v s)) (h : controlStep v s = .next t) : EngineStep i s t := by
  unfold controlStep at h
  split at h
  next hph => cases h; exact .idle hph
  next hph => cases h; exact hv hph
  next => cases h

theorem engineStep_validateSetup (s : State) (hph : s.ph = .validate) :
    EngineStep .setup s (validateSetup s) := by
  unfold validateSetup
  split
  · exact .setupInstalled hph rfl _
  · exact .setupFailed hph rfl _

/-- `EngineStep` covers every engine step of every command. -/
theorem engineStep_of_exec (i : Instr) (s t : State) (h : exec i s = .next t) : EngineStep i s t := by
  cases i with
  | nop => exact engineStep_of_controlStep _ _ s t .nop h
  | setup => exact engineStep_of_controlStep _ _ s t (engineStep_validateSetup s) h
  | clear => exact engineStep_of_drawStep _ _ (fun _ => clearPixel) s t (passedValidation_clear s) h
  | fillRect => exact engineStep_of_drawStep _ _ _ s t (passedValidation_fillRect s) h
  | fillRle => exact engineStep_of_drawStep _ _ _ s t (passedValidation_fillRle s) h
  | imageRect mat => exact engineStep_of_drawStep _ _ _ s t (passedValidation_imageRect mat s) h
  | imageRle mat => exact engineStep_of_drawStep _ _ _ s t (passedValidation_imageRle mat s) h

/-- The engine's event: nothing while idle, the failure of an illegal word, or a step of the decoded command
(30_encoding.md R105). -/
theorem engineTurn_cases (s t : State) (h : engineTurn s = .next t) :
    (s.ph = .idle ∧ t = s) ∨ (s.ph = .validate ∧ t = raiseError .illegal s.p.cmd s) ∨
    (s.ph ≠ .idle ∧ ∃ i, decode s.p.cmd = .ok i ∧ EngineStep i s t) := by
  unfold engineTurn at h
  split at h
  next hph => cases h; exact .inl ⟨hph, rfl⟩
  next hph =>
    split at h
    next i hi => exact .inr (.inr ⟨hph, i, hi, engineStep_of_exec i s t h⟩)
    next =>
      unfold illegalStep at h
      split at h
      next hidle => exact absurd hidle hph
      next hval => cases h; exact .inr (.inl ⟨hval, rfl⟩)
      next => cases h

/-! ## What a group changes -/

/-- The three ways a group can end (42_fill.md R164). -/
theorem afterGroup_cases (s : State) (r : Run) (n : Nat) (m : Memory) :
    (s.off + n < r.len ∧ afterGroup s r n m =
      { s with mem := m, pixcount := s.pixcount + BitVec.ofNat 32 n, off := s.off + n }) ∨
    (r.len ≤ s.off + n ∧ s.ri + 1 < s.runs.length ∧ afterGroup s r n m =
      { s with mem := m, pixcount := s.pixcount + BitVec.ofNat 32 n, ri := s.ri + 1, off := 0 }) ∨
    (r.len ≤ s.off + n ∧ s.runs.length ≤ s.ri + 1 ∧ afterGroup s r n m = completeSuccess
      { s with mem := m, pixcount := s.pixcount + BitVec.ofNat 32 n, ri := s.ri + 1, off := 0 }) := by
  unfold afterGroup
  dsimp only
  split
  · exact .inl ⟨‹_›, rfl⟩
  · split
    · exact .inr (.inl ⟨by omega, ‹_›, rfl⟩)
    · exact .inr (.inr ⟨by omega, by omega, rfl⟩)

/-- A group writes memory, the count, the cursor, and the result when it is the last. -/
theorem afterGroup_eq (s : State) (r : Run) (n : Nat) (m : Memory) :
    let t := afterGroup s r n m
    t = { s with
      mem := m, pixcount := s.pixcount + BitVec.ofNat 32 n, ri := t.ri, off := t.off, ph := t.ph
      busy := t.busy, done := t.done, err := t.err, errcode := t.errcode } := by
  obtain ⟨-, e⟩ | ⟨-, -, e⟩ | ⟨-, -, e⟩ := afterGroup_cases s r n m
  · rw [e]
  · rw [e]
  · rw [e]; rfl

/-- A group of `n` pixels adds `n` to the pixels before the cursor. -/
theorem pixelsDone_afterGroup (s : State) (r : Run) (n : Nat) (m : Memory) (hcur : s.runs[s.ri]? = some r)
    (hn : s.off + n ≤ r.len) : pixelsDone (afterGroup s r n m) = pixelsDone s + n := by
  have hnext : ((s.runs.take (s.ri + 1)).map Run.len).sum = ((s.runs.take s.ri).map Run.len).sum + r.len := by
    rw [List.take_add_one, hcur]; simp
  unfold pixelsDone
  obtain ⟨-, e⟩ | ⟨hle, -, e⟩ | ⟨hle, -, e⟩ := afterGroup_cases s r n m <;> rw [e]
  · exact (Nat.add_assoc _ _ _).symm
  · dsimp only
    omega
  · simp only [completeSuccess_runs, completeSuccess_ri, completeSuccess_off]
    omega

/-! ## The engine keeps a good state good -/

/-- What every engine step leaves: the registers, the snapshot, the platform and the host's side, and the
canonical form of memory (10_state.md R61). -/
structure EngineFrame (s t : State) : Prop where
  platform : t.platform = s.platform
  params : t.params = s.params
  simdEn : t.simdEn = s.simdEn
  irqEn : t.irqEn = s.irqEn
  ovf : t.ovf = s.ovf
  p : t.p = s.p
  host : t.host = s.host
  turns : t.turns = s.turns
  rdata : t.rdata = s.rdata
  memory : Memory.wf s.mem → Memory.wf t.mem

theorem EngineFrame.refl (s : State) : EngineFrame s s := ⟨rfl, rfl, rfl, rfl, rfl, rfl, rfl, rfl, rfl, id⟩

theorem engineFrame_setBlender (s : State) (cs : ColourSpace) (b : Bool) :
    EngineFrame s { s with blCs := cs, blValid := b } := ⟨rfl, rfl, rfl, rfl, rfl, rfl, rfl, rfl, rfl, id⟩

theorem PassedValidation.frame {i : Instr} {s u : State} (h : PassedValidation i s u) : EngineFrame s u := by
  rw [h.fixed]
  exact ⟨rfl, rfl, rfl, rfl, rfl, rfl, rfl, rfl, rfl, id⟩

theorem engineFrame_afterGroup (s : State) (r : Run) (n : Nat) (m : Memory)
    (hmem : Memory.wf s.mem → Memory.wf m) : EngineFrame s (afterGroup s r n m) := by
  rw [afterGroup_eq]
  exact ⟨rfl, rfl, rfl, rfl, rfl, rfl, rfl, rfl, rfl, hmem⟩

/-- Completion writes no field of the frame. -/
theorem EngineFrame.completeSuccess {s t : State} (h : EngineFrame s t) : EngineFrame s (completeSuccess t) :=
  ⟨h.platform, h.params, h.simdEn, h.irqEn, h.ovf, h.p, h.host, h.turns, h.rdata, h.memory⟩

/-- The cursor and the phase are no fields of the frame. -/
theorem EngineFrame.startCursor {s t : State} (h : EngineFrame s t) (ph : Phase) :
    EngineFrame s { t with ri := 0, off := 0, ph := ph } :=
  ⟨h.platform, h.params, h.simdEn, h.irqEn, h.ovf, h.p, h.host, h.turns, h.rdata, h.memory⟩

theorem EngineFrame.raiseError {s t : State} (h : EngineFrame s t) (e : ErrCode) (info : Word) :
    EngineFrame s (raiseError e info t) :=
  ⟨h.platform, h.params, h.simdEn, h.irqEn, h.ovf, h.p, h.host, h.turns, h.rdata, h.memory⟩

theorem EngineStep.frame {i : Instr} {s t : State} (h : EngineStep i s t) : EngineFrame s t := by
  cases h with
  | idle => exact .refl s
  | failed _ e info => exact (EngineFrame.refl s).raiseError e info
  | nop => exact (EngineFrame.refl s).completeSuccess
  | setupInstalled _ _ cs => exact (engineFrame_setBlender s cs true).completeSuccess
  | setupFailed _ _ info => exact (engineFrame_setBlender s s.blCs false).raiseError .cs info
  | empty _ u hu => exact (hu.frame.startCursor u.ph).completeSuccess
  | begun _ u hu => exact hu.frame.startCursor .walk
  | group _ r m _ _ hmem => exact engineFrame_afterGroup s r _ m hmem

theorem State.Inv.busy_of_running {s : State} (h : s.Inv) (hph : s.ph ≠ .idle) : s.busy = true := by
  simpa [hph] using h.busy_iff

/-- A success from a running good state is good (60_exceptions.md R244). -/
theorem State.Inv.completeSuccess {s u : State} (h : s.Inv) (hph : s.ph ≠ .idle) (hf : EngineFrame s u)
    (hinfo : u.errinfo = s.errinfo) : (completeSuccess u).Inv where
  busy_iff := by simp
  not_both := by simp
  busy_clear := by simp
  done_clear _ := by
    obtain ⟨-, -, -, hzero⟩ := h.busy_clear (h.busy_of_running hph)
    exact ⟨rfl, hinfo.trans hzero⟩
  codes := by simp
  err_code := by simp
  simd := by
    show u.platform.hasSimd4 = false → u.simdEn = false ∧ u.p.simdEn = false
    rw [hf.platform, hf.simdEn, hf.p]
    exact h.simd
  memory := hf.memory h.memory
  unwalked := nofun
  walk := nofun

theorem ErrCode.code_ne_zero_and_le (e : ErrCode) : e.code ≠ 0 ∧ e.code.toNat ≤ 11 := by
  cases e <;> decide

/-- A failure from a good state is good (60_exceptions.md R245). -/
theorem State.Inv.raiseError {s u : State} (h : s.Inv) (hf : EngineFrame s u) (e : ErrCode) (info : Word) :
    (raiseError e info u).Inv where
  busy_iff := by simp
  not_both := by simp
  busy_clear := by simp
  done_clear := by simp
  codes := e.code_ne_zero_and_le.2
  err_code _ := e.code_ne_zero_and_le.1
  simd := by
    show u.platform.hasSimd4 = false → u.simdEn = false ∧ u.p.simdEn = false
    rw [hf.platform, hf.simdEn, hf.p]
    exact h.simd
  memory := hf.memory h.memory
  unwalked := nofun
  walk := nofun

/-- A state in its walk that still shows its running command's cleared result is good when its walk is. -/
theorem State.Inv.walking {s u : State} (h : s.Inv) (hph : s.ph ≠ .idle) (hf : EngineFrame s u)
    (hres : u.busy = s.busy ∧ u.done = s.done ∧ u.err = s.err ∧ u.errcode = s.errcode ∧ u.errinfo = s.errinfo)
    (huph : u.ph = .walk) (hwalk : WalkOk u) : u.Inv := by
  obtain ⟨hb, hd, he, hc, hi⟩ := hres
  have hbusy := h.busy_of_running hph
  have hclear := h.busy_clear hbusy
  rw [← hd, ← he, ← hc, ← hi] at hclear
  obtain ⟨hd, he, hc, hi⟩ := hclear
  refine ⟨?_, ?_, fun _ => ⟨hd, he, hc, hi⟩, fun _ => ⟨hc, hi⟩, ?_, ?_, ?_, hf.memory h.memory, ?_,
    fun _ => hwalk⟩
  · simp [hb, hbusy, huph]
  · simp [hd]
  · simp [hc]
  · simp [he]
  · rw [hf.platform, hf.simdEn, hf.p]; exact h.simd
  · simp [huph]

/-- A walk that begins is a good walk: its cursor is on the first pixel of the first run. -/
theorem walkOk_walkingState {i : Instr} {s u : State} (hu : PassedValidation i s u)
    (hi : decode s.p.cmd = .ok i) (hcount : s.pixcount = 0) (hruns : u.runs ≠ [])
    (hapart : overlaps i u.p.params = false) : WalkOk (walkingState u) := by
  have hf := hu.frame
  obtain ⟨r, rest, hr⟩ := List.exists_cons_of_ne_nil hruns
  have hpix : u.pixcount = s.pixcount := (congrArg State.pixcount hu.fixed :)
  refine ⟨⟨i, ?_, hu.path, hapart⟩, ?_, ?_, ⟨r, ?_, ?_⟩, ?_⟩
  · exact hf.p ▸ hi
  · show SurfaceUsable u.platform u.p.params
    rw [hf.platform, hf.p]; exact hu.surface
  · show ∀ r ∈ u.runs, RunInSurface u.p.params r
    rw [hf.p]; exact hu.runs
  · simp [walkingState, hr]
  · exact (hu.runs r (by simp [hr])).1
  · simp [walkingState, pixelsDone, hpix, hcount]

/-- A group leaves a good walk good, or completes it. -/
theorem inv_afterGroup (s : State) (r : Run) (m : Memory) (h : s.Inv) (hph : s.ph = .walk)
    (hcur : s.runs[s.ri]? = some r) (hoff : s.off < r.len) (hmem : Memory.wf s.mem → Memory.wf m) :
    (afterGroup s r (groupAt s r) m).Inv := by
  have hw := h.walk hph
  have hne : s.ph ≠ .idle := by simp [hph]
  have hle := groupAt_le s r hoff
  have hf := engineFrame_afterGroup s r (groupAt s r) m hmem
  have hcount : s.pixcount + BitVec.ofNat 32 (groupAt s r) =
      BitVec.ofNat 32 (pixelsDone (afterGroup s r (groupAt s r) m)) := by
    rw [pixelsDone_afterGroup s r _ m hcur (by omega), BitVec.ofNat_add, hw.count]
  obtain ⟨hin, e⟩ | ⟨-, hri, e⟩ | ⟨-, -, e⟩ := afterGroup_cases s r (groupAt s r) m <;> rw [e] at hf hcount ⊢
  · exact h.walking hne hf ⟨rfl, rfl, rfl, rfl, rfl⟩ hph
      ⟨hw.command, hw.surface, hw.runs, ⟨r, hcur, hin⟩, hcount⟩
  · exact h.walking hne hf ⟨rfl, rfl, rfl, rfl, rfl⟩ hph ⟨hw.command, hw.surface, hw.runs,
      ⟨s.runs[s.ri + 1], List.getElem?_eq_getElem hri, (hw.runs _ (List.getElem_mem hri)).1⟩, hcount⟩
  · exact h.completeSuccess hne ⟨rfl, rfl, rfl, rfl, rfl, rfl, rfl, rfl, rfl, hmem⟩ rfl

theorem EngineStep.inv {i : Instr} {s t : State} (h : EngineStep i s t) (hs : s.Inv)
    (hi : decode s.p.cmd = .ok i) : t.Inv := by
  have running : s.ph = .validate → s.ph ≠ .idle := fun hph => by simp [hph]
  cases h with
  | idle => exact hs
  | failed _ e info => exact hs.raiseError (.refl s) e info
  | nop hph => exact hs.completeSuccess (running hph) (.refl s) rfl
  | setupInstalled hph _ cs => exact hs.completeSuccess (running hph) (engineFrame_setBlender s cs true) rfl
  | setupFailed _ _ info => exact hs.raiseError (engineFrame_setBlender s s.blCs false) .cs info
  | empty hph u hu =>
    exact hs.completeSuccess (running hph) (hu.frame.startCursor u.ph) (congrArg State.errinfo hu.fixed :)
  | begun hph u hu hruns hapart =>
    exact hs.walking (running hph) (hu.frame.startCursor .walk)
      ⟨(congrArg State.busy hu.fixed :), (congrArg State.done hu.fixed :), (congrArg State.err hu.fixed :),
        (congrArg State.errcode hu.fixed :), (congrArg State.errinfo hu.fixed :)⟩ rfl
      (walkOk_walkingState hu hi (hs.unwalked hph) hruns hapart)
  | group hph r m hcur hoff hmem => exact inv_afterGroup s r m hs hph hcur hoff hmem

theorem inv_engineTurn (s t : State) (hs : s.Inv) (h : engineTurn s = .next t) : t.Inv := by
  obtain ⟨-, rfl⟩ | ⟨-, rfl⟩ | ⟨-, i, hi, hstep⟩ := engineTurn_cases s t h
  · exact hs
  · exact hs.raiseError (.refl s) _ _
  · exact hstep.inv hs hi

/-! ## What a host event can do -/

/-- What a host event writes that neither accepts a command nor resets: the parameter registers, CTRL, the
status bits it clears or OVF, a byte of memory, and the host's own side. -/
structure HostUpdate (s t : State) : Prop where
  written : t = { s with
    params := t.params, simdEn := t.simdEn, irqEn := t.irqEn, done := t.done, err := t.err, ovf := t.ovf
    mem := t.mem, host := t.host, turns := t.turns, rdata := t.rdata }
  done : t.done = true → s.done = true
  err : t.err = true → s.err = true
  simd : s.platform.hasSimd4 = false → t.simdEn = true → s.simdEn = true
  memory : Memory.wf s.mem → Memory.wf t.mem

/-- An update of the registers, OVF and the host's side alone. -/
theorem hostUpdate_of_eq (s t : State) (h : t = { s with
    params := t.params, ovf := t.ovf, host := t.host, turns := t.turns, rdata := t.rdata }) :
    HostUpdate s t := by
  rw [h]
  exact ⟨rfl, id, id, fun _ => id, id⟩

theorem hostUpdate_takeTurn (s : State) : HostUpdate s (takeTurn s) := hostUpdate_of_eq s _ rfl

theorem hostUpdate_writeStatus (s : State) (v : Word) : HostUpdate s (writeStatus s v) :=
  ⟨rfl, by simp +contextual, by simp +contextual, fun _ => id, id⟩

/-- A register write: an update, the acceptance of a command, or a soft reset. -/
theorem writeReg_cases (s : State) (r : Reg) (v : Word) :
    HostUpdate s (writeReg s r v) ∨ (s.busy = false ∧ writeReg s r v = accept v s) ∨
    writeReg s r v = softReset s := by
  unfold writeReg
  split
  · unfold writeCtrl
    split
    · exact .inr (.inr rfl)
    · exact .inl ⟨rfl, id, id, by simp +contextual, id⟩
  · exact .inl (hostUpdate_writeStatus s v)
  · unfold writeCmd
    split
    next => exact .inl (hostUpdate_of_eq s _ rfl)
    next hidle => exact .inr (.inl ⟨by simpa using hidle, rfl⟩)
  · exact .inl (hostUpdate_of_eq s _ rfl)

/-- A host statement: an update, the acceptance of a command, or a soft reset. -/
theorem hostStatement_cases (s t : State) (rest : List HostStmt) (st : HostStmt)
    (h : hostStatement s rest st = .next t) :
    HostUpdate s t ∨ (∃ w, s.busy = false ∧ t = accept w s) ∨ t = softReset s := by
  have write : ∀ r v, HostUpdate s (writeReg s r v) ∨ (∃ w, s.busy = false ∧ writeReg s r v = accept w s) ∨
      writeReg s r v = softReset s := fun r v => (writeReg_cases s r v).imp_right (.imp_left fun h => ⟨v, h⟩)
  have read : ∀ v, HostUpdate s (hostRead s v) := fun v => hostUpdate_of_eq s _ rfl
  cases st with
  | wr r v => cases h; exact write r v
  | rd r => cases h; exact .inl (read _)
  | cmd i => cases h; exact write .cmd (encode i)
  | wait => cases h; exact .inl (hostUpdate_of_eq s _ rfl)
  | busWrite addr bytes v =>
    dsimp only [hostStatement] at h
    split at h
    · cases h; exact .inl (hostUpdate_of_eq s _ rfl)
    · cases h; exact write _ v
  | busRead addr bytes =>
    dsimp only [hostStatement] at h
    split at h
    · cases h; exact .inl (read _)
    · cases h; exact .inl (read _)
  | memWrite a v =>
    dsimp only [hostStatement] at h
    split at h
    · cases h; exact .inl ⟨rfl, id, id, fun _ => id, wf_writeByte _ _ _ a.isLt⟩
    · cases h
  | memRead a =>
    dsimp only [hostStatement] at h
    split at h
    · cases h; exact .inl (read _)
    · cases h

/-! ## The host keeps a good state good -/

/-- An update leaves a good state good. -/
theorem HostUpdate.inv {s t : State} (hu : HostUpdate s t) (h : s.Inv) : t.Inv := by
  have hwalk : s.ph = .walk → WalkOk t := fun hph => by
    have hw := h.walk hph
    rw [hu.written]
    exact ⟨hw.command, hw.surface, hw.runs, hw.cursor, hw.count⟩
  obtain ⟨e, hdone, herr, hsimd, hmem⟩ := hu
  have hbusy : t.busy = s.busy := (congrArg State.busy e :)
  have hph : t.ph = s.ph := (congrArg State.ph e :)
  have hcode : t.errcode = s.errcode := (congrArg State.errcode e :)
  have hinfo : t.errinfo = s.errinfo := (congrArg State.errinfo e :)
  have hpix : t.pixcount = s.pixcount := (congrArg State.pixcount e :)
  have hplat : t.platform = s.platform := (congrArg State.platform e :)
  have hp : t.p = s.p := (congrArg State.p e :)
  constructor
  case busy_iff => rw [hbusy, hph]; exact h.busy_iff
  case not_both => exact fun ⟨hd, he⟩ => h.not_both ⟨hdone hd, herr he⟩
  case busy_clear =>
    rw [hbusy, hcode, hinfo]
    intro hb
    obtain ⟨hd, he, hres⟩ := h.busy_clear hb
    exact ⟨by simpa [hd] using hdone, by simpa [he] using herr, hres⟩
  case done_clear => rw [hcode, hinfo]; exact fun hd => h.done_clear (hdone hd)
  case codes => rw [hcode]; exact h.codes
  case err_code => rw [hcode]; exact fun he => h.err_code (herr he)
  case simd =>
    rw [hplat, hp]
    intro hno
    obtain ⟨hen, hsnap⟩ := h.simd hno
    exact ⟨by simpa [hen] using hsimd hno, hsnap⟩
  case memory => exact hmem h.memory
  case unwalked => rw [hph, hpix]; exact h.unwalked
  case walk => rw [hph]; exact hwalk

/-- Acceptance leaves a good state good (30_encoding.md R103). -/
theorem inv_accept (w : Word) (s : State) (h : s.Inv) : (accept w s).Inv where
  busy_iff := by simp
  not_both := by simp
  busy_clear := by simp
  done_clear := by simp
  codes := by simp
  err_code := by simp
  simd hno := ⟨(h.simd hno).1, by simp [snapshot, simdBit, (h.simd hno).1]⟩
  memory := h.memory
  unwalked _ := rfl
  walk := nofun

/-- A soft reset over a memory in canonical form leaves a good state (70_reset_and_hazards.md R281). -/
theorem inv_softReset (s : State) (h : Memory.wf s.mem) : (softReset s).Inv where
  busy_iff := ⟨fun _ => rfl, fun _ => rfl⟩
  not_both := nofun
  busy_clear := nofun
  done_clear := nofun
  codes := Nat.zero_le 11
  err_code := nofun
  simd _ := ⟨rfl, rfl⟩
  memory := h
  unwalked := nofun
  walk := nofun

theorem inv_hostTurn (s t : State) (hs : s.Inv) (h : hostTurn s = .next t) : t.Inv := by
  unfold hostTurn at h
  split at h
  · cases h; exact hs
  next st rest _ =>
    have hpop : State.Inv { s with host := rest } := (hostUpdate_of_eq s _ rfl).inv hs
    obtain hu | ⟨w, -, rfl⟩ | rfl := hostStatement_cases _ _ _ _ h
    · exact hu.inv hpop
    · exact inv_accept w _ hpop
    · exact inv_softReset _ hpop.memory

/-- Settles O51: the machine after power-on is its own soft reset. -/
theorem resetStateIsGood : Obligations.ResetStateIsGood :=
  inv_softReset State.reset ⟨List.Pairwise.nil, nofun⟩

/-- Settles O52, by the agent of the step: the engine by the cases of `EngineStep`, the host by the cases of
`hostStatement_cases`. -/
theorem everyStepKeepsAGoodState : Obligations.EveryStepKeepsAGoodState := by
  intro s t hs h
  have hturn : (takeTurn s).Inv := (hostUpdate_takeTurn s).inv hs
  unfold step agentTurn at h
  split at h
  · exact inv_hostTurn _ t hturn h
  · exact inv_engineTurn _ t hturn h

/-! ## What no engine step of a command writes -/

section Frame

variable {i : Instr} {s t : State} (h : EngineStep i s t)
include h

/-- Only SETUP writes the blender (10_state.md R54). -/
theorem EngineStep.blender (hi : i ≠ .setup) : t.blValid = s.blValid ∧ t.blCs = s.blCs := by
  cases h with
  | idle | failed | nop => exact ⟨rfl, rfl⟩
  | setupInstalled _ hsetup | setupFailed _ hsetup => exact absurd hsetup hi
  | empty _ u hu | begun _ u hu =>
    exact ⟨(congrArg State.blValid hu.fixed :), (congrArg State.blCs hu.fixed :)⟩
  | group _ r m => rw [afterGroup_eq]; exact ⟨rfl, rfl⟩

/-- Only a FILL writes COLOR_PM (10_state.md R45). -/
theorem EngineStep.colorPm (hrect : i ≠ .fillRect) (hrle : i ≠ .fillRle) : t.colorPm = s.colorPm := by
  cases h with
  | idle | failed | nop | setupInstalled | setupFailed => rfl
  | empty _ u hu | begun _ u hu => exact hu.colorPm hrect hrle
  | group _ r m => rw [afterGroup_eq]

/-- Only an image command writes INV_E11 to INV_E23 (10_state.md R52). -/
theorem EngineStep.invE (hi : takesImage i = false) : t.invE = s.invE := by
  cases h with
  | idle | failed | nop | setupInstalled | setupFailed => rfl
  | empty _ u hu | begun _ u hu => exact hu.invE hi
  | group _ r m => rw [afterGroup_eq]

/-- Only a walk writes memory and PIXCOUNT (10_state.md R36). -/
theorem EngineStep.unwalked (hph : s.ph ≠ .walk) : t.mem = s.mem ∧ t.pixcount = s.pixcount := by
  cases h with
  | idle | failed | nop | setupInstalled | setupFailed => exact ⟨rfl, rfl⟩
  | empty _ u hu | begun _ u hu =>
    exact ⟨(congrArg State.mem hu.fixed :), (congrArg State.pixcount hu.fixed :)⟩
  | group hwalk => exact absurd hwalk hph

/-- A walk leaves what its validation fixed. -/
theorem EngineStep.walked (hph : s.ph = .walk) :
    t.colorPm = s.colorPm ∧ t.invE = s.invE ∧ t.errinfo = s.errinfo ∧ t.runs = s.runs := by
  cases h with
  | group _ r m => rw [afterGroup_eq]; exact ⟨rfl, rfl, rfl, rfl⟩
  | idle hother | failed hother | nop hother | setupInstalled hother | setupFailed hother | empty hother
  | begun hother => simp [hph] at hother

end Frame

/-- Settles O56, part by part, by the cases of `EngineStep`. -/
theorem commandsWriteOnlyTheirOwnState : Obligations.CommandsWriteOnlyTheirOwnState := by
  intro i s t h
  have hstep := engineStep_of_exec i s t h
  have hf := hstep.frame
  exact ⟨hf.params, hf.simdEn, hf.irqEn, hf.ovf, hf.p, hf.platform, hf.host, hf.turns, hf.rdata,
    hstep.blender, hstep.colorPm, hstep.invE, hstep.unwalked, hstep.walked⟩

/-! ## The interrupt line -/

/-- An engine step leaves BUSY, DONE and ERR as they are, or completes the command with one of them set. -/
theorem EngineStep.result {i : Instr} {s t : State} (h : EngineStep i s t) :
    (t.busy = s.busy ∧ t.done = s.done ∧ t.err = s.err) ∨ (t.busy = false ∧ (t.done || t.err) = true) := by
  cases h with
  | idle => exact .inl ⟨rfl, rfl, rfl⟩
  | failed | nop | setupInstalled | setupFailed | empty => exact .inr ⟨rfl, rfl⟩
  | begun _ u hu => exact .inl ⟨(congrArg State.busy hu.fixed :), (congrArg State.done hu.fixed :),
      (congrArg State.err hu.fixed :)⟩
  | group _ r m =>
    obtain ⟨-, e⟩ | ⟨-, -, e⟩ | ⟨-, -, e⟩ := afterGroup_cases s r (groupAt s r) m <;> rw [e]
    · exact .inl ⟨rfl, rfl, rfl⟩
    · exact .inl ⟨rfl, rfl, rfl⟩
    · exact .inr ⟨rfl, rfl⟩

/-- The engine's event leaves IRQ_EN, and leaves the result or completes the command. -/
theorem engineTurn_result (s t : State) (h : engineTurn s = .next t) : t.irqEn = s.irqEn ∧
    ((t.busy = s.busy ∧ t.done = s.done ∧ t.err = s.err) ∨ (t.busy = false ∧ (t.done || t.err) = true)) := by
  obtain ⟨-, rfl⟩ | ⟨-, rfl⟩ | ⟨-, i, -, hstep⟩ := engineTurn_cases s t h
  · exact ⟨rfl, .inl ⟨rfl, rfl, rfl⟩⟩
  · exact ⟨rfl, .inr ⟨rfl, rfl⟩⟩
  · exact ⟨hstep.frame.irqEn, hstep.result⟩

/-- Settles O15: a running command shows no result, and the engine step that clears BUSY sets DONE or ERR. The
host's events are evaluated. -/
theorem interruptRisesAtCompletion : Obligations.InterruptRisesAtCompletion := by
  refine ⟨fun s t hs hagent hph h => ?_, fun s => ⟨fun w hbusy => ?_, ?_, ?_, ?_, rfl⟩⟩
  · have hbusy := hs.busy_of_running hph
    obtain ⟨hdone, herr, -, -⟩ := hs.busy_clear hbusy
    have hirq : s.irq = false := by simp [State.irq, hdone, herr]
    unfold step at h
    rw [hagent] at h
    obtain ⟨hen, ⟨hb, hd, he⟩ | ⟨hb, hde⟩⟩ := engineTurn_result _ t h
    · exact ⟨hirq, by simp [State.irq, hb, hd, he, hbusy, hdone, herr]⟩
    · exact ⟨hirq, by simp [State.irq, hen, hb, hde]⟩
  · simp [State.irq, writeReg, writeCmd, hbusy]
  · simp [State.irq, writeReg]
  · simp [State.irq, writeReg, writeCtrl]
  · simp [State.irq, writeReg, writeCtrl]

end Sys2Proof.Machine
end

section
/-! PROOFS. The statements of 10_state.md about the register window: what each register reads and what a write
to it does (R21 to R53), soft reset (R63; 70_reset_and_hazards.md R281) and bus accesses (R21, R22). -/

namespace Sys2Proof.Machine

/-! ## Fields of a joined word -/

/-! A word joined from single bits and from fields of four, read from its low end. -/

theorem getLsbD_append_ofBool {w : Nat} (x : BitVec w) (b : Bool) (j : Nat) :
    (x ++ BitVec.ofBool b).getLsbD j = if j = 0 then b else x.getLsbD (j - 1) := by
  rw [BitVec.getLsbD_append]
  cases j <;> simp

theorem getLsbD_append_four {w : Nat} (x : BitVec w) (y : BitVec 4) (j : Nat) :
    (x ++ y).getLsbD j = if j < 4 then y.getLsbD j else x.getLsbD (j - 4) := by
  rw [BitVec.getLsbD_append]

theorem extractLsb'_append_ofBool {w : Nat} (x : BitVec w) (b : Bool) (k n : Nat) :
    (x ++ BitVec.ofBool b).extractLsb' (k + 1) n = x.extractLsb' k n :=
  BitVec.extractLsb'_append_eq_of_le (by omega)

theorem extractLsb'_append_four {w : Nat} (x : BitVec w) (y : BitVec 4) (k n : Nat) :
    (x ++ y).extractLsb' (k + 4) n = x.extractLsb' k n :=
  BitVec.extractLsb'_append_eq_of_le (by omega)

theorem extractLsb'_append_four_low {w : Nat} (x : BitVec w) (y : BitVec 4) :
    (x ++ y).extractLsb' 0 4 = y :=
  BitVec.extractLsb'_append_eq_right

/-- Narrowing a word to `k` bits and widening it again keeps its low `k` bits. -/
theorem setWidth_setWidth_eq_and (v : Word) (k : Nat) (hk : k ≤ 32) :
    (v.setWidth k).setWidth 32 = v &&& BitVec.ofNat 32 (2 ^ k - 1) := by
  have hpos := Nat.two_pow_pos k
  have hpow : 2 ^ k ≤ 2 ^ 32 := Nat.pow_le_pow_right two_pos hk
  have hmod : v.toNat % 2 ^ k < 2 ^ 32 := lt_of_lt_of_le (Nat.mod_lt _ hpos) hpow
  apply BitVec.eq_of_toNat_eq
  rw [BitVec.toNat_and, BitVec.toNat_ofNat, Nat.mod_eq_of_lt (by omega), Nat.and_two_pow_sub_one_eq_mod,
    BitVec.toNat_setWidth, BitVec.toNat_setWidth, Nat.mod_eq_of_lt hmod]

/-! ## What each register reads, and what a write to it is -/

theorem readReg_status (s : State) : readReg s .status = statusWord s := rfl

theorem readReg_caps (s : State) : readReg s .caps = if s.platform.hasSimd4 = true then 1 else 0 := by
  show (0 : BitVec 31) ++ BitVec.ofBool s.platform.hasSimd4 = _
  cases s.platform.hasSimd4 <;> rfl

theorem writeReg_ctrl (s : State) (v : Word) : writeReg s .ctrl v = writeCtrl v s := rfl

theorem writeReg_status (s : State) (v : Word) : writeReg s .status v = writeStatus s v := rfl

theorem writeReg_readOnly (s : State) (v : Word) : ∀ r ∈ [Reg.id, .caps, .pixcount, .errinfo, .colorPm,
    .inv11, .inv12, .inv13, .inv21, .inv22, .inv23], writeReg s r v = s := by
  simp only [List.forall_mem_cons]
  exact ⟨rfl, rfl, rfl, rfl, rfl, rfl, rfl, rfl, rfl, rfl, rfl, nofun⟩

/-- Settles O11: each register reads its field by definition, and a write to a read-only one leaves the
parameter registers as they are. -/
theorem identityRegistersAreConstant : Obligations.IdentityRegistersAreConstant :=
  ⟨rfl, rfl, fun s => ⟨rfl, readReg_caps s, rfl, rfl, rfl, rfl, rfl, rfl, rfl, rfl, rfl, rfl,
    writeReg_readOnly s⟩⟩

/-! ## STATUS -/

/-- Settles O8: clearing where a 1 is written is choosing 0 there. -/
theorem statusWriteClearsWrittenOnes : Obligations.StatusWriteClearsWrittenOnes := by
  have choice (a b : Bool) : (a && !b) = if b = true then false else a := by cases b <;> simp
  intro s rest v
  rw [hostStatement, writeReg_status, writeStatus]
  simp only [choice]

/-- The single bits of STATUS (10_state.md R27, R33). -/
theorem statusWord_bits (s : State) :
    (statusWord s).getLsbD 0 = s.busy ∧ (statusWord s).getLsbD 1 = s.done ∧ (statusWord s).getLsbD 2 = s.err ∧
    (statusWord s).getLsbD 3 = s.ovf ∧ (statusWord s).getLsbD 16 = s.blValid ∧
    (statusWord s).getLsbD 17 = s.blCs.bit := by
  unfold statusWord
  simp only [getLsbD_append_ofBool, getLsbD_append_four]
  exact ⟨rfl, rfl, rfl, rfl, rfl, rfl⟩

/-- ERRCODE and the reserved fields of STATUS (10_state.md R27). -/
theorem statusWord_fields (s : State) :
    (statusWord s).extractLsb' 4 4 = 0 ∧ (statusWord s).extractLsb' 8 4 = s.errcode ∧
    (statusWord s).extractLsb' 12 4 = 0 ∧ (statusWord s).extractLsb' 18 14 = 0 := by
  unfold statusWord
  simp only [extractLsb'_append_ofBool, extractLsb'_append_four, extractLsb'_append_four_low, true_and]
  rfl

theorem bit_eq_decide (cs : ColourSpace) : cs.bit = decide (cs = .abgr8888) := by cases cs <;> rfl

/-- Settles O9, field by field of the joined word. -/
theorem statusReadShowsEachField : Obligations.StatusReadShowsEachField := by
  intro s
  obtain ⟨hbusy, hdone, herr, hovf, hvalid, hcs⟩ := statusWord_bits s
  obtain ⟨hlow, hcode, hmid, hhigh⟩ := statusWord_fields s
  dsimp only
  rw [readReg_status]
  exact ⟨hbusy, hdone, herr, hovf, hlow, hcode, hmid, hvalid, hcs.trans (bit_eq_decide _), hhigh,
    fun _ => ⟨rfl, rfl⟩⟩

/-! ## CTRL -/

/-- Bit `j` of CTRL (10_state.md R25). -/
theorem getLsbD_ctrlWord (s : State) (j : Nat) :
    (ctrlWord s).getLsbD j = if j = 0 then simdBit s else if j = 1 then s.irqEn else false := by
  unfold ctrlWord
  simp only [getLsbD_append_ofBool, BitVec.ofNat_eq_ofNat, BitVec.getLsbD_zero]
  match j with
  | 0 => rfl
  | 1 => rfl
  | j + 2 => rfl

/-- The reserved bits of CTRL read 0. -/
theorem ctrlWord_reserved (s : State) : ctrlWord s &&& 0xFFFFFFFC = 0 := by
  unfold ctrlWord
  cases s.irqEn <;> cases simdBit s <;> rfl

/-- A CTRL write without SRST sets its two bits (10_state.md R25). -/
theorem writeCtrl_of_not_srst (s : State) (v : Word) (hv : v.getLsbD 2 = false) : writeCtrl v s =
    { s with simdEn := v.getLsbD 0 && s.platform.hasSimd4, irqEn := v.getLsbD 1 } := by
  rw [writeCtrl, if_neg (ne_true_of_eq_false hv)]

/-- CTRL reads what was written, SIMD_EN only with the combiner (00_scope.md R7). -/
theorem ctrlWord_writeCtrl (s : State) (v : Word) (hv : v.getLsbD 2 = false) :
    ctrlWord (writeCtrl v s) = v &&& (if s.platform.hasSimd4 = true then 3 else 2) := by
  rw [writeCtrl_of_not_srst s v hv]
  apply BitVec.eq_of_getLsbD_eq
  intro j _
  rw [getLsbD_ctrlWord, BitVec.getLsbD_and]
  cases hsimd : s.platform.hasSimd4 <;>
    match j with
    | 0 => simp [simdBit, hsimd]
    | 1 => simp
    | j + 2 => simp [BitVec.getLsbD_ofNat, Nat.testBit_succ]

/-- Settles O12. -/
theorem controlWriteSetsItsTwoBits : Obligations.ControlWriteSetsItsTwoBits :=
  fun s v => ⟨fun hv => ⟨writeCtrl_of_not_srst s v hv, ctrlWord_writeCtrl s v hv⟩, ctrlWord_reserved s⟩

/-! ## Soft reset -/

/-- After a soft reset every register but ID and CAPS reads 0 (10_state.md R63). -/
theorem readReg_softReset (s : State) (r : Reg) (hid : r ≠ .id) (hcaps : r ≠ .caps) :
    readReg (softReset s) r = 0 := by
  cases r
  case id => exact absurd rfl hid
  case caps => exact absurd rfl hcaps
  case ctrl => show ctrlWord State.reset = 0; decide
  case status => show statusWord State.reset = 0; decide
  all_goals rfl

/-- Settles O13: the machine after power-on is its own soft reset. -/
theorem resetLeavesTheSpecifiedValues : Obligations.ResetLeavesTheSpecifiedValues := by
  intro s v hv
  have hwrite : writeReg s .ctrl v = softReset s := by rw [writeReg_ctrl, writeCtrl, if_pos hv]
  rw [hwrite, show State.reset = softReset State.reset from rfl]
  refine ⟨rfl, rfl, fun t ht => ?_⟩
  obtain ⟨u, rfl⟩ : ∃ u, t = softReset u := by
    simp only [List.mem_cons, List.not_mem_nil, or_false] at ht
    exact ht.elim (⟨_, ·⟩) (⟨_, ·⟩)
  exact ⟨readReg_softReset u, rfl, rfl, rfl, rfl, rfl, rfl, rfl, rfl, rfl, rfl, rfl, rfl⟩

/-! ## Parameter registers -/

/-- A parameter register holds the implemented bits of what was written (10_state.md R21, R38 to R51). -/
theorem Params.read_write_self (p : Params) (v : Word) (r : Reg) (hr : implementedBits r ≠ 0) :
    (p.write v r).read r = some (v &&& implementedBits r) := by
  have full : v = v &&& 0xFFFFFFFF := by simpa using setWidth_setWidth_eq_and v 32 le_rfl
  cases r with
  | surfW | surfH | imgW | imgH => exact congrArg some (setWidth_setWidth_eq_and v 16 (by decide))
  | surfCs | imgOpacity => exact congrArg some (setWidth_setWidth_eq_and v 8 (by decide))
  | maskMethod => exact congrArg some (setWidth_setWidth_eq_and v 2 (by decide))
  | surfBase | surfStride | maskBase | colorIn | bboxMin | bboxMax | rleBase | rleCount | imgBase | imgStride
  | imgOrigin | m11 | m12 | m13 | m21 | m22 | m23 | m31 | m32 | m33 => exact congrArg some full
  | id | caps | ctrl | status | cmd | pixcount | errinfo | colorPm | inv11 | inv12 | inv13 | inv21 | inv22
  | inv23 => exact absurd rfl hr

/-- Each parameter register has a field of its own: one pair of registers a case. -/
theorem Params.read_write_of_ne (p : Params) (v : Word) (r q : Reg) (hq : q ≠ r) :
    (p.write v r).read q = p.read q := by
  cases r <;> cases q <;> try rfl
  all_goals exact absurd rfl hq

/-- A write to a parameter register writes the parameter registers alone (10_state.md R53). -/
theorem writeReg_of_implemented (s : State) (r : Reg) (v : Word) (hr : implementedBits r ≠ 0) :
    writeReg s r v = { s with params := s.params.write v r } := by
  unfold writeReg
  split
  · exact absurd rfl hr
  · exact absurd rfl hr
  · exact absurd rfl hr
  · rfl

/-- The registers that are no parameter registers read nothing of the parameter registers. -/
theorem readControl_setParams (s : State) (p : Params) (q : Reg) :
    readControl { s with params := p } q = readControl s q := by
  cases q <;> rfl

/-- Settles O10, from what each parameter register reads after a write. -/
theorem parameterWriteReadsBackAlone : Obligations.ParameterWriteReadsBackAlone := by
  intro s r v hr
  rw [writeReg_of_implemented s r v hr]
  refine ⟨?_, fun q hq => ?_, rfl⟩
  · rw [readReg, Params.read_write_self _ _ _ hr, Option.getD_some]
  · rw [readReg, Params.read_write_of_ne _ _ _ _ hq, readControl_setParams, readReg]

/-! ## Bus accesses -/

theorem mem_allRegs (r : Reg) : r ∈ allRegs := by cases r <;> decide

/-- Every offset is aligned and in the 256-byte window (10_state.md R21). -/
theorem regOffset_aligned_and_lt (r : Reg) : regOffset r % 4 = 0 ∧ regOffset r < 0x100 := by
  cases r <;> decide

theorem regAt_regOffset (r : Reg) : regAt (regOffset r) = some r := by cases r <;> rfl

theorem regAt_eq_none (off : Nat) (h : ∀ r, off ≠ regOffset r) : regAt off = none :=
  List.find?_eq_none.2 fun r _ => by simpa using (h r).symm

theorem windowOffset_inside (pl : Platform) (off : Nat) (h : off < 0x100) :
    windowOffset pl (pl.pcdBase + off) = some off := by
  rw [windowOffset, if_pos (by omega), Nat.add_sub_cancel_left]

theorem windowOffset_outside (pl : Platform) (addr : Nat)
    (h : addr < pl.pcdBase ∨ pl.pcdBase + 0x100 ≤ addr) : windowOffset pl addr = none := if_neg (by omega)

/-- An aligned 4-byte access at a register's offset reaches that register. -/
theorem busTarget_register (pl : Platform) (r : Reg) :
    busTarget pl (pl.pcdBase + regOffset r) 4 = some r := by
  obtain ⟨haligned, hlt⟩ := regOffset_aligned_and_lt r
  rw [busTarget, windowOffset_inside pl _ hlt]
  exact (if_pos ⟨rfl, haligned⟩).trans (regAt_regOffset r)

/-- An access of another width, or at no register's offset, reaches none. -/
theorem busTarget_reserved (pl : Platform) (off bytes : Nat) (hlt : off < 0x100)
    (h : bytes ≠ 4 ∨ ∀ r, off ≠ regOffset r) : busTarget pl (pl.pcdBase + off) bytes = none := by
  rw [busTarget, windowOffset_inside pl _ hlt]
  dsimp only
  split
  next ok => exact regAt_eq_none off (h.resolve_left (absurd ok.1))
  next => rfl

theorem busTarget_outside (pl : Platform) (addr bytes : Nat)
    (h : addr < pl.pcdBase ∨ pl.pcdBase + 0x100 ≤ addr) : busTarget pl addr bytes = none := by
  rw [busTarget, windowOffset_outside pl addr h]

/-- A bus access that reaches a register writes or reads it. -/
theorem hostStatement_bus_some (s : State) (rest : List HostStmt) (addr bytes : Nat) (v : Word) (r : Reg)
    (h : busTarget s.platform addr bytes = some r) :
    hostStatement s rest (.busWrite addr bytes v) = .next (writeReg s r v) ∧
    hostStatement s rest (.busRead addr bytes) = .next { s with rdata := readReg s r } := by
  simp only [hostStatement, h, hostRead, and_self]

/-- A bus access that reaches no register is ignored as a write and returns 0 as a read. -/
theorem hostStatement_bus_none (s : State) (rest : List HostStmt) (addr bytes : Nat) (v : Word)
    (h : busTarget s.platform addr bytes = none) :
    hostStatement s rest (.busWrite addr bytes v) = .next s ∧
    hostStatement s rest (.busRead addr bytes) = .next { s with rdata := 0 } := by
  simp only [hostStatement, h, hostRead, and_self]

/-- Settles O14: the table is every register with its offset, and the rest is where a bus access leads. -/
theorem busAccessReachesOneRegister : Obligations.BusAccessReachesOneRegister := by
  unfold Obligations.BusAccessReachesOneRegister
  intro map s rest v base
  have hmap : map = allRegs.map fun r => (r, regOffset r) := rfl
  have hoffset : ∀ e ∈ map, e.2 = regOffset e.1 := by rw [hmap]; simp
  have hlisted : ∀ r, (r, regOffset r) ∈ map := fun r => by
    rw [hmap]; exact List.mem_map_of_mem (mem_allRegs r)
  refine ⟨hlisted, fun e he => ?_, fun off bytes hlt h => ?_, fun addr bytes h => ?_⟩
  · rw [hoffset e he]
    exact ⟨rfl, rfl, hostStatement_bus_some s rest _ 4 v e.1 (busTarget_register s.platform e.1)⟩
  · exact hostStatement_bus_none s rest _ bytes v (busTarget_reserved s.platform off bytes hlt
      (h.imp_right fun h r => h _ (hlisted r)))
  · exact hostStatement_bus_none s rest addr bytes v (busTarget_outside s.platform addr bytes h)

end Sys2Proof.Machine
end

section
/-! PROOFS. A walk with the 4-lane combiner against the scalar walk (40_color_algebra.md R134;
42_fill.md R163, R164): a group of four lanes, all read before any is stored, does what four groups of one do,
since no lane's pixel is read for another lane and no source byte lies in the surface (20_memory.md R92). -/

namespace Sys2Proof.Machine

/-! ## Reads that agree -/

/-- A word depends on its four bytes alone. -/
theorem wordAt_congr (m m' : Memory) (a : Nat) (h : ∀ k < 4, readByte m' (a + k) = readByte m (a + k)) :
    wordAt m' a = wordAt m a := by
  have h0 : readByte m' a = readByte m a := h 0 (by decide)
  rw [wordAt, wordAt, h 3 (by decide), h 2 (by decide), h 1 (by decide), h0]

/-- A byte of memory is the byte of every word it lies in. -/
theorem readByte_eq_byteOf_wordAt (m : Memory) (a k : Nat) (hk : k < 4) :
    readByte m (a + k) = byteOf (wordAt m a) k := by
  obtain ⟨h3, h2, h1, h0⟩ := byteOf_pack (readByte m (a + 3)) (readByte m (a + 2)) (readByte m (a + 1))
    (readByte m a)
  match k, hk with
  | 0, _ => exact h0.symm
  | 1, _ => exact h1.symm
  | 2, _ => exact h2.symm
  | 3, _ => exact h3.symm

theorem readWord_congr (m m' : Memory) (a : Nat) (h : wordAt m' a = wordAt m a) :
    readWord m' a = readWord m a := by
  rw [readWord, readWord, h]

/-- The bytes of a pixel inside a buffer lie in the buffer's range (20_memory.md R74 to R77). -/
theorem has_pixelByte (base w h stride x y k : Nat) (hx : x < w) (hy : y < h) (hk : k < 4) :
    (ByteRange.mk base (extent w h stride)).has (base + 4 * (y * stride + x) + k) = true := by
  have hrow : y * stride ≤ (h - 1) * stride := Nat.mul_le_mul_right _ (by omega)
  rw [ByteRange.has, extent_of_pos w h stride (by omega), Bool.and_eq_true, decide_eq_true_eq,
    decide_eq_true_eq]
  dsimp only
  omega

/-- Memories that agree on all that pixel `(x, y)` of command `i` may read: its destination word and the
command's sources (20_memory.md R80). -/
structure AgreeFor (i : Instr) (p : Params) (x y : Nat) (m m' : Memory) : Prop where
  dest : wordAt m' (p.dstAddr x y) = wordAt m (p.dstAddr x y)
  source : ∀ a, SourceByte i p a → readByte m' a = readByte m a

theorem maskFactorAt_congr (i : Instr) (p : Params) (x y : Nat) (m m' : Memory) (h : AgreeFor i p x y m m')
    (hi : takesMask i = true) (hx : x < p.surfW.toNat) (hy : y < p.surfH.toNat) :
    maskFactorAt p m' x y = maskFactorAt p m x y := by
  unfold maskFactorAt
  cases hk : maskKind p.maskMethod with
  | none => rfl
  | some kind =>
    have hmethod := (maskKind_isSome_iff _).1 (Option.isSome_of_mem hk)
    have hword := wordAt_congr m m' (p.maskAddr x y) fun k hk =>
      h.source _ (.inl ⟨hi, hmethod, has_pixelByte _ _ _ _ _ _ _ hx hy hk⟩)
    dsimp only
    rw [readWord_congr _ _ _ hword]

theorem readImagePixel_congr (i : Instr) (p : Params) (x y : Nat) (m m' : Memory) (h : AgreeFor i p x y m m')
    (hi : takesImage i = true) (sx sy : Int) : readImagePixel p m' sx sy = readImagePixel p m sx sy := by
  unfold readImagePixel
  split
  next hin =>
    exact readWord_congr _ _ _ (wordAt_congr _ _ _ fun k hk =>
      h.source _ (.inr (.inl ⟨hi, has_pixelByte _ _ _ _ _ _ _ (by omega) (by omega) hk⟩)))
  next => rfl

/-! ## The pixel function of a command -/

/-- The pixel function of a command's walk (42_fill.md R175, R178; 43_image.md R216). NOP and SETUP have no
walk: they skip. -/
def pixelOf : Instr → State → PixelFn
  | .nop | .setup => fun _ _ _ _ => .ok none
  | .clear => fun _ => clearPixel
  | .fillRect | .fillRle => fillPixel
  | .imageRect _ => imageRectPixel
  | .imageRle _ => imageRlePixel

/-- A walk step of a drawing command is one group under its pixel function. -/
theorem exec_walk (i : Instr) (hi : draws i = true) (s : State) (hph : s.ph = .walk) :
    exec i s = walkStep (pixelOf i s) s := by
  cases i with
  | nop | setup => exact absurd hi (by decide)
  | clear => exact drawStep_walk _ _ (fun _ => clearPixel) s hph
  | fillRect | fillRle | imageRect | imageRle => exact drawStep_walk _ _ _ s hph

/-- An image command takes the mask operand too (20_memory.md R80). -/
theorem takesMask_of_takesImage {i : Instr} (hi : takesImage i = true) : takesMask i = true := by
  cases i with
  | nop | setup | clear | fillRect | fillRle => exact absurd hi (by decide)
  | imageRect | imageRle => rfl

section Agree

variable {i : Instr} {s : State} {m : Memory} {x y : Nat} (h : AgreeFor i s.p.params x y s.mem m)
  (hx : x < s.p.params.surfW.toNat) (hy : y < s.p.params.surfH.toNat)
include h hx hy

theorem fillPixel_congr (hi : takesMask i = true) (cov : Byte) :
    fillPixel { s with mem := m } x y cov = fillPixel s x y cov := by
  have hdest := readWord_congr _ _ _ h.dest
  have hmask := maskFactorAt_congr i _ x y _ _ h hi hx hy
  unfold fillPixel
  dsimp only
  rw [hdest, hmask]

theorem imagePixelWeighted_congr (hi : takesImage i = true) (k : Byte) :
    imagePixelWeighted { s with mem := m } k x y = imagePixelWeighted s k x y := by
  have hdest := readWord_congr _ _ _ h.dest
  have hmask := maskFactorAt_congr i _ x y _ _ h (takesMask_of_takesImage hi) hx hy
  have himage := readImagePixel_congr i _ x y _ _ h hi
  have hcoord : sourceCoord { s with mem := m } x y = sourceCoord s x y := rfl
  unfold imagePixelWeighted
  rw [hcoord]
  dsimp only
  simp only [hdest, hmask, himage]

/-- A pixel's value depends on memory only where the pixel may read. -/
theorem pixelOf_congr (cov : Byte) : pixelOf i { s with mem := m } x y cov = pixelOf i s x y cov := by
  cases i with
  | nop | setup | clear => rfl
  | fillRect | fillRle => exact fillPixel_congr h hx hy rfl cov
  | imageRect mat | imageRle mat => exact imagePixelWeighted_congr h hx hy rfl _

end Agree

/-- In a good walk the pixel function answers on every pixel of every run. -/
theorem pixelOf_total (i : Instr) (s : State) (r : Run) (hpath : WalkPathOk i s)
    (hsurface : SurfaceUsable s.platform s.p.params) (hr : r ∈ s.runs) (hrun : RunInSurface s.p.params r)
    (j : Nat) (hj : j < r.len) : ∃ v, pixelOf i s (r.x0 + j) r.y r.cov = .ok v := by
  obtain ⟨-, hwidth, hy⟩ := hrun
  have hx : r.x0 + j < s.p.params.surfW.toNat := by omega
  have fill (hm : MaskUsable s.platform s.p.params) (hf : s.fpath = fillPath s.p.params) :
      ∃ v, fillPixel s (r.x0 + j) r.y r.cov = .ok v :=
    (fillPixel_total s hsurface hm hf _ _ r.cov hx hy).imp' some fun _ => id
  have image (hon : s.maskOn = (maskKind s.p.params.maskMethod).isSome)
      (hm : MaskUsable s.platform s.p.params) (hi : ImageUsable s.platform s.p.params)
      (hd : s.ipath = .direct → ∀ r ∈ s.runs, RunInImage s.p.params r) (k : Byte) :
      ∃ v, imagePixelWeighted s k (r.x0 + j) r.y = .ok v :=
    imagePixel_total s hsurface hm hi hon k _ _ hx hy
      (sourceCoord_inImage s r j hj fun h => hd h r hr)
  cases i with
  | nop | setup => exact ⟨none, rfl⟩
  | clear => exact ⟨some 0, rfl⟩
  | fillRect | fillRle =>
    obtain ⟨-, -, hf, hm⟩ := hpath
    exact fill hm hf
  | imageRect mat | imageRle mat =>
    obtain ⟨hon, hm, hi, hd, -⟩ := hpath
    exact image hon hm hi hd _

/-! ## Storing lane by lane -/

/-- Before any lane is stored. -/
theorem groupStored_zero (p : Params) (y x : Nat) (val : Nat → Option Word) (m : Memory) (hm : Memory.wf m) :
    GroupStored p y x 0 val m m := ⟨hm, fun j hj => absurd hj (by omega), fun _ _ => rfl⟩

/-- One lane more. -/
theorem GroupStored.snoc {p : Params} {y x n : Nat} {val : Nat → Option Word} {m m₁ m₂ : Memory}
    (h : GroupStored p y x n val m m₁) (hlast : GroupStored p y (x + n) 1 (fun j => val (n + j)) m₁ m₂) :
    GroupStored p y x (n + 1) val m m₂ := by
  refine ⟨hlast.form, fun j hj v hv => ?_, fun a ha => ?_⟩
  · obtain hlt | rfl : j < n ∨ j = n := by omega
    · refine (wordAt_congr _ _ _ fun k hk => hlast.kept _ fun j' hj' _ => ?_).trans (h.stored j hlt v hv)
      simp only [dstAddr_add]
      omega
    · exact hlast.stored 0 one_pos v hv
  · refine (hlast.kept a fun j hj hsome => ?_).trans (h.kept a fun j hj => ha j (by omega))
    obtain rfl : j = 0 := by omega
    exact ha n (by omega) hsome

/-- What a group stores fixes memory. -/
theorem GroupStored.unique {p : Params} {y x n : Nat} {val : Nat → Option Word} {m m₁ m₂ : Memory}
    (h₁ : GroupStored p y x n val m m₁) (h₂ : GroupStored p y x n val m m₂) : m₁ = m₂ := by
  refine Memory.eq_of_readByte_eq _ _ h₁.form h₂.form fun a => ?_
  by_cases hlane : ∃ j < n, (val j).isSome = true ∧ p.dstAddr (x + j) y ≤ a ∧ a < p.dstAddr (x + j) y + 4
  · obtain ⟨j, hj, hsome, hle, hlt⟩ := hlane
    obtain ⟨v, hv⟩ := Option.isSome_iff_exists.1 hsome
    obtain ⟨k, rfl⟩ := Nat.exists_eq_add_of_le hle
    rw [readByte_eq_byteOf_wordAt _ _ k (by omega), readByte_eq_byteOf_wordAt _ _ k (by omega),
      h₁.stored j hj v hv, h₂.stored j hj v hv]
  · have hout : ∀ j < n, (val j).isSome = true → ¬ (p.dstAddr (x + j) y ≤ a ∧ a < p.dstAddr (x + j) y + 4) :=
      fun j hj hsome ha => hlane ⟨j, hj, hsome, ha⟩
    rw [h₁.kept a hout, h₂.kept a hout]

/-- After lanes of a row inside the surface are stored, the next pixel reads what it read before. -/
theorem GroupStored.agreeFor {p : Params} {y x n : Nat} {val : Nat → Option Word} {m m' : Memory} (i : Instr)
    (h : GroupStored p y x n val m m') (hapart : BuffersApart i p) (hx : x + n ≤ p.surfW.toNat)
    (hy : y < p.surfH.toNat) : AgreeFor i p (x + n) y m m' := by
  constructor
  · refine wordAt_congr _ _ _ fun k hk => h.kept _ fun j hj _ => ?_
    simp only [dstAddr_add]
    omega
  · refine fun a ha => h.kept a fun j hj _ ⟨hle, hlt⟩ => hapart a ?_ ha
    obtain ⟨k, rfl⟩ := Nat.exists_eq_add_of_le hle
    exact has_pixelByte _ _ _ _ _ _ _ (by omega) hy (by omega)

/-! ## Groups and runs of steps -/

/-- The scalar state after a group. -/
theorem scalarOf_afterGroup (s : State) (r : Run) (n : Nat) (m : Memory) :
    scalarOf (afterGroup s r n m) = afterGroup (scalarOf s) r n m := by
  unfold afterGroup
  show scalarOf (if s.off + n < r.len then _ else if s.ri + 1 < s.runs.length then _ else _) =
    if s.off + n < r.len then _ else if s.ri + 1 < s.runs.length then _ else _
  split_ifs <;> rfl

/-- A group of no pixel changes nothing. -/
theorem afterGroup_zero (s : State) (r : Run) (h : s.off < r.len) : afterGroup s r 0 s.mem = s := by
  rw [afterGroup, if_pos (by simpa using h)]
  simp

/-- Two groups of one run, the first ending inside it, are one group. -/
theorem afterGroup_afterGroup (s : State) (r : Run) (n k : Nat) (m m' : Memory) (h : s.off + n < r.len) :
    afterGroup (afterGroup s r n m) r k m' = afterGroup s r (n + k) m' := by
  obtain ⟨-, e⟩ | ⟨hle, -⟩ | ⟨hle, -⟩ := afterGroup_cases s r n m
  · rw [e]
    unfold afterGroup
    simp only [BitVec.ofNat_add, Nat.add_assoc, BitVec.add_assoc]
  · omega
  · omega

/-- The groups left when the cursor is at the start of a run. -/
theorem groupsLeft_of_off_zero (s : State) (h : s.off = 0) :
    groupsLeft s = ((s.runs.drop s.ri).map fun r => groupsOf s.p.simdEn r.len).sum := by
  unfold groupsLeft
  cases s.runs.drop s.ri with
  | nil => rfl
  | cons r rest => simp [h]

/-- A part of a run that takes `k` groups leaves `k` fewer. -/
theorem groupsLeft_afterGroup (s : State) (r : Run) (n k : Nat) (m : Memory) (hcur : s.runs[s.ri]? = some r)
    (hk : groupsOf s.p.simdEn (r.len - s.off) = k + groupsOf s.p.simdEn (r.len - (s.off + n))) :
    groupsLeft s = k + groupsLeft (afterGroup s r n m) := by
  obtain ⟨hlt, rfl⟩ := List.getElem?_eq_some_iff.1 hcur
  have hdrop := List.drop_eq_getElem_cons hlt
  have hs : groupsLeft s = groupsOf s.p.simdEn (s.runs[s.ri].len - s.off) +
      ((s.runs.drop (s.ri + 1)).map fun t => groupsOf s.p.simdEn t.len).sum := by
    unfold groupsLeft; rw [hdrop]
  have hzero : s.runs[s.ri].len ≤ s.off + n → groupsOf s.p.simdEn (s.runs[s.ri].len - (s.off + n)) = 0 := by
    intro hle
    rw [Nat.sub_eq_zero_of_le hle]
    cases s.p.simdEn <;> rfl
  obtain ⟨-, e⟩ | ⟨hle, -, e⟩ | ⟨hle, -, e⟩ := afterGroup_cases s s.runs[s.ri] n m <;> rw [e, hs, hk]
  · unfold groupsLeft
    rw [hdrop, Nat.add_assoc]
  · rw [groupsLeft_of_off_zero _ rfl, hzero hle, Nat.add_zero]
  · rw [groupsLeft_of_off_zero _ rfl, hzero hle, Nat.add_zero]
    rfl

/-- A group of the walk's size is one group; without the combiner its pixels are one group each. -/
theorem groupsOf_groupAt (s : State) (r : Run) (h : s.off < r.len) :
    groupsOf s.p.simdEn (r.len - s.off) = 1 + groupsOf s.p.simdEn (r.len - (s.off + groupAt s r)) ∧
    groupsOf false (r.len - s.off) = groupAt s r + groupsOf false (r.len - (s.off + groupAt s r)) := by
  unfold groupsOf groupAt
  cases s.p.simdEn with
  | false =>
    simp only [Bool.false_eq_true, false_and, if_false]
    omega
  | true =>
    simp only [true_and, if_true]
    split <;> simp only [Bool.false_eq_true, if_false] <;> omega

theorem groupsLeft_of_runs_done (s : State) (h : s.runs.length ≤ s.ri) : groupsLeft s = 0 := by
  unfold groupsLeft; rw [List.drop_eq_nil_of_le h]

/-- After a group the walk goes on, or no run is left. -/
theorem afterGroup_walking_or_done (s : State) (r : Run) (n : Nat) (m : Memory) (hph : s.ph = .walk) :
    (afterGroup s r n m).ph = .walk ∨ (afterGroup s r n m).runs.length ≤ (afterGroup s r n m).ri := by
  obtain ⟨-, e⟩ | ⟨-, -, e⟩ | ⟨-, hdone, e⟩ := afterGroup_cases s r n m <;> rw [e]
  · exact .inl hph
  · exact .inl hph
  · exact .inr hdone

/-- `Host.Core.run` of the machine, at the machine's own types. -/
def runSteps (n : Nat) (s : State) : Host.Outcome State Fault Refusal := Sys2Proof.core.run n s

theorem runSteps_zero (s : State) : runSteps 0 s = .next s := rfl

theorem runSteps_succ (n : Nat) (s t : State) (h : step s = .next t) : runSteps (n + 1) s = runSteps n t := by
  have hcore : Sys2Proof.core.step s = .next t := h
  simp only [runSteps, Host.Core.run, hcore]
  rfl

/-- Steps that go on were each answered by a next state. -/
theorem step_of_runSteps_succ (n : Nat) (s t : State) (h : runSteps (n + 1) s = .next t) :
    ∃ u, step s = .next u ∧ runSteps n u = .next t := by
  cases hstep : step s with
  | next u => exact ⟨u, rfl, (runSteps_succ n s u hstep).symm.trans h⟩
  | fault f =>
    have hcore : Sys2Proof.core.step s = .fault f := hstep
    simp [runSteps, Host.Core.run, hcore] at h
  | refused f =>
    have hcore : Sys2Proof.core.step s = .refused f := hstep
    simp [runSteps, Host.Core.run, hcore] at h

/-- A run of steps in two parts. -/
theorem runSteps_add (n k : Nat) (s t : State) (h : runSteps n s = .next t) :
    runSteps (n + k) s = runSteps k t := by
  induction n generalizing s with
  | zero => cases h; rw [Nat.zero_add]
  | succ n ih =>
    obtain ⟨u, hstep, hrest⟩ := step_of_runSteps_succ n s t h
    rw [Nat.add_right_comm, runSteps_succ _ s u hstep, ih u hrest]

/-- Left to the engine, the step of a walk is one group under the command's pixel function. -/
theorem step_of_walk (s : State) (i : Instr) (hph : s.ph = .walk) (hturns : s.turns = [])
    (hcmd : decode s.p.cmd = .ok i) (hi : draws i = true) : step s = walkStep (pixelOf i s) s := by
  have hagent : nextAgent s = .engine := by simp [nextAgent, hturns, hph]
  have htake : takeTurn s = s := by unfold takeTurn; rw [hturns, List.tail_nil, ← hturns]
  rw [step, hagent, htake, agentTurn, engineTurn, hcmd, ← exec_walk i hi s hph]
  dsimp only
  rw [hph]

/-! ## The simulation -/

theorem draws_of_walkPathOk {i : Instr} {s : State} (h : WalkPathOk i s) : draws i = true := by
  cases i with
  | nop | setup => exact h.elim
  | clear | fillRect | fillRle | imageRect | imageRle => rfl

/-- In a good walk the cursor is on a run. -/
theorem cursorOn_of_inv (s : State) (h : s.Inv) (hph : s.ph = .walk) : ∃ r, r ∈ s.runs ∧ CursorOn s r := by
  have hw := h.walk hph
  obtain ⟨r, hcur, hoff⟩ := hw.cursor
  have hr := List.mem_of_getElem? hcur
  exact ⟨r, hr, hph, hcur, hoff, hw.runs r hr, hw.surface, h.memory⟩

/-- `k` scalar steps inside a run store the values that the first `k` lanes have before the first of them. -/
theorem run_scalar_lanes (s : State) (r : Run) (i : Instr) (val : Nat → Option Word) (hc : CursorOn s r)
    (hturns : s.turns = []) (hcmd : decode s.p.cmd = .ok i) (hi : draws i = true)
    (hapart : BuffersApart i s.p.params)
    (hval : ∀ j < r.len - s.off, pixelOf i s (r.x0 + s.off + j) r.y r.cov = .ok (val j))
    (k : Nat) (hk : k ≤ r.len - s.off) : ∃ m,
      runSteps k (scalarOf s) = .next (afterGroup (scalarOf s) r k m) ∧
      GroupStored s.p.params r.y (r.x0 + s.off) k val s.mem m := by
  obtain ⟨-, hwidth, hheight⟩ := hc.inSurface
  induction k with
  | zero =>
    refine ⟨s.mem, ?_, groupStored_zero _ _ _ _ _ hc.memory⟩
    rw [runSteps_zero]
    exact congrArg _ (afterGroup_zero (scalarOf s) r hc.inRun).symm
  | succ k ih =>
    obtain ⟨m, hrun, hstored⟩ := ih (by omega)
    have hin : s.off + k < r.len := by omega
    -- the state `u` after `k` steps: its next pixel has the value it had before them
    have hu : afterGroup (scalarOf s) r k m = { scalarOf s with
        mem := m, pixcount := s.pixcount + BitVec.ofNat 32 k, off := s.off + k } := if_pos hin
    generalize hgen : afterGroup (scalarOf s) r k m = u at hrun hu
    have hon : CursorOn u r := by
      rw [hu]
      exact ⟨hc.walking, hc.current, hin, hc.inSurface, hc.surface, hstored.form⟩
    have hone : groupAt u r = 1 := by rw [hu]; rfl
    have hpixel : ∀ j < groupAt u r, pixelOf i u (r.x0 + u.off + j) r.y r.cov = .ok (val (k + j)) := by
      intro j hj
      obtain rfl : j = 0 := by omega
      have hagree := hstored.agreeFor i hapart (by omega) hheight
      have hsame : pixelOf i u = pixelOf i { s with mem := m } := by rw [hu]; cases i <;> rfl
      have hoff : r.x0 + u.off + 0 = r.x0 + s.off + k := by rw [hu]; exact (Nat.add_assoc _ _ _).symm
      rw [hsame, hoff, pixelOf_congr hagree (by omega) hheight]
      exact hval k (by omega)
    obtain ⟨m', hstep, hlast⟩ := walkStep_eq u r _ hon _ hpixel
    refine ⟨m', ?_, hstored.snoc ?_⟩
    · have hnext := (step_of_walk u i hon.walking (by rw [hu]; exact hturns) (by rw [hu]; exact hcmd)
        hi).trans hstep
      rw [runSteps_add k 1 _ u hrun, runSteps_succ 0 _ _ hnext, runSteps_zero, hone, ← hgen,
        afterGroup_afterGroup (scalarOf s) _ _ _ _ _ hin]
    · rw [hone, hu] at hlast
      rw [Nat.add_assoc]
      exact hlast

/-- One step of a good walk, and the scalar steps that do the same. -/
theorem group_simulated (s : State) (h : s.Inv) (hph : s.ph = .walk) (hturns : s.turns = []) : ∃ r m,
    CursorOn s r ∧ step s = .next (afterGroup s r (groupAt s r) m) ∧
    runSteps (groupAt s r) (scalarOf s) = .next (scalarOf (afterGroup s r (groupAt s r) m)) := by
  obtain ⟨r, hr, hc⟩ := cursorOn_of_inv s h hph
  obtain ⟨i, hcmd, hpath, hover⟩ := (h.walk hph).command
  have hi := draws_of_walkPathOk hpath
  have hapart : BuffersApart i s.p.params := by
    by_contra hn
    exact absurd ((overlaps_iff i _ hi).2 hn) (by simp [hover])
  have htotal : ∀ j, j < r.len - s.off → ∃ v, pixelOf i s (r.x0 + s.off + j) r.y r.cov = .ok v := by
    intro j hj
    rw [Nat.add_assoc]
    exact pixelOf_total i s r hpath hc.surface hr hc.inSurface _ (by omega)
  choose! val hval using htotal
  have hle := groupAt_le s r hc.inRun
  obtain ⟨m, hstep, hstored⟩ := walkStep_eq s r _ hc val fun j hj => hval j (by omega)
  obtain ⟨m', hrun, hscalar⟩ := run_scalar_lanes s r i val hc hturns hcmd hi hapart hval _ hle
  obtain rfl := hscalar.unique hstored
  rw [← scalarOf_afterGroup] at hrun
  exact ⟨r, m', hc, (step_of_walk s i hph hturns hcmd hi).trans hstep, hrun⟩

/-- The walk from `s` and its scalar walk end in the same state but for SIMD_EN, by induction on the groups
left. -/
theorem walk_simulated (g : Nat) (s : State) (h : s.Inv) (hturns : s.turns = [])
    (hph : s.ph = .walk ∨ s.runs.length ≤ s.ri) (hg : groupsLeft s = g) : ∃ t,
    runSteps g s = .next t ∧ runSteps (groupsLeft (scalarOf s)) (scalarOf s) = .next (scalarOf t) := by
  induction g generalizing s with
  | zero =>
    obtain hph | hdone := hph
    · obtain ⟨r, -, hc⟩ := cursorOn_of_inv s h hph
      have := groupsLeft_afterGroup s r _ 1 s.mem hc.current (groupsOf_groupAt s r hc.inRun).1
      omega
    · exact ⟨s, rfl, by rw [groupsLeft_of_runs_done (scalarOf s) hdone, runSteps_zero]⟩
  | succ g ih =>
    obtain hph | hdone := hph
    · obtain ⟨r, m, hc, hstep, hscalar⟩ := group_simulated s h hph hturns
      obtain ⟨hone, hmany⟩ := groupsOf_groupAt s r hc.inRun
      have hleft := groupsLeft_afterGroup s r (groupAt s r) 1 m hc.current hone
      have hleft' := groupsLeft_afterGroup (scalarOf s) r (groupAt s r) (groupAt s r) m hc.current hmany
      rw [← scalarOf_afterGroup] at hleft'
      obtain ⟨t, hrun, hrun'⟩ := ih (afterGroup s r (groupAt s r) m)
        (everyStepKeepsAGoodState s _ h hstep) (by rw [afterGroup_eq]; exact hturns)
        (afterGroup_walking_or_done s r _ m hph) (by omega)
      exact ⟨t, (runSteps_succ g s _ hstep).trans hrun,
        by rw [hleft', runSteps_add _ _ _ _ hscalar, hrun']⟩
    · rw [groupsLeft_of_runs_done s hdone] at hg
      omega

/-- Settles O55: the two walks end alike, SIMD_EN apart, so with the same memory. -/
theorem simdWalkEqualsScalarWalk : Obligations.SimdWalkEqualsScalarWalk := by
  intro s h hph hturns
  obtain ⟨t, hrun, hrun'⟩ := walk_simulated _ s h hturns (.inl hph) rfl
  exact ⟨t, scalarOf t, hrun, hrun', rfl, rfl⟩

end Sys2Proof.Machine
end

section
/-! PROOFS. The statements of 20_memory.md about memory as words and bytes (R70, R71) and about the host's
accesses to it while a command runs (R80, R91). -/

namespace Sys2Proof.Machine

/-! ## Words -/

/-- Settles O18: a word read is its bytes joined (`pack_toNat`), a word stored is what `readByte_storeWord` says. -/
theorem memoryWordsAreLittleEndian : Obligations.MemoryWordsAreLittleEndian := by
  intro m a v hm ha
  have stored : ∀ b, readByte (storeWord m a v) b = _ := fun b => readByte_storeWord m a b v hm
  refine ⟨⟨wordAt m a, (readWord_ok_iff m a _).2 ⟨ha, rfl⟩, ?_⟩,
    storeWord m a v, (writeWord_ok_iff m a v _).2 ⟨ha, rfl⟩, wf_storeWord m a v ha hm, ?_, ?_, ?_, ?_, ?_⟩
  · rw [wordAt, pack_toNat]
    omega
  · simp [stored, byteOf]
  · simp [stored, byteOf]
  · simp [stored, byteOf]
  · simp [stored, byteOf]
  · intro b hb
    rw [stored, if_neg (by omega), if_neg (by omega), if_neg (by omega), if_neg (by omega)]

/-! ## Host accesses -/

/-- Byte `a` of the surface that the running command writes (20_memory.md R80). -/
def RunningDestByte (s : State) (a : Nat) : Prop :=
  s.busy = true ∧ ∃ i, decode s.p.cmd = .ok i ∧ draws i = true ∧ s.p.params.surfRange.has a = true

/-- Byte `a` of a buffer that the running command only reads (20_memory.md R80). -/
def RunningSourceByte (s : State) (a : Nat) : Prop :=
  s.busy = true ∧ ∃ i, decode s.p.cmd = .ok i ∧ SourceByte i s.p.params a

/-- A list that holds range `r` or none covers `a` when it holds `r` and `r` has `a`. -/
theorem inRanges_ite (c : Bool) (r : ByteRange) (a : Nat) :
    inRanges (if c then [r] else []) a = true ↔ c = true ∧ r.has a = true := by
  cases c <;> simp [inRanges]

theorem inRanges_append (rs ts : List ByteRange) (a : Nat) :
    inRanges (rs ++ ts) a = true ↔ inRanges rs a = true ∨ inRanges ts a = true := by
  simp [inRanges]

theorem inRanges_sourceRanges (i : Instr) (p : Params) (a : Nat) :
    inRanges (sourceRanges i p) a = true ↔ SourceByte i p a := by
  rw [sourceRanges, inRanges_append, inRanges_append, inRanges_ite, inRanges_ite, inRanges_ite,
    Bool.and_eq_true, maskKind_isSome_iff, and_assoc, or_assoc]
  rfl

theorem inRanges_runningDest (s : State) (a : Nat) :
    inRanges (runningDest s) a = true ↔ RunningDestByte s a := by
  unfold runningDest RunningDestByte
  cases s.busy with
  | false => simp [inRanges]
  | true =>
    cases decode s.p.cmd with
    | ok i => simp [destRanges, inRanges_ite]
    | error e => simp [inRanges]

theorem inRanges_runningSources (s : State) (a : Nat) :
    inRanges (runningSources s) a = true ↔ RunningSourceByte s a := by
  unfold runningSources RunningSourceByte
  cases s.busy with
  | false => simp [inRanges]
  | true =>
    cases decode s.p.cmd with
    | ok i => simp [inRanges_sourceRanges]
    | error e => simp [inRanges]

theorem hostMayRead_iff (s : State) (a : Word) : hostMayRead s a = true ↔ ¬ RunningDestByte s a.toNat := by
  rw [hostMayRead, Bool.not_eq_true', ← inRanges_runningDest, Bool.not_eq_true]

theorem hostMayWrite_iff (s : State) (a : Word) :
    hostMayWrite s a = true ↔ ¬ (RunningDestByte s a.toNat ∨ RunningSourceByte s a.toNat) := by
  rw [hostMayWrite, Bool.and_eq_true, Bool.not_eq_true', Bool.not_eq_true', ← inRanges_runningDest,
    ← inRanges_runningSources, not_or, Bool.not_eq_true, Bool.not_eq_true]

/-- Settles O17, from `hostMayRead_iff` and `hostMayWrite_iff`. -/
theorem hostAccessToRunningBuffersIsRefused : Obligations.HostAccessToRunningBuffersIsRefused := by
  intro s rest a v
  change (RunningDestByte s a.toNat ∨ RunningSourceByte s a.toNat → _) ∧ (RunningDestByte s a.toNat → _) ∧
    (¬ RunningDestByte s a.toNat → _) ∧ (¬ RunningDestByte s a.toNat → ¬ RunningSourceByte s a.toNat → _)
  refine ⟨fun h => ?_, fun h => ?_, fun h => ?_, fun hdest hsrc hwf => ?_⟩
  · exact if_neg fun hmay => (hostMayWrite_iff s a).1 hmay h
  · exact if_neg fun hmay => (hostMayRead_iff s a).1 hmay h
  · exact if_pos ((hostMayRead_iff s a).2 h)
  · refine ⟨writeByte s.mem a.toNat v, if_pos ((hostMayWrite_iff s a).2 (not_or.2 ⟨hdest, hsrc⟩)), ?_,
      fun b hb => ?_⟩
    · rw [readByte_writeByte _ _ _ _ hwf, if_pos rfl]
    · rw [readByte_writeByte _ _ _ _ hwf, if_neg hb]

end Sys2Proof.Machine
end

section
/-! PROOFS. The validation step of a drawing command, check by check (60_exceptions.md R246 to R253): where it
stops and what it fixes when it passes; and the refusals of 20_memory.md R83 and R92. -/

namespace Sys2Proof.Machine

/-! ## The validation of a command -/

/-- The checks of a drawing command's validation step (42_fill.md R172, R173; 43_image.md R217). NOP and SETUP
check no buffer: they pass. -/
def validationOf : Instr → State → Except Halt State
  | .nop | .setup => .ok
  | .clear => validateClear
  | .fillRect => validateFillRect
  | .fillRle => validateFillRle
  | .imageRect mat => validateImageRect mat
  | .imageRle mat => validateImageRle mat

/-- One engine step of a drawing command: its checks and its pixel function (42_fill.md R160). -/
theorem exec_eq_drawStep (i : Instr) (hi : draws i = true) (s : State) :
    exec i s = drawStep i (validationOf i) (pixelOf i) s := by
  cases i with
  | nop | setup => exact absurd hi Bool.false_ne_true
  | clear | fillRect | fillRle | imageRect | imageRle => rfl

/-- A validation that stops decides the step. -/
theorem exec_of_validation_error (i : Instr) (hi : draws i = true) (s : State) (hph : s.ph = .validate)
    (e : Halt) (h : validationOf i s = .error e) : exec i s = haltOutcome s e := by
  rw [exec_eq_drawStep i hi, drawStep_validate _ _ _ _ hph, h]

/-- A validation that passes begins the walk. -/
theorem exec_of_validation_ok (i : Instr) (hi : draws i = true) (s u : State) (hph : s.ph = .validate)
    (h : validationOf i s = .ok u) : exec i s = startWalk i u := by
  rw [exec_eq_drawStep i hi, drawStep_validate _ _ _ _ hph, h]

/-! ## Where a validation stops -/

theorem draws_of_takesMask {i : Instr} (hi : takesMask i = true) : draws i = true := by
  cases i with
  | nop | setup => exact absurd hi Bool.false_ne_true
  | clear | fillRect | fillRle | imageRect | imageRle => rfl

/-- A command with a span list takes the mask operand too (20_memory.md R80). -/
theorem takesMask_of_takesSpans {i : Instr} (hi : takesSpans i = true) : takesMask i = true := by
  cases i with
  | nop | setup | clear | fillRect | imageRect => exact absurd hi Bool.false_ne_true
  | fillRle | imageRle => rfl

/-- A FILL or IMAGE command stops where its opening checks do. -/
theorem validation_stops_at_draw (i : Instr) (hi : takesMask i = true) (s : State) (e : Halt)
    (h : checkDraw s = .error e) : validationOf i s = .error e := by
  cases i with
  | nop | setup | clear => exact absurd hi Bool.false_ne_true
  | fillRect => rw [validationOf, validateFillRect, h, Except.error_bind]
  | fillRle => rw [validationOf, validateFillRle, h, Except.error_bind]
  | imageRect mat => rw [validationOf, validateImageRect, h, Except.error_bind]
  | imageRle mat => rw [validationOf, validateImageRle, h, Except.error_bind]

/-- The surface check comes after the blender check alone (60_exceptions.md R246). -/
theorem validation_stops_at_surface (i : Instr) (hi : draws i = true) (s : State)
    (hblender : takesMask i = true → s.blValid = true) (e : Halt)
    (h : checkSurface s.platform s.p.params = .error e) : validationOf i s = .error e := by
  by_cases hmask : takesMask i = true
  · refine validation_stops_at_draw i hmask s e ?_
    rw [checkDraw, (checkBlender_ok_iff s).2 (hblender hmask), Except.ok_bind, h, Except.error_bind]
  · cases i with
    | nop | setup => exact absurd hi Bool.false_ne_true
    | clear => rw [validationOf, validateClear, h, Except.error_bind]
    | fillRect | fillRle | imageRect | imageRle => exact absurd rfl hmask

/-- The mask check comes after the blender's and the surface's. -/
theorem validation_stops_at_mask (i : Instr) (hi : takesMask i = true) (s : State) (hblender : s.blValid = true)
    (hsurface : SurfaceUsable s.platform s.p.params) (e : Halt)
    (h : checkMask s.platform s.p.params = .error e) : validationOf i s = .error e := by
  refine validation_stops_at_draw i hi s e ?_
  rw [checkDraw, (checkBlender_ok_iff s).2 hblender, Except.ok_bind, (checkSurface_ok_iff _ _).2 hsurface,
    Except.ok_bind, h]

/-- The image check comes after the opening checks. -/
theorem validation_stops_at_image (i : Instr) (hi : takesImage i = true) (s : State) (hready : DrawReady s)
    (e : Halt) (h : checkImage s.platform s.p.params = .error e) : validationOf i s = .error e := by
  have hdraw := checkDraw_of_ready s hready
  cases i with
  | nop | setup | clear | fillRect | fillRle => exact absurd hi Bool.false_ne_true
  | imageRect mat => rw [validationOf, validateImageRect, hdraw, Except.ok_bind, h, Except.error_bind]
  | imageRle mat => rw [validationOf, validateImageRle, hdraw, Except.ok_bind, h, Except.error_bind]

/-- The span-list check comes after the buffers'. -/
theorem validation_stops_at_spans (i : Instr) (hi : takesSpans i = true) (s : State) (hready : DrawReady s)
    (himage : takesImage i = true → ImageUsable s.platform s.p.params) (e : Halt)
    (h : checkRle s.platform s.p.params = .error e) : validationOf i s = .error e := by
  have hdraw := checkDraw_of_ready s hready
  cases i with
  | nop | setup | clear | fillRect | imageRect => exact absurd hi Bool.false_ne_true
  | fillRle => rw [validationOf, validateFillRle, hdraw, Except.ok_bind, h, Except.error_bind]
  | imageRle mat =>
    rw [validationOf, validateImageRle, hdraw, Except.ok_bind, (checkImage_ok_iff _ _).2 (himage rfl),
      Except.ok_bind, h, Except.error_bind]

/-! ## What a validation that passes fixes -/

theorem validateFillRect_ok (s : State) (hready : DrawReady s) (hbounds : checkRectBounds s.p.params = .ok ()) :
    validateFillRect s = .ok (fixFill s (regionRuns s.p.params)) := by
  rw [validateFillRect, checkDraw_of_ready s hready, Except.ok_bind, hbounds, Except.ok_bind]
  rfl

theorem validateFillRle_ok (s : State) (hready : DrawReady s) (hspans : SpansUsable s.platform s.p.params)
    (hin : ∀ j < s.p.params.rleCount.toNat, SpanInSurface s.p.params s.mem j) :
    validateFillRle s = .ok (fixFill s (listedRuns s.p.params s.mem)) := by
  rw [validateFillRle, checkDraw_of_ready s hready, Except.ok_bind, (checkRle_ok_iff _ _).2 hspans,
    Except.ok_bind, spanListRuns_eq s false hspans hin nofun]
  rfl

theorem validateImageRect_ok (mat : Bool) (s : State) (t : Option (MatrixRows Binary32)) (hready : DrawReady s)
    (himage : ImageUsable s.platform s.p.params) (ht : transform mat s.p.params = .ok t)
    (hbounds : checkRectBounds s.p.params = .ok ())
    (hsource : t.isNone = true → checkRectSource s.p.params = .ok ()) :
    validateImageRect mat s = .ok (fixImage s t (regionRuns s.p.params)) := by
  rw [validateImageRect, checkDraw_of_ready s hready, Except.ok_bind, (checkImage_ok_iff _ _).2 himage,
    Except.ok_bind, ht, Except.ok_bind, hbounds, Except.ok_bind]
  cases t with
  | none => simp only [Option.isNone_none, if_true, hsource rfl, Except.ok_bind]; rfl
  | some rows => rfl

theorem validateImageRle_ok (mat : Bool) (s : State) (t : Option (MatrixRows Binary32)) (hready : DrawReady s)
    (himage : ImageUsable s.platform s.p.params) (hspans : SpansUsable s.platform s.p.params)
    (ht : transform mat s.p.params = .ok t)
    (hin : ∀ j < s.p.params.rleCount.toNat, SpanInSurface s.p.params s.mem j)
    (hsource : t.isNone = true → ∀ j < s.p.params.rleCount.toNat, SpanInImage s.p.params s.mem j) :
    validateImageRle mat s = .ok (fixImage s t (listedRuns s.p.params s.mem)) := by
  rw [validateImageRle, checkDraw_of_ready s hready, Except.ok_bind, (checkImage_ok_iff _ _).2 himage,
    Except.ok_bind, (checkRle_ok_iff _ _).2 hspans, Except.ok_bind, ht, Except.ok_bind,
    spanListRuns_eq s t.isNone hspans hin hsource]
  rfl

/-! ## Overlapping buffers (20_memory.md R92) -/

/-- A command whose validation passes with a run to walk over overlapping buffers is refused. -/
theorem exec_overlapping (i : Instr) (hi : draws i = true) (s u : State) (rs : List Run)
    (hph : s.ph = .validate) (h : validationOf i s = .ok u) (hu : u.runs = rs ∧ u.p = s.p) (hrs : rs ≠ [])
    (hover : ¬ BuffersApart i s.p.params) : exec i s = .refused .overlappingBuffers := by
  obtain ⟨rfl, hp⟩ := hu
  rw [exec_of_validation_ok i hi s u hph h]
  exact startWalk_refused i u hi hrs (hp ▸ hover)

/-- What an IMAGE fixes besides its path: the runs; the snapshot stays. -/
theorem runs_fixImage (s : State) (t : Option (MatrixRows Binary32)) (rs : List Run) :
    (fixImage s t rs).runs = rs ∧ (fixImage s t rs).p = s.p := by
  cases t <;> exact ⟨rfl, rfl⟩

section Overlap

variable {s : State} (hph : s.ph = .validate) (hready : DrawReady s)
include hph hready

theorem fillRect_overlapping (hregion : ¬ RegionEmpty s.p.params)
    (hbounds : s.p.params.maxX ≤ s.p.params.surfW.toNat ∧ s.p.params.maxY ≤ s.p.params.surfH.toNat)
    (hover : ¬ BuffersApart .fillRect s.p.params) : exec .fillRect s = .refused .overlappingBuffers :=
  exec_overlapping .fillRect rfl s _ _ hph
    (validateFillRect_ok s hready (checkRectBounds_of _ (.inr hbounds)))
    ⟨regionRuns_eq _ hregion, rfl⟩ (rowRuns_ne_nil _ hregion) hover

theorem fillRle_overlapping (hspans : SpansUsable s.platform s.p.params)
    (hin : ∀ j < s.p.params.rleCount.toNat, SpanInSurface s.p.params s.mem j)
    (hruns : listedRuns s.p.params s.mem ≠ []) (hover : ¬ BuffersApart .fillRle s.p.params) :
    exec .fillRle s = .refused .overlappingBuffers :=
  exec_overlapping .fillRle rfl s _ _ hph (validateFillRle_ok s hready hspans hin) ⟨rfl, rfl⟩ hruns hover

theorem imageRect_overlapping (mat : Bool) (himage : ImageUsable s.platform s.p.params)
    (hregion : ¬ RegionEmpty s.p.params)
    (hbounds : s.p.params.maxX ≤ s.p.params.surfW.toNat ∧ s.p.params.maxY ≤ s.p.params.surfH.toNat)
    (hpath : TakesResample mat s.p.params ∨ TakesDirect mat s.p.params ∧
      s.p.params.originX + (s.p.params.maxX - s.p.params.minX) ≤ s.p.params.imgW.toNat ∧
      s.p.params.originY + (s.p.params.maxY - s.p.params.minY) ≤ s.p.params.imgH.toNat)
    (hover : ¬ BuffersApart (.imageRect mat) s.p.params) :
    exec (.imageRect mat) s = .refused .overlappingBuffers := by
  have hpasses : ∃ t, validateImageRect mat s = .ok (fixImage s t (regionRuns s.p.params)) := by
    have hrect := checkRectBounds_of _ (.inr hbounds)
    obtain hresample | ⟨hdirect, hsource⟩ := hpath
    · exact ⟨_, validateImageRect_ok mat s _ hready himage (transform_resample _ _ hresample) hrect nofun⟩
    · exact ⟨_, validateImageRect_ok mat s _ hready himage (transform_direct _ _ hdirect) hrect
        fun _ => checkRectSource_of _ (.inr hsource)⟩
  obtain ⟨t, ht⟩ := hpasses
  rw [regionRuns_eq _ hregion] at ht
  exact exec_overlapping (.imageRect mat) rfl s _ _ hph ht (runs_fixImage s t _) (rowRuns_ne_nil _ hregion) hover

theorem imageRle_overlapping (mat : Bool) (himage : ImageUsable s.platform s.p.params)
    (hspans : SpansUsable s.platform s.p.params)
    (hin : ∀ j < s.p.params.rleCount.toNat, SpanInSurface s.p.params s.mem j)
    (hruns : listedRuns s.p.params s.mem ≠ [])
    (hpath : TakesResample mat s.p.params ∨ TakesDirect mat s.p.params ∧
      ∀ j < s.p.params.rleCount.toNat, SpanInImage s.p.params s.mem j)
    (hover : ¬ BuffersApart (.imageRle mat) s.p.params) :
    exec (.imageRle mat) s = .refused .overlappingBuffers := by
  have hpasses : ∃ t, validateImageRle mat s = .ok (fixImage s t (listedRuns s.p.params s.mem)) := by
    obtain hresample | ⟨hdirect, hsource⟩ := hpath
    · exact ⟨_, validateImageRle_ok mat s _ hready himage hspans (transform_resample _ _ hresample) hin nofun⟩
    · exact ⟨_, validateImageRle_ok mat s _ hready himage hspans (transform_direct _ _ hdirect) hin
        fun _ => hsource⟩
  obtain ⟨t, ht⟩ := hpasses
  exact exec_overlapping (.imageRle mat) rfl s _ _ hph ht (runs_fixImage s t _) hruns hover

end Overlap

/-! ## Buffers on a device (20_memory.md R83) -/

/-- A range that the range check admits though it touches a device with read side effects (log 13). -/
structure RangeOnDevice (pl : Platform) (base n : Nat) (kinds : List AccessKind) : Prop where
  inSpace : base + n ≤ 2 ^ 32
  admitted : ∀ k ∈ kinds, memAdmit pl base n k = true
  device : touchesDevice pl base n = true

theorem checkRange_onDevice (pl : Platform) (base : Word) (n : Nat) (kinds : List AccessKind)
    (h : RangeOnDevice pl base.toNat n kinds) :
    checkRange pl base n kinds = .error (.refusal (.deviceBuffer base)) := by
  have hadmit : (kinds.all fun k => memAdmit pl base.toNat n k) = true := List.all_eq_true.2 h.admitted
  rw [checkRange, if_neg (Nat.not_lt.2 h.inSpace), hadmit, if_neg (by decide), if_pos h.device]

theorem checkSurface_onDevice (pl : Platform) (p : Params) (hbase : p.surfBase ≠ 0) (hwidth : p.surfW ≠ 0)
    (hheight : p.surfH ≠ 0) (hstride : p.surfW.toNat ≤ p.surfStride.toNat)
    (halign : p.surfBase.toNat % 4 = 0) (h : RangeOnDevice pl p.surfBase.toNat
      (4 * ((p.surfH.toNat - 1) * p.surfStride.toNat + p.surfW.toNat)) [.read, .write]) :
    checkSurface pl p = .error (.refusal (.deviceBuffer p.surfBase)) := by
  have hsize : p.surfRange.size = _ := extent_of_pos _ _ _ (pos_of_ne_zero _ hheight)
  rw [checkSurface, if_neg (by simp only [not_or]; exact ⟨hbase, hwidth, hheight, Nat.not_lt.2 hstride⟩),
    (checkAlign_ok_iff _).2 halign, Except.ok_bind, hsize, checkRange_onDevice _ _ _ _ h]

theorem checkMask_onDevice (pl : Platform) (p : Params) (hheight : p.surfH ≠ 0)
    (hmethod : p.maskMethod = 2 ∨ p.maskMethod = 3) (hbase : p.maskBase ≠ 0)
    (halign : p.maskBase.toNat % 4 = 0)
    (h : RangeOnDevice pl p.maskBase.toNat
      (4 * ((p.surfH.toNat - 1) * p.surfStride.toNat + p.surfW.toNat)) [.read]) :
    checkMask pl p = .error (.refusal (.deviceBuffer p.maskBase)) := by
  have hsize : p.maskRange.size = _ := extent_of_pos _ _ _ (pos_of_ne_zero _ hheight)
  rw [checkMask, if_pos ((maskKind_isSome_iff _).2 hmethod), if_neg hbase, (checkAlign_ok_iff _).2 halign,
    Except.ok_bind, hsize, checkRange_onDevice _ _ _ _ h]

theorem checkImage_onDevice (pl : Platform) (p : Params) (hbase : p.imgBase ≠ 0) (hwidth : p.imgW ≠ 0)
    (hheight : p.imgH ≠ 0) (hstride : p.imgW.toNat ≤ p.imgStride.toNat) (halign : p.imgBase.toNat % 4 = 0)
    (h : RangeOnDevice pl p.imgBase.toNat
      (4 * ((p.imgH.toNat - 1) * p.imgStride.toNat + p.imgW.toNat)) [.read]) :
    checkImage pl p = .error (.refusal (.deviceBuffer p.imgBase)) := by
  have hsize : p.imgRange.size = _ := extent_of_pos _ _ _ (pos_of_ne_zero _ hheight)
  rw [checkImage, if_neg (by simp only [not_or]; exact ⟨hbase, hwidth, hheight, Nat.not_lt.2 hstride⟩),
    (checkAlign_ok_iff _).2 halign, Except.ok_bind, hsize, checkRange_onDevice _ _ _ _ h]

theorem checkRle_onDevice (pl : Platform) (p : Params) (hcount : p.rleCount ≠ 0) (hbase : p.rleBase ≠ 0)
    (halign : p.rleBase.toNat % 4 = 0)
    (h : RangeOnDevice pl p.rleBase.toNat (8 * p.rleCount.toNat) [.read]) :
    checkRle pl p = .error (.refusal (.deviceBuffer p.rleBase)) := by
  rw [checkRle, if_pos hcount, if_neg hbase, (checkAlign_ok_iff _).2 halign, Except.ok_bind]
  exact checkRange_onDevice _ _ _ _ h

/-- Settles O41: a validation that passes with a run meets the overlap test of `startWalk`; one whose buffer
lies on a device stops at that buffer's check. -/
theorem overlappingOrDeviceBuffersAreRefused : Obligations.OverlappingOrDeviceBuffersAreRefused := by
  refine ⟨fun s hph hready hregion hx hy => ⟨?_, ?_⟩, fun s hph hready hspans hin hruns => ⟨?_, ?_⟩,
    fun i s hph => ⟨?_, ?_, ?_, ?_⟩⟩
  · exact fillRect_overlapping hph hready hregion ⟨hx, hy⟩
  · exact fun mat himage hover hpath => imageRect_overlapping hph hready mat himage hregion ⟨hx, hy⟩ hpath hover
  · exact fillRle_overlapping hph hready hspans hin hruns
  · exact fun mat himage hover hpath => imageRle_overlapping hph hready mat himage hspans hin hruns hpath hover
  · intro hi hblender hbase hwidth hheight hstride halign hspace hread hwrite hdevice
    exact exec_of_validation_error i hi s hph _ (validation_stops_at_surface i hi s hblender _
      (checkSurface_onDevice _ _ hbase hwidth hheight hstride halign
        ⟨hspace, by simp [hread, hwrite], hdevice⟩))
  · intro hi hblender hsurface hmethod hbase halign hspace hread hdevice
    exact exec_of_validation_error i (draws_of_takesMask hi) s hph _
      (validation_stops_at_mask i hi s hblender hsurface _
        (checkMask_onDevice _ _ hsurface.height hmethod hbase halign ⟨hspace, by simp [hread], hdevice⟩))
  · intro hi hready hbase hwidth hheight hstride halign hspace hread hdevice
    exact exec_of_validation_error i (draws_of_takesMask (takesMask_of_takesImage hi)) s hph _
      (validation_stops_at_image i hi s hready _
        (checkImage_onDevice _ _ hbase hwidth hheight hstride halign ⟨hspace, by simp [hread], hdevice⟩))
  · intro hi hready himage hcount hbase halign hspace hread hdevice
    exact exec_of_validation_error i (draws_of_takesMask (takesMask_of_takesSpans hi)) s hph _
      (validation_stops_at_spans i hi s hready himage _
        (checkRle_onDevice _ _ hcount hbase halign ⟨hspace, by simp [hread], hdevice⟩))

end Sys2Proof.Machine
end

section
/-! PROOFS. No step from a good state stops with a fault (20_memory.md R73, R76; 60_exceptions.md R243, R248): a
check that stops fails or refuses, a good walk's pixel function answers and its group lies in the space, and
the host's statements never fault. -/

namespace Sys2Proof.Machine

/-! ## Checks -/

/-- Where the check stops, it fails the command or refuses it: it does not fault. -/
def NeverFaults {α : Type} (x : Except Halt α) : Prop := ∀ f, x ≠ .error (.fault f)

theorem NeverFaults.ok {α : Type} (a : α) : NeverFaults (.ok a) := nofun

theorem NeverFaults.failure {α : Type} (e : ErrCode) (info : Word) :
    NeverFaults (.error (.error e info) : Except Halt α) := nofun

/-- Two checks in turn; the second may rely on the first having passed. -/
theorem NeverFaults.bind {α β : Type} {x : Except Halt α} {g : α → Except Halt β} (hx : NeverFaults x)
    (hg : ∀ a, x = .ok a → NeverFaults (g a)) : NeverFaults (x >>= g) := by
  intro f h
  obtain h | ⟨a, ha, h⟩ := (Except.bind_error_iff _ _ _).1 h
  · exact hx f h
  · exact hg a ha f h

theorem NeverFaults.ite {α : Type} {c : Prop} [Decidable c] {x y : Except Halt α} (hx : c → NeverFaults x)
    (hy : ¬ c → NeverFaults y) : NeverFaults (if c then x else y) := by
  split
  next h => exact hx h
  next h => exact hy h

theorem neverFaults_checkRange (pl : Platform) (base : Word) (n : Nat) (kinds : List AccessKind) :
    NeverFaults (checkRange pl base n kinds) := by
  intro f h
  obtain h | h := checkRange_error pl base n kinds _ h <;> cases h

theorem neverFaults_checkAlign (base : Word) : NeverFaults (checkAlign base) :=
  .ite (fun _ => .failure _ _) fun _ => .ok _

/-- The alignment and range checks, the last two of every buffer's. -/
theorem neverFaults_alignAndRange (pl : Platform) (base : Word) (n : Nat) (kinds : List AccessKind) :
    NeverFaults (do checkAlign base; checkRange pl base n kinds) :=
  (neverFaults_checkAlign base).bind fun _ _ => neverFaults_checkRange _ _ _ _

theorem neverFaults_checkSurface (pl : Platform) (p : Params) : NeverFaults (checkSurface pl p) :=
  .ite (fun _ => .failure _ _) fun _ => neverFaults_alignAndRange _ _ _ _

theorem neverFaults_checkMask (pl : Platform) (p : Params) : NeverFaults (checkMask pl p) :=
  .ite (fun _ => .ite (fun _ => .failure _ _) fun _ => neverFaults_alignAndRange _ _ _ _) fun _ => .ok _

theorem neverFaults_checkImage (pl : Platform) (p : Params) : NeverFaults (checkImage pl p) :=
  .ite (fun _ => .failure _ _) fun _ => neverFaults_alignAndRange _ _ _ _

theorem neverFaults_checkRle (pl : Platform) (p : Params) : NeverFaults (checkRle pl p) :=
  .ite (fun _ => .ite (fun _ => .failure _ _) fun _ => neverFaults_alignAndRange _ _ _ _) fun _ => .ok _

theorem neverFaults_checkBlender (s : State) : NeverFaults (checkBlender s) :=
  .ite (fun _ => .ok _) fun _ => .failure _ _

theorem neverFaults_checkDraw (s : State) : NeverFaults (checkDraw s) :=
  (neverFaults_checkBlender s).bind fun _ _ => (neverFaults_checkSurface _ _).bind fun _ _ =>
    neverFaults_checkMask _ _

theorem neverFaults_checkRectBounds (p : Params) : NeverFaults (checkRectBounds p) :=
  .ite (fun _ => .ok _) fun _ => .failure _ _

theorem neverFaults_checkRectSource (p : Params) : NeverFaults (checkRectSource p) :=
  .ite (fun _ => .ok _) fun _ => .failure _ _

theorem neverFaults_transform (mat : Bool) (p : Params) : NeverFaults (transform mat p) :=
  .ite (fun _ => .ok _) fun _ => .ite (fun _ => .failure _ _) fun _ => .ok _

/-- The records of a list that passed its check can be read (60_exceptions.md R252). -/
theorem neverFaults_spanListRuns (s : State) (direct : Bool) (h : checkRle s.platform s.p.params = .ok ()) :
    NeverFaults (spanListRuns s.p.params s.mem direct) := by
  intro f
  obtain hspace | hempty := spanAddr_le s ((checkRle_ok_iff _ _).1 h)
  · exact spanRuns_not_fault _ _ _ _ _ f (by rwa [Nat.zero_add])
  · rw [spanListRuns, hempty]
    exact nofun

/-- A validation fails, is refused or passes (60_exceptions.md R243). -/
theorem neverFaults_validationOf (i : Instr) (s : State) : NeverFaults (validationOf i s) := by
  have hdraw := neverFaults_checkDraw s
  cases i with
  | nop | setup => exact .ok s
  | clear => exact (neverFaults_checkSurface _ _).bind fun _ _ => .ok _
  | fillRect => exact hdraw.bind fun _ _ => (neverFaults_checkRectBounds _).bind fun _ _ => .ok _
  | fillRle =>
    exact hdraw.bind fun _ _ => (neverFaults_checkRle _ _).bind fun _ hrle =>
      (neverFaults_spanListRuns s _ hrle).bind fun _ _ => .ok _
  | imageRect mat =>
    exact hdraw.bind fun _ _ => (neverFaults_checkImage _ _).bind fun _ _ =>
      (neverFaults_transform _ _).bind fun _ _ => (neverFaults_checkRectBounds _).bind fun _ _ =>
        .ite (fun _ => (neverFaults_checkRectSource _).bind fun _ _ => .ok _) fun _ => .ok _
  | imageRle mat =>
    exact hdraw.bind fun _ _ => (neverFaults_checkImage _ _).bind fun _ _ =>
      (neverFaults_checkRle _ _).bind fun _ hrle => (neverFaults_transform _ _).bind fun _ _ =>
        (neverFaults_spanListRuns s _ hrle).bind fun _ _ => .ok _

/-! ## Steps -/

theorem startWalk_not_fault (i : Instr) (s : State) (f : Fault) : startWalk i s ≠ .fault f := by
  obtain ⟨-, e⟩ | ⟨-, -, e⟩ | ⟨-, -, e⟩ := startWalk_cases i s <;> rw [e] <;> exact nofun

/-- NOP and SETUP complete in phase VALIDATE (42_fill.md R160). -/
theorem controlStep_validate (v : State → State) (s : State) (hph : s.ph = .validate) :
    controlStep v s = .next (v s) := by
  unfold controlStep
  rw [hph]

/-- No command faults in phase VALIDATE. -/
theorem exec_validate_not_fault (i : Instr) (s : State) (hph : s.ph = .validate) (f : Fault) :
    exec i s ≠ .fault f := by
  by_cases hi : draws i = true
  · have hnever := neverFaults_validationOf i s
    cases hv : validationOf i s with
    | error e =>
      rw [exec_of_validation_error i hi s hph e hv]
      cases e with
      | error code info | refusal r => exact nofun
      | fault g => exact absurd hv (hnever g)
    | ok u =>
      rw [exec_of_validation_ok i hi s u hph hv]
      exact startWalk_not_fault i u f
  · cases i with
    | nop =>
      have hnext : exec .nop s = .next (completeSuccess s) := controlStep_validate _ s hph
      rw [hnext]
      exact nofun
    | setup =>
      have hnext : exec .setup s = .next (validateSetup s) := controlStep_validate _ s hph
      rw [hnext]
      exact nofun
    | clear | fillRect | fillRle | imageRect | imageRle => exact absurd rfl hi

/-- In a good walk the engine stores a group and goes on. -/
theorem exec_walk_next (s : State) (hs : s.Inv) (hph : s.ph = .walk) :
    ∃ i t, decode s.p.cmd = .ok i ∧ exec i s = .next t := by
  obtain ⟨i, hcmd, hpath, -⟩ := (hs.walk hph).command
  obtain ⟨r, hr, hc⟩ := cursorOn_of_inv s hs hph
  have hanswers : ∀ j < groupAt s r, ∃ v, pixelOf i s (r.x0 + s.off + j) r.y r.cov = .ok v := by
    intro j hj
    have := groupAt_le s r hc.inRun
    rw [Nat.add_assoc]
    exact pixelOf_total i s r hpath hc.surface hr hc.inSurface _ (by omega)
  choose! val hval using hanswers
  obtain ⟨m, hstep, -⟩ := walkStep_eq s r _ hc val hval
  exact ⟨i, _, hcmd, (exec_walk i (draws_of_walkPathOk hpath) s hph).trans hstep⟩

theorem engineTurn_not_fault (s : State) (hs : s.Inv) (f : Fault) : engineTurn s ≠ .fault f := by
  cases hph : s.ph with
  | idle => simp [engineTurn, hph]
  | validate =>
    cases hcmd : decode s.p.cmd with
    | ok i => simpa only [engineTurn, hph, hcmd] using exec_validate_not_fault i s hph f
    | error e => simp [engineTurn, illegalStep, hph, hcmd]
  | walk =>
    obtain ⟨i, t, hcmd, hnext⟩ := exec_walk_next s hs hph
    simp [engineTurn, hph, hcmd, hnext]

theorem hostStatement_not_fault (s : State) (rest : List HostStmt) (st : HostStmt) (f : Fault) :
    hostStatement s rest st ≠ .fault f := by
  cases st with
  | wr | rd | cmd | wait => exact nofun
  | busWrite | busRead | memWrite | memRead => dsimp only [hostStatement]; split <;> exact nofun

theorem hostTurn_not_fault (s : State) (f : Fault) : hostTurn s ≠ .fault f := by
  unfold hostTurn
  split
  · exact nofun
  · exact hostStatement_not_fault _ _ _ f

theorem step_not_fault (s : State) (hs : s.Inv) (f : Fault) : step s ≠ .fault f := by
  unfold step agentTurn
  split
  · exact hostTurn_not_fault _ f
  · exact engineTurn_not_fault _ ((hostUpdate_takeTurn s).inv hs) f

/-- A refusal ends the run. -/
theorem runSteps_of_refused (n : Nat) (s : State) (r : Refusal) (h : step s = .refused r) :
    runSteps (n + 1) s = .refused r := by
  have hcore : Sys2Proof.core.step s = .refused r := h
  simp only [runSteps, Host.Core.run, hcore]
  rfl

/-- A good state stays good along its run, so no step of the run faults. -/
theorem runSteps_not_fault (n : Nat) (s : State) (hs : s.Inv) (f : Fault) : runSteps n s ≠ .fault f := by
  induction n generalizing s with
  | zero => exact nofun
  | succ n ih =>
    cases hstep : step s with
    | next t =>
      rw [runSteps_succ n s t hstep]
      exact ih t (everyStepKeepsAGoodState s t hs hstep)
    | fault g => exact absurd hstep (step_not_fault s hs g)
    | refused r =>
      rw [runSteps_of_refused n s r hstep]
      exact nofun

/-- Settles O53: a good state stays good (O52), and its next step never faults. -/
theorem goodStateNeverFaults : Obligations.GoodStateNeverFaults :=
  fun _ s hs k _ f => runSteps_not_fault k s hs f

end Sys2Proof.Machine
end

section
/-! PROOFS. The statements of 30_encoding.md: command words and their fields (R100, R102), legality (R105), the
spellings of the commands (R110), the write of CMD (R103, R104) and `wait` (R111). -/

namespace Sys2Proof

/-! ## Fields and words -/

/-- The fields of a word cover it: the word is joined from them again (30_encoding.md R100). -/
theorem fieldsWord_cmdFields (w : Word) : fieldsWord (cmdFields w) = w := by
  apply BitVec.eq_of_getLsbD_eq
  intro j hj
  simp only [fieldsWord, cmdFields, BitVec.getLsbD_append, BitVec.getLsbD_extractLsb']
  obtain hop | rfl | hrsv : j < 8 ∨ j = 8 ∨ 9 ≤ j := by omega
  · simp [hop, show j < 9 by omega]
  · simp
  · simp [show ¬ j < 9 by omega, show j - 9 < 23 by omega, show 9 + (j - 9) = j by omega]

theorem cmdFields_encode (i : Instr) : cmdFields (encode i) = i.fields := by
  cases i with
  | nop => exact Laws.WordHasFields.nop.1
  | setup => exact Laws.WordHasFields.setup.1
  | clear => exact Laws.WordHasFields.clear.1
  | fillRect => exact Laws.WordHasFields.fillRect.1
  | fillRle => exact Laws.WordHasFields.fillRle.1
  | imageRect mat => exact (Laws.WordHasFields.imageRect mat).1
  | imageRle mat => exact (Laws.WordHasFields.imageRle mat).1

/-! ## The decoder -/

theorem withoutMat_eq_ok_iff (op : BitVec 8) (mat : Bool) (i j : Instr) :
    withoutMat op mat i = .ok j ↔ mat = false ∧ i = j := by
  cases mat <;> simp [withoutMat]

theorem decodeOp_fields (i : Instr) : decodeOp i.fields.op i.fields.mat = .ok i := by cases i <;> rfl

theorem rsv_fields (i : Instr) : i.fields.rsv = 0 := by cases i <;> rfl

/-- The command of an OP value and a MAT bit has these fields: one case per row of 30_encoding.md R102. -/
theorem fields_of_decodeOp {op : BitVec 8} {mat : Bool} {i : Instr} (h : decodeOp op mat = .ok i) :
    i.fields = ⟨op, mat, 0⟩ := by
  unfold decodeOp at h
  split_ifs at h with h0 h1 h2 h3 h4 h5 h6
  case pos | pos | pos | pos | pos =>
    obtain ⟨rfl, rfl⟩ := (withoutMat_eq_ok_iff _ _ _ _).1 h
    subst op
    rfl
  case pos | pos =>
    cases h
    subst op
    rfl

/-- A word decodes to a command exactly when its fields are the command's (30_encoding.md R105). -/
theorem decode_eq_ok_iff (w : Word) (i : Instr) : decode w = .ok i ↔ cmdFields w = i.fields := by
  unfold decode
  dsimp only
  constructor
  · intro h
    split at h
    next hrsv => rw [fields_of_decodeOp h, ← hrsv]
    next => cases h
  · intro h
    rw [h, if_pos (rsv_fields i), decodeOp_fields]

theorem decode_encode (i : Instr) : decode (encode i) = .ok i :=
  (decode_eq_ok_iff _ _).2 (cmdFields_encode i)

theorem eq_encode_of_decode {w : Word} {i : Instr} (h : decode w = .ok i) : w = encode i :=
  calc w = fieldsWord (cmdFields w) := (fieldsWord_cmdFields w).symm
    _ = encode i := congrArg fieldsWord ((decode_eq_ok_iff w i).1 h)

theorem Instr.wellFormed_eq_true (i : Instr) : i.wellFormed = true := by
  cases i with
  | nop | setup | clear | fillRect | fillRle => rfl
  | imageRect mat | imageRle mat => cases mat <;> rfl

/-- Settles O1: a word is determined by its fields, and decodes to the command that has them. -/
theorem decodeAndEncodeAgree : Obligations.DecodeAndEncodeAgree :=
  ⟨fun i => ⟨i.wellFormed_eq_true, decode_encode i⟩, fun _ _ => eq_encode_of_decode⟩

/-! ## Legality -/

/-- The legal fields are the fields of the commands (30_encoding.md R105, R110). -/
theorem CmdFields.legal_iff (f : CmdFields) : f.legal = true ↔ ∃ i : Instr, f = i.fields := by
  constructor
  · obtain ⟨op, mat, rsv⟩ := f
    simp only [legal, opKnown, rsvClear, matAllowed, Bool.and_eq_true, Bool.or_eq_true, beq_iff_eq,
      Bool.not_eq_true']
    rintro ⟨⟨hop, rfl⟩, hmat⟩
    cases mat with
    | false =>
      obtain (((((rfl | rfl) | rfl) | rfl) | rfl) | rfl) | rfl := hop
      exacts [⟨.nop, rfl⟩, ⟨.setup, rfl⟩, ⟨.clear, rfl⟩, ⟨.fillRect, rfl⟩, ⟨.fillRle, rfl⟩,
        ⟨.imageRect false, rfl⟩, ⟨.imageRle false, rfl⟩]
    | true =>
      obtain (hfalse | rfl) | rfl := hmat
      · cases hfalse
      · exact ⟨.imageRect true, rfl⟩
      · exact ⟨.imageRle true, rfl⟩
  · rintro ⟨i, rfl⟩
    exact i.wellFormed_eq_true

theorem legal_cmdFields_iff (w : Word) : (cmdFields w).legal = true ↔ ∃ i, decode w = .ok i := by
  simp only [CmdFields.legal_iff, decode_eq_ok_iff]

/-- Legality in the word's own arithmetic (30_encoding.md R100, R105). -/
theorem legal_cmdFields_iff_arith (w : Word) : (cmdFields w).legal = true ↔
    w.toNat % 256 ∈ [0x00, 0x01, 0x02, 0x10, 0x11, 0x20, 0x21] ∧ w.toNat / 512 = 0 ∧
      (w.toNat / 256 % 2 = 0 ∨ w.toNat % 256 ∈ [0x20, 0x21]) := by
  have hop (v : BitVec 8) : w.extractLsb' 0 8 = v ↔ w.toNat % 256 = v.toNat := by
    rw [← BitVec.toNat_inj, BitVec.extractLsb'_toNat]
    rfl
  have hmat : w.getLsbD 8 = false ↔ w.toNat / 256 % 2 = 0 := by
    rw [BitVec.getLsbD, Nat.testBit_eq_decide_div_mod_eq, decide_eq_false_iff_not]
    omega
  have hrsv : w.extractLsb' 9 23 = 0 ↔ w.toNat / 512 = 0 := by
    have hlt : w.toNat / 512 < 2 ^ 23 := by omega
    rw [← BitVec.toNat_inj, BitVec.extractLsb'_toNat, Nat.shiftRight_eq_div_pow, Nat.mod_eq_of_lt hlt]
    rfl
  simp only [CmdFields.legal, CmdFields.opKnown, CmdFields.rsvClear, CmdFields.matAllowed, cmdFields,
    Bool.and_eq_true, Bool.or_eq_true, beq_iff_eq, Bool.not_eq_true', hop, hmat, hrsv, List.mem_cons,
    List.not_mem_nil, or_false, or_assoc, and_assoc]
  rfl

end Sys2Proof

namespace Sys2Proof.Machine

/-- The engine's event when a command is under validation (30_encoding.md R105). -/
theorem step_validate_of_decode_ok (s : State) (i : Instr) (hagent : nextAgent s = .engine)
    (hph : s.ph = .validate) (hi : decode s.p.cmd = .ok i) : step s = exec i (takeTurn s) := by
  simp only [step, hagent, agentTurn, engineTurn, takeTurn, hph, hi]

theorem step_validate_of_decode_error (s : State) (e : IllegalWord) (hagent : nextAgent s = .engine)
    (hph : s.ph = .validate) (he : decode s.p.cmd = .error e) :
    step s = .next (failureState 1 s.p.cmd (takeTurn s)) := by
  simp only [step, hagent, agentTurn, engineTurn, takeTurn, hph, he, illegalStep]
  rfl

/-- Settles O2: a word is legal exactly when it decodes to a command. -/
theorem illegalWordFailsWithItself : Obligations.IllegalWordFailsWithItself := by
  intro s hagent hph
  dsimp only
  rw [← legal_cmdFields_iff_arith, legal_cmdFields_iff]
  constructor
  · rintro ⟨i, hi⟩
    exact ⟨i, hi, step_validate_of_decode_ok s i hagent hph hi⟩
  · intro hillegal
    cases hdecode : decode s.p.cmd with
    | ok i => exact absurd ⟨i, hdecode⟩ hillegal
    | error e => exact step_validate_of_decode_error s e hagent hph hdecode

/-! ## Spellings -/

theorem mem_allCommands (i : Instr) : i ∈ allCommands := by
  cases i with
  | nop | setup | clear | fillRect | fillRle => decide
  | imageRect mat | imageRle mat => cases mat <;> decide

/-- No two commands share a spelling: the assembler finds a command by its own (30_encoding.md R110). -/
theorem commandOf_mnemonicOf (i : Instr) : commandOf (mnemonicOf i).toList = some i := by
  cases i with
  | nop | setup | clear | fillRect | fillRle => decide
  | imageRect mat | imageRle mat => cases mat <;> decide

theorem commandOf_eq_none_iff (t : List Char) : commandOf t = none ↔ ∀ i, t ≠ (mnemonicOf i).toList := by
  simp only [commandOf, List.find?_eq_none, mem_allCommands, true_imp_iff, beq_iff_eq, ne_comm, ne_eq]

theorem assembleTokens_cmd (sc : HostScene) (t : List Char) :
    assembleTokens sc ["cmd".toList, t] = (commandOf t).map fun i => [.cmd i] := rfl

theorem assembleTokens_cmd_mnemonicOf (sc : HostScene) (i : Instr) :
    assembleTokens sc ["cmd".toList, (mnemonicOf i).toList] = some [.cmd i] := by
  rw [assembleTokens_cmd, commandOf_mnemonicOf, Option.map_some]

/-- A row of the table of 30_encoding.md R110: a command between its spelling and its word. -/
def spellingRow (i : Instr) : String × Instr × Word := (mnemonicOf i, i, encode i)

theorem forall_mem_map_spellingRow (P : String × Instr × Word → Prop) :
    (∀ e ∈ allCommands.map spellingRow, P e) ↔ ∀ i, P (spellingRow i) := by
  simp only [List.forall_mem_map, mem_allCommands, true_imp_iff]

/-- Settles O3: the table holds the row of every command, and nothing else. -/
theorem nineSpellingsAndTheirWords : Obligations.NineSpellingsAndTheirWords := by
  unfold Obligations.NineSpellingsAndTheirWords
  intro table sc
  have htable : table = allCommands.map spellingRow := by decide
  rw [htable]
  simp only [forall_mem_map_spellingRow]
  refine ⟨fun i => ⟨assembleTokens_cmd_mnemonicOf sc i, rfl, decode_encode i⟩, fun t ht => ?_⟩
  rw [assembleTokens_cmd, (commandOf_eq_none_iff t).2 ht, Option.map_none]

/-! ## The write of CMD -/

theorem hostStatement_cmd (s : State) (rest : List HostStmt) (i : Instr) :
    hostStatement s rest (.cmd i) = hostStatement s rest (.wr .cmd (encode i)) := rfl

theorem hostStatement_wr_cmd_of_idle (s : State) (rest : List HostStmt) (w : Word) (h : s.busy = false) :
    hostStatement s rest (.wr .cmd w) = .next (accept w s) := by
  simp only [hostStatement, writeReg, writeCmd, h, Bool.false_eq_true, if_false]

theorem hostStatement_wr_cmd_of_busy (s : State) (rest : List HostStmt) (w : Word) (h : s.busy = true) :
    hostStatement s rest (.wr .cmd w) = .next { s with ovf := true } := by
  simp only [hostStatement, writeReg, writeCmd, h, if_true]

/-- Settles O6: a write of CMD while idle is `accept`, whose fields are R103's. -/
theorem idleCommandWriteIsAccepted : Obligations.IdleCommandWriteIsAccepted :=
  fun s rest hidle => ⟨fun w => hostStatement_wr_cmd_of_idle s rest w hidle,
    fun i => (hostStatement_cmd s rest i).trans (hostStatement_wr_cmd_of_idle s rest (encode i) hidle)⟩

/-- Settles O7: a write of CMD while busy is dropped, and `cmd` is such a write. -/
theorem busyCommandWriteSetsOverflow : Obligations.BusyCommandWriteSetsOverflow :=
  fun s rest hbusy => ⟨fun w => hostStatement_wr_cmd_of_busy s rest w hbusy,
    fun i => (hostStatement_cmd s rest i).trans (hostStatement_wr_cmd_of_busy s rest (encode i) hbusy)⟩

/-- Settles O16: bit 0 of the STATUS word that `wait` reads is BUSY. -/
theorem waitPollsUntilNotBusy : Obligations.WaitPollsUntilNotBusy := by
  intro s rest
  obtain ⟨hbusy, -⟩ := statusWord_bits s
  simp only [hostStatement, hostRead, hbusy, readReg_status]

end Sys2Proof.Machine
end

section
/-! PROOFS. The statements of 40_color_algebra.md about the multipliers (R124 to R126), the premultiplied
colour (R128), SRC-OVER (R129, R130), the masked source (R131, R132) and the colour-space swap (R136). -/

namespace Sys2Proof.Machine

/-! ## The channel multiplier (R124) -/

theorem amul_intermediate_le (c k : Byte) : c.toNat * k.toNat + k.toNat ≤ 65280 := by
  have hprod : c.toNat * k.toNat ≤ 255 * 255 := Nat.mul_le_mul (by omega) (by omega)
  omega

theorem amul_toNat (c k : Byte) : (amul c k).toNat = (c.toNat * k.toNat + k.toNat) / 256 := by
  have hbound := amul_intermediate_le c k
  rw [amul, BitVec.toNat_ofNat, Nat.shiftRight_eq_div_pow]
  exact Nat.mod_eq_of_lt (by omega)

@[simp] theorem amul_255_right (c : Byte) : amul c 255 = c := by
  apply BitVec.eq_of_toNat_eq
  rw [amul_toNat]
  bv_omega

@[simp] theorem amul_255_left (k : Byte) : amul 255 k = k := by
  apply BitVec.eq_of_toNat_eq
  rw [amul_toNat]
  bv_omega

@[simp] theorem amul_zero_right (c : Byte) : amul c 0 = 0 := by
  apply BitVec.eq_of_toNat_eq
  rw [amul_toNat]
  bv_omega

@[simp] theorem amul_zero_left (k : Byte) : amul 0 k = 0 := by
  apply BitVec.eq_of_toNat_eq
  rw [amul_toNat]
  bv_omega

/-- No channel exceeds its factor, since it is the factor for the largest channel (R130). -/
theorem amul_le_right (c k : Byte) : (amul c k).toNat ≤ k.toNat := by
  have hprod : c.toNat * k.toNat ≤ 255 * k.toNat := Nat.mul_le_mul_right _ (by omega)
  rw [amul_toNat]
  omega

theorem amul_mono {c d : Byte} (k : Byte) (h : c ≤ d) : amul c k ≤ amul d k := by
  have hprod : c.toNat * k.toNat ≤ d.toNat * k.toNat := Nat.mul_le_mul_right _ h
  rw [BitVec.le_def, amul_toNat, amul_toNat]
  omega

/-- Settles O19: the number of a product, which never overflows, and its corners. -/
theorem channelMultiplierAndCorners : Obligations.ChannelMultiplierAndCorners :=
  ⟨fun c k => ⟨amul_toNat c k, amul_intermediate_le c k⟩, amul_255_right, amul_255_left,
    amul_zero_right, amul_zero_left, rfl, rfl, rfl, rfl, rfl⟩

/-! ## The packed multiplier (R125) -/

theorem byteOf_alphaMul (p : Word) (k : Byte) (i : Nat) (hi : i < 4) :
    byteOf (alphaMul p k) i = amul (byteOf p i) k := by
  obtain ⟨h3, h2, h1, h0⟩ := byteOf_pack (amul (byteOf p 3) k) (amul (byteOf p 2) k)
    (amul (byteOf p 1) k) (amul (byteOf p 0) k)
  match i, hi with
  | 0, _ => exact h0
  | 1, _ => exact h1
  | 2, _ => exact h2
  | 3, _ => exact h3

@[simp] theorem alphaMul_255 (p : Word) : alphaMul p 255 = p :=
  word_ext _ _ fun i hi => by rw [byteOf_alphaMul p 255 i hi, amul_255_right]

@[simp] theorem alphaMul_zero (p : Word) : alphaMul p 0 = 0 := by
  simp only [alphaMul, amul_zero_right]
  rfl

/-- Settles O20: the corners hold of each byte, so of the word. -/
theorem packedMultiplierActsPerByte : Obligations.PackedMultiplierActsPerByte :=
  ⟨byteOf_alphaMul, alphaMul_255, alphaMul_zero, rfl, rfl⟩

/-! ## The byte multiplier (R126) -/

/-- The byte multiplier stays below its second factor, so its quotient fits in a byte. -/
theorem alphaMul8_quotient_le (a b : Byte) : (a.toNat * b.toNat + 127) / 255 ≤ b.toNat := by
  have hprod : a.toNat * b.toNat ≤ 255 * b.toNat := Nat.mul_le_mul_right _ (by omega)
  omega

theorem alphaMul8_toNat (a b : Byte) : (alphaMul8 a b).toNat = (a.toNat * b.toNat + 127) / 255 := by
  have hquot := alphaMul8_quotient_le a b
  rw [alphaMul8, BitVec.toNat_ofNat]
  exact Nat.mod_eq_of_lt (by omega)

theorem alphaMul8_le_right (a b : Byte) : alphaMul8 a b ≤ b := by
  rw [BitVec.le_def, alphaMul8_toNat]
  exact alphaMul8_quotient_le a b

@[simp] theorem alphaMul8_255_right (a : Byte) : alphaMul8 a 255 = a := by
  apply BitVec.eq_of_toNat_eq
  rw [alphaMul8_toNat]
  bv_omega

@[simp] theorem alphaMul8_zero_right (a : Byte) : alphaMul8 a 0 = 0 := by
  apply BitVec.eq_of_toNat_eq
  rw [alphaMul8_toNat]
  bv_omega

/-- Settles O21: the quotient fits in a byte. -/
theorem byteMultiplierAndCorners : Obligations.ByteMultiplierAndCorners :=
  ⟨alphaMul8_toNat, alphaMul8_255_right, alphaMul8_zero_right, rfl, rfl, rfl, rfl, rfl, rfl⟩

/-! ## Premultiplied pixels (R128, R130) -/

/-- Byte 3 is the alpha byte itself, so the bound may be asked of every byte. -/
theorem premultiplied_iff (p : Word) : premultiplied p = true ↔ ∀ i < 4, byteOf p i ≤ byteOf p 3 := by
  unfold premultiplied
  simp only [Bool.and_eq_true, decide_eq_true_eq]
  constructor
  · rintro ⟨⟨h2, h1⟩, h0⟩ i hi
    match i, hi with
    | 0, _ => exact h0
    | 1, _ => exact h1
    | 2, _ => exact h2
    | 3, _ => exact BitVec.le_refl _
  · intro h
    exact ⟨⟨h 2 (by decide), h 1 (by decide)⟩, h 0 (by decide)⟩

theorem premultiplied_pack (a r g b : Byte) :
    premultiplied (pack a r g b) = true ↔ r ≤ a ∧ g ≤ a ∧ b ≤ a := by
  unfold premultiplied
  simp only [Bool.and_eq_true, decide_eq_true_eq, alpha, byteOf_pack, and_assoc]

theorem premultiplied_colorPm (cs : ColourSpace) (cin : Word) : premultiplied (colorPm cs cin) = true := by
  cases cs with
  | argb8888 | abgr8888 =>
    exact (premultiplied_pack _ _ _ _).2
      ⟨alphaMul8_le_right _ _, alphaMul8_le_right _ _, alphaMul8_le_right _ _⟩

theorem colorPm_eq_join (cs : ColourSpace) (cin : Word) :
    colorPm cs cin = join cs (alphaMul8 (byteOf cin 2) (byteOf cin 3)) (alphaMul8 (byteOf cin 1) (byteOf cin 3))
      (alphaMul8 (byteOf cin 0) (byteOf cin 3)) (byteOf cin 3) := rfl

theorem colorPm_of_transparent (cs : ColourSpace) (cin : Word) (h : byteOf cin 3 = 0) :
    colorPm cs cin = 0 := by
  simp only [colorPm_eq_join, h, alphaMul8_zero_right]
  cases cs <;> rfl

/-- Settles O22: the byte multiplier keeps each channel at most the alpha. -/
theorem solidColourIsPremultiplied : Obligations.SolidColourIsPremultiplied := by
  intro cs cin
  dsimp only
  refine ⟨?_, fun hopaque => ?_, colorPm_of_transparent cs cin, premultiplied_colorPm cs cin,
    rfl, rfl, rfl⟩
  · cases cs <;> rfl
  · rw [hopaque]
    exact ⟨alphaMul8_255_right _, alphaMul8_255_right _, alphaMul8_255_right _⟩

/-- Scaling keeps premultiplication, since it is monotone in the channel. -/
theorem premultiplied_alphaMul {p : Word} (k : Byte) (h : premultiplied p = true) :
    premultiplied (alphaMul p k) = true := by
  rw [premultiplied_iff] at h ⊢
  intro i hi
  rw [byteOf_alphaMul p k i hi, byteOf_alphaMul p k 3 (by decide)]
  exact amul_mono k (h i hi)

/-! ## SRC-OVER (R129, R130) -/

theorem srcover_of_opaque {s : Word} (d : Word) (h : byteOf s 3 = 255) : srcover s d = s := by
  have hfactor : (255 : Byte) - 255 = 0 := rfl
  rw [srcover, alpha, h, hfactor, alphaMul_zero]
  exact BitVec.add_zero s

@[simp] theorem srcover_zero_left (d : Word) : srcover 0 d = d := by
  have hfactor : 255 - alpha 0 = 255 := by decide
  rw [srcover, hfactor, alphaMul_255]
  exact BitVec.zero_add d

/-- Settles O23: the equation is the model's addition, and its two extremes are an opaque source and 0. -/
theorem sourceOverEquationAndExtremes : Obligations.SourceOverEquationAndExtremes :=
  ⟨fun _ _ => BitVec.toNat_add _ _, fun _ d => srcover_of_opaque d, srcover_zero_left,
    fun d => srcover_of_opaque d rfl, rfl, rfl⟩

/-- Packed words whose byte sums all fit in a byte add byte by byte. -/
theorem add_eq_pack_of_noCarry (a b : Word) (h : ∀ i < 4, (byteOf a i).toNat + (byteOf b i).toNat ≤ 255) :
    a + b = pack (byteOf a 3 + byteOf b 3) (byteOf a 2 + byteOf b 2) (byteOf a 1 + byteOf b 1)
      (byteOf a 0 + byteOf b 0) := by
  have h0 := h 0 (by decide)
  have h1 := h 1 (by decide)
  have h2 := h 2 (by decide)
  have h3 := h 3 (by decide)
  apply BitVec.eq_of_toNat_eq
  rw [BitVec.toNat_add, pack_toNat, word_split a, word_split b]
  simp only [BitVec.toNat_add]
  omega

/-- The key fact of R130: a byte is at most the alpha, and what is added to it at most 255 minus the alpha. -/
theorem srcover_byteSum_le {s : Word} (d : Word) (hs : premultiplied s = true) (i : Nat) (hi : i < 4) :
    (byteOf s i).toNat + (amul (byteOf d i) (255 - byteOf s 3)).toNat ≤ 255 := by
  have hbyte : byteOf s i ≤ byteOf s 3 := (premultiplied_iff s).1 hs i hi
  have hadded := amul_le_right (byteOf d i) (255 - byteOf s 3)
  bv_omega

/-- Over a premultiplied source SRC-OVER is an addition of each byte alone. -/
theorem srcover_eq_pack {s : Word} (d : Word) (hs : premultiplied s = true) : srcover s d =
    pack (byteOf s 3 + amul (byteOf d 3) (255 - byteOf s 3)) (byteOf s 2 + amul (byteOf d 2) (255 - byteOf s 3))
      (byteOf s 1 + amul (byteOf d 1) (255 - byteOf s 3)) (byteOf s 0 + amul (byteOf d 0) (255 - byteOf s 3)) := by
  have hsum : ∀ i < 4, (byteOf s i).toNat + (byteOf (alphaMul d (255 - byteOf s 3)) i).toNat ≤ 255 :=
    fun i hi => by rw [byteOf_alphaMul _ _ i hi]; exact srcover_byteSum_le d hs i hi
  rw [srcover, alpha, add_eq_pack_of_noCarry _ _ hsum, byteOf_alphaMul _ _ 3 (by decide),
    byteOf_alphaMul _ _ 2 (by decide), byteOf_alphaMul _ _ 1 (by decide), byteOf_alphaMul _ _ 0 (by decide)]

theorem byteOf_srcover {s : Word} (d : Word) (hs : premultiplied s = true) (i : Nat) (hi : i < 4) :
    byteOf (srcover s d) i = byteOf s i + amul (byteOf d i) (255 - byteOf s 3) := by
  rw [srcover_eq_pack d hs]
  match i, hi with
  | 0, _ | 1, _ | 2, _ | 3, _ => simp only [byteOf_pack]

theorem premultiplied_srcover {s d : Word} (hs : premultiplied s = true) (hd : premultiplied d = true) :
    premultiplied (srcover s d) = true := by
  rw [premultiplied_iff]
  intro i hi
  have hsource : byteOf s i ≤ byteOf s 3 := (premultiplied_iff s).1 hs i hi
  have hadded := amul_mono (255 - byteOf s 3) ((premultiplied_iff d).1 hd i hi)
  have hsum := srcover_byteSum_le d hs 3 (by decide)
  rw [byteOf_srcover d hs i hi, byteOf_srcover d hs 3 (by decide)]
  bv_omega

/-- Settles O24: no byte sum carries, so the packed addition is one of bytes. -/
theorem premultipliedSourceOverHasNoCarry : Obligations.PremultipliedSourceOverHasNoCarry :=
  ⟨fun _ d hs => ⟨fun i hi => ⟨srcover_byteSum_le d hs i hi, byteOf_srcover d hs i hi⟩,
    premultiplied_srcover hs⟩, rfl⟩

/-! ## The masked source (R131, R132) -/

/-- Settles O25: the mask alphas 0 and 255 give the factors 0 and 255 of the packed multiplier. -/
theorem maskedSourceAndExtremes : Obligations.MaskedSourceAndExtremes := by
  have hmasked (s mp : Word) : masked s .alphaMask mp = alphaMul s (byteOf mp 3) ∧
      masked s .invAlphaMask mp = alphaMul s (255 - byteOf mp 3) := ⟨rfl, rfl⟩
  refine ⟨hmasked, fun s mp hopaque => ?_, fun s mp hclear => ?_, srcover_zero_left, rfl⟩
  · obtain ⟨halpha, hinv⟩ := hmasked s mp
    rw [halpha, hinv, hopaque]
    exact ⟨alphaMul_255 s, alphaMul_zero s⟩
  · obtain ⟨halpha, hinv⟩ := hmasked s mp
    rw [halpha, hinv, hclear]
    exact ⟨alphaMul_255 s, alphaMul_zero s⟩

/-! ## The colour-space swap (R136) -/

@[simp] theorem swapRB_pack (b3 b2 b1 b0 : Byte) : swapRB (pack b3 b2 b1 b0) = pack b3 b0 b1 b2 := by
  simp only [swapRB, byteOf_pack]

theorem colorPm_abgr_eq_swapRB (cin : Word) : colorPm .abgr8888 cin = swapRB (colorPm .argb8888 cin) :=
  (swapRB_pack _ _ _ _).symm

theorem premultiplied_swapRB {p : Word} (h : premultiplied p = true) : premultiplied (swapRB p) = true := by
  rw [premultiplied_iff] at h
  exact (premultiplied_pack _ _ _ _).2 ⟨h 0 (by decide), h 1 (by decide), h 2 (by decide)⟩

theorem alphaMul_swapRB (p : Word) (k : Byte) : alphaMul (swapRB p) k = swapRB (alphaMul p k) := by
  simp only [alphaMul, swapRB, byteOf_pack]

/-- SRC-OVER treats bytes 0 to 2 alike as long as none carries into the next. -/
theorem srcover_swapRB {s : Word} (d : Word) (hs : premultiplied s = true) :
    srcover (swapRB s) (swapRB d) = swapRB (srcover s d) := by
  rw [srcover_eq_pack _ (premultiplied_swapRB hs), srcover_eq_pack d hs, swapRB_pack]
  simp only [swapRB, byteOf_pack]

theorem premultiplied_fillSource {col : Word} (cov : Byte) (h : premultiplied col = true) :
    premultiplied (fillSource col cov) = true := by
  unfold fillSource
  split
  · exact h
  · exact premultiplied_alphaMul cov h

theorem fillSource_swapRB (col : Word) (cov : Byte) :
    fillSource (swapRB col) cov = swapRB (fillSource col cov) := by
  unfold fillSource
  split
  · rfl
  · exact alphaMul_swapRB col cov

theorem readWord_swapRB {m m' : Memory} {a : Nat} (h : wordAt m' a = swapRB (wordAt m a)) :
    readWord m' a = (readWord m a).map swapRB := by
  unfold readWord
  split
  · rw [h]; rfl
  · rfl

/-- Only the alpha byte of a mask pixel is read (R131). -/
theorem maskFactorAt_congr_alpha {p : Params} {m m' : Memory} {x y : Nat}
    (h : alpha (wordAt m' (p.maskAddr x y)) = alpha (wordAt m (p.maskAddr x y))) :
    maskFactorAt p m' x y = maskFactorAt p m x y := by
  have hfactor (k : MaskKind) : mfac k (wordAt m' (p.maskAddr x y)) = mfac k (wordAt m (p.maskAddr x y)) := by
    cases k <;> simp only [mfac, h]
  unfold maskFactorAt readWord
  split
  · rfl
  · split
    · exact congrArg Except.ok (hfactor _)
    · rfl

/-- The last step of every fill path, blending over a destination that is read: `read` is the read. -/
theorem blend_swapRB {src : Word} (hsource : premultiplied src = true) (read : Except Fault Word) :
    (do let d ← read.map swapRB; pure (some (srcover (swapRB src) d)) : Except Fault (Option Word)) =
      (do let d ← read; pure (some (srcover src d)) : Except Fault (Option Word)).map (Option.map swapRB) := by
  cases read with
  | error f => rfl
  | ok d => exact congrArg (Except.ok ∘ some) (srcover_swapRB d hsource)

/-- The fill pixel function commutes with the swap of its colour, its destination and its result. -/
theorem fillPixel_swapRB {s t : State} {x y : Nat} (cov : Byte) (hpremultiplied : premultiplied s.c = true)
    (hcolour : t.c = swapRB s.c) (hpath : t.fpath = s.fpath) (hparams : t.p.params = s.p.params)
    (hdest : wordAt t.mem (s.p.params.dstAddr x y) = swapRB (wordAt s.mem (s.p.params.dstAddr x y)))
    (hmask : alpha (wordAt t.mem (s.p.params.maskAddr x y)) = alpha (wordAt s.mem (s.p.params.maskAddr x y))) :
    fillPixel t x y cov = (fillPixel s x y cov).map (Option.map swapRB) := by
  have hsource := premultiplied_fillSource cov hpremultiplied
  unfold fillPixel
  rw [hpath, hparams, hcolour, fillSource_swapRB, readWord_swapRB hdest, maskFactorAt_congr_alpha hmask]
  generalize fillSource s.c cov = src at hsource
  cases s.fpath with
  | opaqueFill =>
    by_cases hcov : cov = 255
    · simp only [if_pos hcov]
      rfl
    · simp only [if_neg hcov]
      exact blend_swapRB hsource _
  | maskedFill =>
    cases maskFactorAt s.p.params s.mem x y with
    | error f => rfl
    | ok k =>
      have hmodulated := premultiplied_alphaMul k hsource
      simp only [alphaMul_swapRB]
      exact blend_swapRB hmodulated _
  | translucentFill => exact blend_swapRB hsource _

/-- Settles O26: a fill under the other colour space is the swapped fill; an image does not read `BL_CS`. -/
theorem colourSpaceSwapExchangesRedAndBlue : Obligations.ColourSpaceSwapExchangesRedAndBlue := by
  refine ⟨fun s t cin x y cov v hs ht hpath hparams hdest hmask hv => ?_, fun _ _ _ _ _ => rfl⟩
  have hpremultiplied : premultiplied s.c = true := by rw [hs]; exact premultiplied_colorPm _ cin
  have hcolour : t.c = swapRB s.c := by rw [hs, ht, colorPm_abgr_eq_swapRB]
  rw [fillPixel_swapRB cov hpremultiplied hcolour hpath hparams hdest hmask, hv]
  rfl

end Sys2Proof.Machine
end

section
/-! PROOFS. The statements of 41_setup.md: the validation steps of NOP (R150) and of SETUP (R151, R152), which
are also their completions. -/

namespace Sys2Proof.Machine

/-! ## Completion in the words of 60_exceptions.md -/

theorem completeSuccess_eq_successState (s : State) : completeSuccess s = successState s := rfl

theorem raiseError_eq_failureState (e : ErrCode) (info : Word) (s : State) :
    raiseError e info s = failureState e.code info s := rfl

/-! ## NOP (R150) -/

theorem exec_nop_validate (s : State) (hph : s.ph = .validate) : exec .nop s = .next (completeSuccess s) :=
  controlStep_validate completeSuccess s hph

/-- Settles O31: the validation step of NOP is its completion with success. -/
theorem nopCompletesAndChangesNothingElse : Obligations.NopCompletesAndChangesNothingElse := by
  refine ⟨fun s hph => ?_, ?afterReset⟩
  · rw [exec_nop_validate s hph, completeSuccess_eq_successState]
  case afterReset =>
    rw [readReg_status]
    decide

/-! ## SETUP (R151, R152) -/

theorem exec_setup_validate (s : State) (hph : s.ph = .validate) : exec .setup s = .next (validateSetup s) :=
  controlStep_validate validateSetup s hph

@[simp] theorem colourSpaceOf_zero : colourSpaceOf 0 = some .argb8888 := rfl

@[simp] theorem colourSpaceOf_one : colourSpaceOf 1 = some .abgr8888 := rfl

/-- The unknown codes (10_state.md R41). -/
theorem colourSpaceOf_eq_none_iff (code : BitVec 8) : colourSpaceOf code = none ↔ 2 ≤ code.toNat := by
  unfold colourSpaceOf
  split
  next h0 => simp [h0]
  next h0 =>
    split
    next h1 => simp [h1]
    next h1 =>
      have hge : 2 ≤ code.toNat := by bv_omega
      simp [hge]

/-- A known code installs the blender (R151). -/
theorem validateSetup_of_some {s : State} {cs : ColourSpace} (h : colourSpaceOf s.p.params.surfCs = some cs) :
    validateSetup s = successState { s with blValid := true, blCs := cs } := by
  unfold validateSetup
  rw [h]
  rfl

/-- An unknown code leaves no blender installed, and is the information word of the failure (R152). -/
theorem validateSetup_of_none {s : State} (h : colourSpaceOf s.p.params.surfCs = none) :
    validateSetup s =
      failureState 2 (BitVec.ofNat 32 s.p.params.surfCs.toNat) { s with blValid := false } := by
  unfold validateSetup
  rw [h, BitVec.ofNat_toNat]
  exact raiseError_eq_failureState .cs _ _

/-- Settles O32: the validation step of SETUP, by what its code names. -/
theorem setupInstallsTheBlenderOrFails : Obligations.SetupInstallsTheBlenderOrFails := by
  refine ⟨fun s hph => ?_, ?afterReset⟩
  · rw [exec_setup_validate s hph]
    refine ⟨fun hargb => ?_, fun habgr => ?_, fun hunknown => ?_⟩
    · rw [validateSetup_of_some (by rw [hargb, colourSpaceOf_zero])]
    · rw [validateSetup_of_some (by rw [habgr, colourSpaceOf_one])]
    · rw [validateSetup_of_none ((colourSpaceOf_eq_none_iff _).2 hunknown)]
  case afterReset =>
    rw [readReg_status]
    decide

end Sys2Proof.Machine
end

section
/-! PROOFS. The validation step of the fills (42_fill.md R160 to R173): the walk it begins or the completion at
once, and the failures of the bounds checks of rectangles (R168; 43_image.md R210) and of span lists (R162,
R168; 43_image.md R211). -/

namespace Sys2Proof.Machine

/-! ## Validations that fail -/

/-- A validation that fails completes the command with its code (60_exceptions.md R245). -/
theorem exec_of_validation_failure (i : Instr) (hi : draws i = true) (s : State) (hph : s.ph = .validate)
    (code : ErrCode) (info : Word) (h : validationOf i s = .error (.error code info)) :
    exec i s = .next (failureState code.code info s) :=
  exec_of_validation_error i hi s hph _ h

theorem transform_ok (mat : Bool) (p : Params) (h : TakesDirect mat p ∨ TakesResample mat p) :
    ∃ t, transform mat p = .ok t := by
  obtain hdirect | hresample := h
  · exact ⟨none, transform_direct mat p hdirect⟩
  · exact ⟨_, transform_resample mat p hresample⟩

/-! ## Rectangles (R168; 43_image.md R210) -/

theorem checkRectBounds_error (p : Params) (hregion : ¬ RegionEmpty p)
    (hout : p.surfW.toNat < p.maxX ∨ p.surfH.toNat < p.maxY) :
    checkRectBounds p = .error (.error .bounds noInfo) := by
  have hfails : ¬ (emptyRegion p = true ∨ p.maxX ≤ p.surfW.toNat ∧ p.maxY ≤ p.surfH.toNat) := by
    rw [emptyRegion_eq]
    rintro (hempty | hin)
    · exact hregion hempty
    · omega
  rw [checkRectBounds, if_neg hfails]

theorem checkRectSource_error (p : Params) (hregion : ¬ RegionEmpty p)
    (hout : p.imgW.toNat < p.originX + (p.maxX - p.minX) ∨ p.imgH.toNat < p.originY + (p.maxY - p.minY)) :
    checkRectSource p = .error (.error .srcBounds noInfo) := by
  have hfails : ¬ (emptyRegion p = true ∨ p.originX + (p.maxX - p.minX) ≤ p.imgW.toNat ∧
      p.originY + (p.maxY - p.minY) ≤ p.imgH.toNat) := by
    rw [emptyRegion_eq]
    rintro (hempty | hin)
    · exact hregion hempty
    · omega
  rw [checkRectSource, if_neg hfails]

section Rectangles

variable {s : State} (hready : DrawReady s) {e : Halt}
include hready

theorem validateFillRect_stops_at_bounds (h : checkRectBounds s.p.params = .error e) :
    validateFillRect s = .error e := by
  rw [validateFillRect, checkDraw_of_ready s hready, Except.ok_bind, h, Except.error_bind]

variable (himage : ImageUsable s.platform s.p.params) {mat : Bool}
include himage

theorem validateImageRect_stops_at_bounds {t : Option (MatrixRows Binary32)}
    (ht : transform mat s.p.params = .ok t) (h : checkRectBounds s.p.params = .error e) :
    validateImageRect mat s = .error e := by
  rw [validateImageRect, checkDraw_of_ready s hready, Except.ok_bind, (checkImage_ok_iff _ _).2 himage,
    Except.ok_bind, ht, Except.ok_bind, h, Except.error_bind]

theorem validateImageRect_stops_at_source (ht : transform mat s.p.params = .ok none)
    (hbounds : checkRectBounds s.p.params = .ok ()) (h : checkRectSource s.p.params = .error e) :
    validateImageRect mat s = .error e := by
  rw [validateImageRect, checkDraw_of_ready s hready, Except.ok_bind, (checkImage_ok_iff _ _).2 himage,
    Except.ok_bind, ht, Except.ok_bind, hbounds, Except.ok_bind, Option.isNone_none, if_pos rfl, h,
    Except.error_bind]

end Rectangles

/-- Settles O39: the checks before the bounds check pass, and the bounds check that fails decides the step. -/
theorem rectangleOutOfBoundsFails : Obligations.RectangleOutOfBoundsFails := by
  intro s hph hready hregion
  dsimp only
  refine ⟨fun hout => ⟨?fill, fun mat himage hpath => ?image⟩, fun mat himage hdirect hx hy hout => ?source⟩
  case fill =>
    exact exec_of_validation_failure .fillRect rfl s hph .bounds _
      (validateFillRect_stops_at_bounds hready (checkRectBounds_error _ hregion hout))
  case image =>
    obtain ⟨t, ht⟩ := transform_ok mat _ hpath
    exact exec_of_validation_failure (.imageRect mat) rfl s hph .bounds _
      (validateImageRect_stops_at_bounds hready himage ht (checkRectBounds_error _ hregion hout))
  case source =>
    exact exec_of_validation_failure (.imageRect mat) rfl s hph .srcBounds _
      (validateImageRect_stops_at_source hready himage (transform_direct _ _ hdirect)
        (checkRectBounds_of _ (.inr ⟨hx, hy⟩)) (checkRectSource_error _ hregion hout))

/-! ## Span lists (R162, R168; 43_image.md R211) -/

section Spans

variable {p : Params} {m : Memory} {k : Nat} (hspace : p.spanAddr k + 8 ≤ addressSpace)
include hspace

/-- A span that passes its check hands the walk of the list on: a later failure is the list's. -/
theorem spanRuns_error_of_next {direct : Bool} {n : Nat} {e : Halt} (hin : SpanInSurface p m k)
    (hsource : direct = true → SpanInImage p m k) (h : spanRuns p m direct (k + 1) n = .error e) :
    spanRuns p m direct k (n + 1) = .error e := by
  rw [spanRuns, readSpan_eq p m k hspace]
  dsimp only
  by_cases hlen : (spanOf p m k).len = 0
  · rw [if_pos hlen, h]
  · have hsurface : spanInSurface p (spanOf p m k) = true := (spanInSurface_iff p m k hlen).2 hin
    have himage : ¬ (direct && !spanInImage p (spanOf p m k)) = true := by
      rw [Bool.and_eq_true]
      rintro ⟨hdirect, hnot⟩
      rw [(spanInImage_iff p m k hlen).2 (hsource hdirect)] at hnot
      exact Bool.false_ne_true hnot
    rw [if_neg hlen, hsurface, if_neg (by decide), if_neg himage, h, Except.error_bind]

/-- A span out of the surface stops the walk of the list. -/
theorem spanRuns_outOfSurface (direct : Bool) (n : Nat) (hout : ¬ SpanInSurface p m k) :
    spanRuns p m direct k (n + 1) = .error (.error .bounds (BitVec.ofNat 32 k)) := by
  have hlen : (spanOf p m k).len ≠ 0 := fun h0 => hout fun hpos => absurd h0 (by omega)
  have hsurface : (!spanInSurface p (spanOf p m k)) = true := by
    rwa [Bool.not_eq_true', ← Bool.not_eq_true, spanInSurface_iff p m k hlen]
  rw [spanRuns, readSpan_eq p m k hspace]
  dsimp only
  rw [if_neg hlen, if_pos hsurface]

/-- On the direct path, so does one in the surface and out of the image. -/
theorem spanRuns_outOfImage (n : Nat) (hin : SpanInSurface p m k) (hout : ¬ SpanInImage p m k) :
    spanRuns p m true k (n + 1) = .error (.error .srcBounds (BitVec.ofNat 32 k)) := by
  have hlen : (spanOf p m k).len ≠ 0 := fun h0 => hout fun hpos => absurd h0 (by omega)
  have hsurface : spanInSurface p (spanOf p m k) = true := (spanInSurface_iff p m k hlen).2 hin
  have himage : (true && !spanInImage p (spanOf p m k)) = true := by
    rwa [Bool.true_and, Bool.not_eq_true', ← Bool.not_eq_true, spanInImage_iff p m k hlen]
  rw [spanRuns, readSpan_eq p m k hspace]
  dsimp only
  rw [if_neg hlen, hsurface, if_neg (by decide), if_pos himage]

end Spans

/-- A failure behind `d` spans that pass is the list's failure, by induction on `d`. -/
theorem spanRuns_error_of_later {p : Params} {m : Memory} {direct : Bool} {e : Halt} (d k n : Nat)
    (hspace : p.spanAddr (k + d) ≤ addressSpace) (hin : ∀ j, k ≤ j → j < k + d → SpanInSurface p m j)
    (hsource : direct = true → ∀ j, k ≤ j → j < k + d → SpanInImage p m j)
    (h : spanRuns p m direct (k + d) n = .error e) : spanRuns p m direct k (d + n) = .error e := by
  induction d generalizing k with
  | zero => rwa [Nat.zero_add]
  | succ d ih =>
    have hshift : k + 1 + d = k + (d + 1) := by omega
    rw [Nat.add_right_comm]
    refine spanRuns_error_of_next ?_ (hin k (by omega) (by omega))
      (fun hd => hsource hd k (by omega) (by omega)) (ih (k + 1) (by rwa [hshift])
        (fun j hj hlt => hin j (by omega) (by omega)) (fun hd j hj hlt => hsource hd j (by omega) (by omega))
        (by rwa [hshift]))
    unfold Params.spanAddr at hspace ⊢
    omega

section FirstBadSpan

variable {s : State} {k : Nat} (hspans : SpansUsable s.platform s.p.params)
  (hk : k < s.p.params.rleCount.toNat) (hin : ∀ j < k, SpanInSurface s.p.params s.mem j)
include hspans hk

/-- Record `k` of a usable list lies in the space. -/
theorem spanAddr_inSpace : s.p.params.spanAddr k + 8 ≤ addressSpace := by
  obtain hspace | hempty := spanAddr_le s hspans
  · unfold Params.spanAddr at hspace ⊢
    omega
  · rw [hempty] at hk
    exact absurd hk (by simp)

include hin

/-- The failure of the first bad span is the list's. -/
theorem spanListRuns_error {direct : Bool} {e : Halt}
    (hsource : direct = true → ∀ j < k, SpanInImage s.p.params s.mem j)
    (h : ∀ n, spanRuns s.p.params s.mem direct k (n + 1) = .error e) :
    spanListRuns s.p.params s.mem direct = .error e := by
  have hspace := spanAddr_inSpace hspans hk
  have hcount : s.p.params.rleCount.toNat = k + (s.p.params.rleCount.toNat - k - 1 + 1) := by omega
  rw [spanListRuns, hcount]
  refine spanRuns_error_of_later k 0 _ ?_ (fun j _ hj => hin j (by omega))
    (fun hd j _ hj => hsource hd j (by omega)) ?_
  · rw [Nat.zero_add]
    omega
  · rw [Nat.zero_add]
    exact h _

theorem spanListRuns_outOfSurface (direct : Bool)
    (hsource : direct = true → ∀ j < k, SpanInImage s.p.params s.mem j)
    (hout : ¬ SpanInSurface s.p.params s.mem k) :
    spanListRuns s.p.params s.mem direct = .error (.error .bounds (BitVec.ofNat 32 k)) :=
  spanListRuns_error hspans hk hin hsource fun n =>
    spanRuns_outOfSurface (spanAddr_inSpace hspans hk) direct n hout

theorem spanListRuns_outOfImage (hsource : ∀ j < k, SpanInImage s.p.params s.mem j)
    (hsurface : SpanInSurface s.p.params s.mem k) (hout : ¬ SpanInImage s.p.params s.mem k) :
    spanListRuns s.p.params s.mem true = .error (.error .srcBounds (BitVec.ofNat 32 k)) :=
  spanListRuns_error hspans hk hin (fun _ => hsource) fun n =>
    spanRuns_outOfImage (spanAddr_inSpace hspans hk) n hsurface hout

end FirstBadSpan

section SpanLists

variable {s : State} (hready : DrawReady s) (hspans : SpansUsable s.platform s.p.params) {e : Halt}
include hready hspans

theorem validateFillRle_stops_at_list (h : spanListRuns s.p.params s.mem false = .error e) :
    validateFillRle s = .error e := by
  rw [validateFillRle, checkDraw_of_ready s hready, Except.ok_bind, (checkRle_ok_iff _ _).2 hspans,
    Except.ok_bind, h, Except.error_bind]

theorem validateImageRle_stops_at_list (himage : ImageUsable s.platform s.p.params) {mat : Bool}
    {t : Option (MatrixRows Binary32)} (ht : transform mat s.p.params = .ok t)
    (h : spanListRuns s.p.params s.mem t.isNone = .error e) : validateImageRle mat s = .error e := by
  rw [validateImageRle, checkDraw_of_ready s hready, Except.ok_bind, (checkImage_ok_iff _ _).2 himage,
    Except.ok_bind, (checkRle_ok_iff _ _).2 hspans, Except.ok_bind, ht, Except.ok_bind, h, Except.error_bind]

end SpanLists

/-- Settles O40: the list stops at its first bad span, and its failure decides the step. -/
theorem firstBadSpanFailsWithItsIndex : Obligations.FirstBadSpanFailsWithItsIndex := by
  intro s k hph hready hspans hk hin
  dsimp only
  refine ⟨fun hout => ?fill, fun mat himage => ⟨fun hresample hout => ?resample,
    fun hdirect hsource => ⟨fun hout => ?direct, fun hsurface hout => ?source⟩⟩⟩
  case fill =>
    exact exec_of_validation_failure .fillRle rfl s hph .bounds _ (validateFillRle_stops_at_list hready hspans
      (spanListRuns_outOfSurface hspans hk hin false nofun hout))
  case resample =>
    exact exec_of_validation_failure (.imageRle mat) rfl s hph .bounds _
      (validateImageRle_stops_at_list hready hspans himage (transform_resample _ _ hresample)
        (spanListRuns_outOfSurface hspans hk hin false nofun hout))
  case direct =>
    exact exec_of_validation_failure (.imageRle mat) rfl s hph .bounds _
      (validateImageRle_stops_at_list hready hspans himage (transform_direct _ _ hdirect)
        (spanListRuns_outOfSurface hspans hk hin true (fun _ => hsource) hout))
  case source =>
    exact exec_of_validation_failure (.imageRle mat) rfl s hph .srcBounds _
      (validateImageRle_stops_at_list hready hspans himage (transform_direct _ _ hdirect)
        (spanListRuns_outOfImage hspans hk hin hsource hsurface hout))

/-! ## Validations that pass -/

/-- A validation that passes with a run over buffers apart begins the walk. -/
theorem exec_begins_walk (i : Instr) (hi : draws i = true) (s u : State) (hph : s.ph = .validate)
    (h : validationOf i s = .ok u) (hp : u.p = s.p) (hruns : u.runs ≠ []) (hapart : BuffersApart i s.p.params) :
    exec i s = .next (walkingState u) :=
  (exec_of_validation_ok i hi s u hph h).trans
    (startWalk_walk i u _ rfl _ (congrArg Snapshot.params hp) hi hruns hapart)

/-- A validation that passes without a run completes the command (R165). -/
theorem exec_completes_empty (i : Instr) (hi : draws i = true) (s u : State) (hph : s.ph = .validate)
    (h : validationOf i s = .ok u) (hruns : u.runs = []) : exec i s = .next (emptyWalkState u) :=
  (exec_of_validation_ok i hi s u hph h).trans (startWalk_empty i u hruns)

theorem validateClear_ok (s : State) (h : SurfaceUsable s.platform s.p.params) :
    validateClear s = .ok { s with runs := clearRuns s.p.params } := by
  rw [validateClear, (checkSurface_ok_iff _ _).2 h, Except.ok_bind]
  rfl

theorem clearRuns_ne_nil (p : Params) (h : p.surfH ≠ 0) : clearRuns p ≠ [] := by
  have hpos := pos_of_ne_zero _ h
  rw [clearRuns, ne_eq, List.map_eq_nil_iff, List.range_eq_nil]
  omega

/-- CLEAR has no source (20_memory.md R80). -/
theorem buffersApart_clear (p : Params) : BuffersApart .clear p := by
  rintro a - (⟨hmask, -⟩ | ⟨himage, -⟩ | ⟨hspans, -⟩)
  · exact Bool.false_ne_true hmask
  · exact Bool.false_ne_true himage
  · exact Bool.false_ne_true hspans

theorem exec_clear_validate (s : State) (hph : s.ph = .validate) (h : SurfaceUsable s.platform s.p.params) :
    exec .clear s = .next (walkingState { s with runs := clearRuns s.p.params }) :=
  exec_begins_walk .clear rfl s _ hph (validateClear_ok s h) rfl (clearRuns_ne_nil _ h.height)
    (buffersApart_clear _)

/-- Settles O42: CLEAR reads no source, so its walk begins over the surface's rows. -/
theorem clearValidates : Obligations.ClearValidates := exec_clear_validate

/-- What a FILL fixes, in the words of R169 and R170. -/
theorem fixFill_eq (s : State) (rs : List Run) : fixFill s rs = { s with
    runs := rs, c := colorPm s.blCs s.p.params.colorIn, colorPm := colorPm s.blCs s.p.params.colorIn
    fpath := if byteOf s.p.params.colorIn 3 = 255 ∧ s.p.params.maskMethod = 0 then FillPath.opaqueFill
      else if s.p.params.maskMethod = 2 ∨ s.p.params.maskMethod = 3 then .maskedFill
      else .translucentFill } := by
  rw [fixFill, fillPath_eq]

/-- Settles O43: by whether the region has a row. -/
theorem fillRectValidates : Obligations.FillRectValidates := by
  intro s hph hready
  dsimp only
  refine ⟨fun hempty => ?_, fun hregion hx hy hapart => ?_⟩
  · have hok := validateFillRect_ok s hready (checkRectBounds_of _ (.inl hempty))
    rw [regionRuns_of_empty _ hempty] at hok
    rw [exec_completes_empty .fillRect rfl s _ hph hok rfl, fixFill_eq]
  · have hok := validateFillRect_ok s hready (checkRectBounds_of _ (.inr ⟨hx, hy⟩))
    rw [regionRuns_eq _ hregion] at hok
    rw [exec_begins_walk .fillRect rfl s _ hph hok rfl (rowRuns_ne_nil _ hregion) hapart, fixFill_eq]

/-- Settles O44: by whether a span has a pixel. -/
theorem fillRleValidates : Obligations.FillRleValidates := by
  intro s hph hready hspans hin
  dsimp only
  have hok := validateFillRle_ok s hready hspans hin
  refine ⟨fun hempty => ?_, fun hruns hapart => ?_⟩
  · rw [hempty] at hok
    rw [exec_completes_empty .fillRle rfl s _ hph hok rfl, fixFill_eq]
  · rw [exec_begins_walk .fillRle rfl s _ hph hok rfl hruns hapart, fixFill_eq]

end Sys2Proof.Machine
end

section
/-! PROOFS. The walk steps of the drawing commands (42_fill.md R164, R166, R175, R178, R179; 43_image.md R209 to
R216): what a group stores, and that it stores nothing else. -/

namespace Sys2Proof.Machine

/-! ## A group in phase WALK -/

/-- A walk step whose pixel function answers on each lane of its group. -/
theorem exec_group (i : Instr) (hi : draws i = true) (s : State) (r : Run) (hc : CursorOn s r)
    (val : Nat → Option Word)
    (hval : ∀ j < groupAt s r, pixelOf i s (r.x0 + s.off + j) r.y r.cov = .ok (val j)) : ∃ m,
    exec i s = .next (afterGroup s r (groupAt s r) m) ∧
    GroupStored s.p.params r.y (r.x0 + s.off) (groupAt s r) val s.mem m := by
  rw [exec_walk i hi s hc.walking]
  exact walkStep_eq s r _ hc val hval

/-- The lanes of a group are pixels of the surface (R166). -/
theorem CursorOn.lane {s : State} {r : Run} (hc : CursorOn s r) {j : Nat} (hj : j < groupAt s r) :
    s.off + j < r.len ∧ r.x0 + s.off + j < s.p.params.surfW.toNat ∧ r.y < s.p.params.surfH.toNat := by
  obtain ⟨-, hwidth, hheight⟩ := hc.inSurface
  have hle := groupAt_le s r hc.inRun
  have hoff := hc.inRun
  omega

/-- Settles O47: the pixel function of CLEAR is 0 everywhere. -/
theorem clearWalkStepStoresZero : Obligations.ClearWalkStepStoresZero :=
  fun s r hc => exec_group .clear rfl s r hc (fun _ => some 0) fun _ _ => rfl

/-! ## Fills (R178, R179) -/

/-- The fill pixel function in closed form (R179). -/
theorem fillPixel_eq (s : State) (hs : SurfaceUsable s.platform s.p.params)
    (hm : MaskUsable s.platform s.p.params)
    (hmasked : s.fpath = .maskedFill → s.p.params.maskMethod = 2 ∨ s.p.params.maskMethod = 3)
    (x y : Nat) (cov : Byte) (hx : x < s.p.params.surfW.toNat) (hy : y < s.p.params.surfH.toNat) :
    fillPixel s x y cov = .ok (some (fillResult s.fpath s.p.params s.mem s.c cov x y)) := by
  have hdest := dstAddr_inSpace _ _ hs x y hx hy
  cases hpath : s.fpath with
  | opaqueFill =>
    rw [fillPixel_opaque s x y cov hpath hdest]
    unfold fillResult
    split <;> rfl
  | maskedFill =>
    have hkind := (maskKind_isSome_iff _).2 (hmasked hpath)
    obtain ⟨k, hk⟩ := Option.isSome_iff_exists.1 hkind
    rw [fillPixel_masked s x y cov k hpath hk (maskAddr_inSpace _ _ hm hkind x y hx hy) hdest,
      masked_eq_maskModulated _ _ _ _ _ _ hk]
    rfl
  | translucentFill =>
    rw [fillPixel_translucent s x y cov hpath hdest]
    rfl

/-- Settles O48: each lane of the group has the closed form. -/
theorem fillWalkStepStoresTheBlend : Obligations.FillWalkStepStoresTheBlend := by
  intro s r hc hm hmasked i hi
  have hval : ∀ j < groupAt s r, fillPixel s (r.x0 + s.off + j) r.y r.cov =
      .ok (some (fillResult s.fpath s.p.params s.mem s.c r.cov (r.x0 + s.off + j) r.y)) := by
    intro j hj
    obtain ⟨-, hx, hy⟩ := hc.lane hj
    exact fillPixel_eq s hc.surface hm hmasked _ _ _ hx hy
  obtain rfl | rfl : i = .fillRect ∨ i = .fillRle := by simpa using hi
  · exact exec_group .fillRect rfl s r hc _ hval
  · exact exec_group .fillRle rfl s r hc _ hval

/-! ## Images (43_image.md R209 to R216) -/

/-- What an image command stores at `(x, y)` under coverage `cov`; a skipped pixel stores nothing (43_image.md
R214, R216). -/
def imageStored (i : Instr) (s : State) (cov : Byte) (x y : Nat) : Option Word :=
  (sourceCoord s x y).map fun c =>
    imageResult s.p.params s.mem (imageWeight i s.p.params cov) c.1.toNat c.2.toNat x y

/-- The pixel function of an image command is the image pixel function under its weight (43_image.md R215). -/
theorem pixelOf_image (i : Instr) (hi : takesImage i = true) (s : State) (x y : Nat) (cov : Byte) :
    pixelOf i s x y cov = imagePixelWeighted s (imageWeight i s.p.params cov) x y := by
  cases i with
  | nop | setup | clear | fillRect | fillRle => exact absurd hi Bool.false_ne_true
  | imageRect | imageRle => rfl

/-- A walk step of an image command, on either path. -/
theorem exec_imageGroup (i : Instr) (hi : takesImage i = true) (s : State) (r : Run) (hc : CursorOn s r)
    (hm : MaskUsable s.platform s.p.params) (himage : ImageUsable s.platform s.p.params)
    (hon : s.maskOn = true ↔ s.p.params.maskMethod = 2 ∨ s.p.params.maskMethod = 3)
    (hdirect : s.ipath = .direct → RunInImage s.p.params r) : ∃ m,
    exec i s = .next (afterGroup s r (groupAt s r) m) ∧
    GroupStored s.p.params r.y (r.x0 + s.off) (groupAt s r)
      (fun j => imageStored i s r.cov (r.x0 + s.off + j) r.y) s.mem m := by
  refine exec_group i (draws_of_takesMask (takesMask_of_takesImage hi)) s r hc _ fun j hj => ?_
  obtain ⟨hlen, hx, hy⟩ := hc.lane hj
  rw [pixelOf_image i hi]
  unfold imageStored
  cases hcoord : sourceCoord s (r.x0 + s.off + j) r.y with
  | none => exact imagePixel_skip s _ _ _ hcoord
  | some c =>
    have hin := sourceCoord_inImage s r (s.off + j) hlen hdirect c.1 c.2 (by rw [← Nat.add_assoc, hcoord])
    exact imagePixel_eq s _ _ _ c.1 c.2 hcoord hc.surface hm himage hon hx hy hin

theorem takesImage_of_mem {i : Instr} {mat : Bool} (hi : i ∈ [Instr.imageRect mat, .imageRle mat]) :
    takesImage i = true := by
  obtain rfl | rfl : i = .imageRect mat ∨ i = .imageRle mat := by simpa using hi
  · rfl
  · rfl

theorem sourceCoord_direct (s : State) (x y : Nat) (h : s.ipath = .direct) :
    sourceCoord s x y = some (directCoord s.p.params x y) := by
  rw [sourceCoord, h]

theorem sourceCoord_resample (s : State) (x y : Nat) (h : s.ipath = .resample) :
    sourceCoord s x y = resampleCoord s.inv s.p.params x y := by
  rw [sourceCoord, h]

/-- Settles O49: on the direct path every pixel of the group has its source. -/
theorem directImageWalkStepStoresTheBlend : Obligations.DirectImageWalkStepStoresTheBlend := by
  intro s r hc hm himage hon hpath hrun mat i hi
  have hgroup := exec_imageGroup i (takesImage_of_mem hi) s r hc hm himage hon fun _ => hrun
  simp only [imageStored, sourceCoord_direct _ _ _ hpath, Option.map_some] at hgroup
  exact hgroup

theorem inRange_iff (c : Binary32) (size : Nat) :
    inRange c size = true ↔ flt c .zero = false ∧ flt c (toF32 size) = true := by
  rw [inRange, Bool.and_eq_true, Bool.not_eq_true']

/-- The resampler with its range test spelled out (43_image.md R212, R213). -/
theorem resampleCoord_eq (inv : MatrixRows Binary32) (p : Params) (x y : Nat) :
    resampleCoord inv p x y =
      let rx := fround (resampleUV inv x y).1
      let ry := fround (resampleUV inv x y).2
      if flt rx .zero = false ∧ flt rx (toF32 p.imgW.toNat) = true ∧
          flt ry .zero = false ∧ flt ry (toF32 p.imgH.toNat) = true then
        some ((toInteger rx : Int), (toInteger ry : Int))
      else none := by
  rw [resampleCoord]
  dsimp only
  generalize fround (resampleUV inv x y).1 = rx
  generalize fround (resampleUV inv x y).2 = ry
  simp only [Bool.and_eq_true, inRange_iff, and_assoc]

/-- What the resample path stores or skips (43_image.md R213, R214). -/
theorem imageStored_resample (i : Instr) (s : State) (cov : Byte) (x y : Nat) (h : s.ipath = .resample) :
    imageStored i s cov x y =
      let rx := fround (resampleUV s.inv x y).1
      let ry := fround (resampleUV s.inv x y).2
      if flt rx .zero = false ∧ flt rx (toF32 s.p.params.imgW.toNat) = true ∧
          flt ry .zero = false ∧ flt ry (toF32 s.p.params.imgH.toNat) = true then
        some (imageResult s.p.params s.mem (imageWeight i s.p.params cov) (toInteger rx) (toInteger ry) x y)
      else none := by
  rw [imageStored, sourceCoord_resample s x y h, resampleCoord_eq]
  dsimp only
  generalize fround (resampleUV s.inv x y).1 = rx
  generalize fround (resampleUV s.inv x y).2 = ry
  generalize toInteger rx = sx
  generalize toInteger ry = sy
  split
  · rw [Option.map_some, Int.toNat_natCast, Int.toNat_natCast]
  · rw [Option.map_none]

/-- Settles O50: on the resample path a pixel has a source when its rounded coordinates lie in the image. -/
theorem resampledImageWalkStepStoresOrSkips : Obligations.ResampledImageWalkStepStoresOrSkips := by
  intro s r hc hm himage hon hpath mat i hi
  have hgroup := exec_imageGroup i (takesImage_of_mem hi) s r hc hm himage hon
    fun hdirect => absurd (hdirect.symm.trans hpath) nofun
  simp only [imageStored_resample _ _ _ _ _ hpath] at hgroup
  exact hgroup

/-! ## What a step of the engine writes (R166; 20_memory.md R73, R80) -/

/-- A byte that a group changed is a byte of a pixel of the group. -/
theorem GroupStored.changed {p : Params} {y x n : Nat} {val : Nat → Option Word} {m m' : Memory}
    (h : GroupStored p y x n val m m') {a : Nat} (ha : readByte m' a ≠ readByte m a) :
    ∃ j < n, p.dstAddr (x + j) y ≤ a ∧ a < p.dstAddr (x + j) y + 4 := by
  by_contra hnone
  exact ha (h.kept a fun j hj _ hword => hnone ⟨j, hj, hword⟩)

/-- The group of a good walk, whatever its command stores. -/
theorem exec_group_of_inv (i : Instr) (s t : State) (hs : s.Inv) (hph : s.ph = .walk)
    (hcmd : decode s.p.cmd = .ok i) (h : exec i s = .next t) : ∃ r val,
    CursorOn s r ∧ draws i = true ∧
    GroupStored s.p.params r.y (r.x0 + s.off) (groupAt s r) val s.mem t.mem := by
  obtain ⟨r, hr, hc⟩ := cursorOn_of_inv s hs hph
  obtain ⟨i', hcmd', hpath, -⟩ := (hs.walk hph).command
  obtain rfl : i' = i := Except.ok.inj (hcmd'.symm.trans hcmd)
  have hanswers : ∀ j < groupAt s r, ∃ v, pixelOf i' s (r.x0 + s.off + j) r.y r.cov = .ok v := by
    intro j hj
    rw [Nat.add_assoc]
    exact pixelOf_total i' s r hpath hc.surface hr hc.inSurface _ (hc.lane hj).1
  choose! val hval using hanswers
  have hi := draws_of_walkPathOk hpath
  obtain ⟨m, hnext, hstored⟩ := exec_group i' hi s r hc val hval
  obtain rfl : t = afterGroup s r (groupAt s r) m := Host.Outcome.next.inj (h.symm.trans hnext)
  refine ⟨r, val, hc, hi, ?_⟩
  rwa [afterGroup_eq]

/-- Settles O57: only a walk step writes memory, and it writes pixels of its group. -/
theorem engineWritesOnlyPixelsOfTheRun : Obligations.EngineWritesOnlyPixelsOfTheRun := by
  intro i s t hs hcmd h a ha
  have hph : s.ph = .walk := by
    by_contra hother
    obtain ⟨hmem, -⟩ := (engineStep_of_exec i s t h).unwalked hother
    exact ha (by rw [hmem])
  obtain ⟨r, val, hc, hi, hstored⟩ := exec_group_of_inv i s t hs hph hcmd h
  obtain ⟨j, hj, hle, hlt⟩ := hstored.changed ha
  obtain ⟨hlen, hx, hy⟩ := hc.lane hj
  refine ⟨hi, hph, ?_, r, r.x0 + s.off + j, hc.current, by omega, by omega, hx, hy, hle, hlt⟩
  obtain ⟨k, rfl⟩ := Nat.exists_eq_add_of_le hle
  exact has_pixelByte _ _ _ _ _ _ _ hx hy (by omega)

end Sys2Proof.Machine
end

section
/-! PROOFS. A step of the running command (42_fill.md R160), and CLEAR and an opaque FILL_RECT as wholes
(42_fill.md R173, R175, R176, R182; 70_reset_and_hazards.md R290): a walk that stores one value in every pixel,
by induction on the groups left. -/

namespace Sys2Proof.Machine

/-! ## The engine's event (R160) -/

theorem step_of_decode_ok (s : State) (i : Instr) (hagent : nextAgent s = .engine) (hph : s.ph ≠ .idle)
    (hi : decode s.p.cmd = .ok i) : step s = exec i (takeTurn s) := by
  cases hphase : s.ph with
  | idle => exact absurd hphase hph
  | validate | walk => simp only [step, hagent, agentTurn, engineTurn, takeTurn, hphase, hi]

/-- A whole word placed by `withFetchWord` is the word accepted (log 2). -/
theorem withFetchWord_eq (s : State) (w : Word) :
    s.withFetchWord 32 w.toNat = { accept w s with turns := [] } := by
  rw [State.withFetchWord, Nat.mod_eq_of_lt w.isLt, BitVec.ofNat_toNat, BitVec.setWidth_eq]

/-- Settles O4: the engine's event is the step of the decoded command; acceptance leaves the phase VALIDATE,
which gives the engine the next event of an empty schedule. -/
theorem stepRunsTheDecodedCommand : Obligations.StepRunsTheDecodedCommand := by
  refine ⟨step_of_decode_ok, fun s w i hi => ?_⟩
  rw [withFetchWord_eq]
  exact step_of_decode_ok { accept w s with turns := [] } i rfl nofun hi

/-- With no turn scheduled, a command under validation takes its step. -/
theorem step_validate_unscheduled (s : State) (i : Instr) (hph : s.ph = .validate) (hturns : s.turns = [])
    (hi : decode s.p.cmd = .ok i) : step s = exec i s := by
  have hagent : nextAgent s = .engine := by rw [nextAgent, hturns, hph]
  have htake : takeTurn s = s := by rw [takeTurn, hturns, List.tail_nil, ← hturns]
  rw [step_of_decode_ok s i hagent (by rw [hph]; exact nofun) hi, htake]

/-! ## Memory painted with one value -/

/-- Memory `m'` is `m` with the word `v` stored in every pixel of `S`, and no other byte changed. -/
structure Painted (p : Params) (v : Word) (S : Nat → Nat → Prop) (m m' : Memory) : Prop where
  stored : ∀ x y, S x y → wordAt m' (p.dstAddr x y) = v
  kept : ∀ a, (∀ x y, S x y → ¬ (p.dstAddr x y ≤ a ∧ a < p.dstAddr x y + 4)) → readByte m' a = readByte m a

/-- Two pixels are one word or share no byte, since words lie 4 bytes apart (20_memory.md R74). -/
theorem dstAddr_eq_or_apart (p : Params) (x y x' y' : Nat) : p.dstAddr x' y' = p.dstAddr x y ∨
    p.dstAddr x' y' + 4 ≤ p.dstAddr x y ∨ p.dstAddr x y + 4 ≤ p.dstAddr x' y' := by
  unfold Params.dstAddr
  omega

/-- Painting twice paints the union: a pixel painted again holds the same value. -/
theorem Painted.trans {p : Params} {v : Word} {S T U : Nat → Nat → Prop} {m m₁ m₂ : Memory}
    (h₁ : Painted p v S m m₁) (h₂ : Painted p v T m₁ m₂) (hU : ∀ x y, U x y ↔ S x y ∨ T x y) :
    Painted p v U m m₂ := by
  refine ⟨fun x y hxy => ?_, fun a ha => ?_⟩
  · by_cases hagain : ∃ x' y', T x' y' ∧ p.dstAddr x' y' = p.dstAddr x y
    · obtain ⟨x', y', hT, haddr⟩ := hagain
      rw [← haddr]
      exact h₂.stored x' y' hT
    · have hS : S x y := ((hU x y).1 hxy).resolve_right fun hT => hagain ⟨x, y, hT, rfl⟩
      refine (wordAt_congr _ _ _ fun k hk => h₂.kept _ fun x' y' hT => ?_).trans (h₁.stored x y hS)
      have hne : p.dstAddr x' y' ≠ p.dstAddr x y := fun haddr => hagain ⟨x', y', hT, haddr⟩
      have hapart := dstAddr_eq_or_apart p x y x' y'
      omega
  · exact (h₂.kept a fun x y hT => ha x y ((hU x y).2 (.inr hT))).trans
      (h₁.kept a fun x y hS => ha x y ((hU x y).2 (.inl hS)))

/-- The pixels of `n` columns from column `x` of row `y`. -/
def InGroup (y x n x' y' : Nat) : Prop := y' = y ∧ x ≤ x' ∧ x' < x + n

/-- A group whose lanes all hold `v` is painted with it. -/
theorem GroupStored.painted {p : Params} {y x n : Nat} {v : Word} {m m' : Memory}
    (h : GroupStored p y x n (fun _ => some v) m m') : Painted p v (InGroup y x n) m m' := by
  constructor
  · rintro x' y' ⟨rfl, hle, hlt⟩
    obtain ⟨j, rfl⟩ := Nat.exists_eq_add_of_le hle
    exact h.stored j (by omega) v rfl
  · exact fun a ha => h.kept a fun j hj _ => ha (x + j) y ⟨rfl, by omega, by omega⟩

/-! ## The pixels a walk still has to take -/

/-- The pixels of a run from its pixel `off` on. -/
def Run.Has (r : Run) (off x y : Nat) : Prop := y = r.y ∧ r.x0 + off ≤ x ∧ x < r.x0 + r.len

/-- The pixels of `runs` from pixel `off` of run `ri` on: the rest of that run and the runs after it (R164). -/
def Ahead (runs : List Run) (ri off x y : Nat) : Prop :=
  match runs.drop ri with
  | [] => False
  | r :: rest => Run.Has r off x y ∨ ∃ t ∈ rest, Run.Has t 0 x y

theorem ahead_zero_iff (runs : List Run) (ri x y : Nat) :
    Ahead runs ri 0 x y ↔ ∃ r ∈ runs.drop ri, Run.Has r 0 x y := by
  unfold Ahead
  cases runs.drop ri with
  | nil => simp
  | cons r rest => simp

theorem ahead_iff_of_current {runs : List Run} {ri : Nat} {r : Run} (hcur : runs[ri]? = some r)
    (off x y : Nat) :
    Ahead runs ri off x y ↔ Run.Has r off x y ∨ ∃ t ∈ runs.drop (ri + 1), Run.Has t 0 x y := by
  obtain ⟨hlt, rfl⟩ := List.getElem?_eq_some_iff.1 hcur
  unfold Ahead
  rw [List.drop_eq_getElem_cons hlt]

theorem not_ahead_of_runs_done {runs : List Run} {ri : Nat} (h : runs.length ≤ ri) (off x y : Nat) :
    ¬ Ahead runs ri off x y := by
  unfold Ahead
  rw [List.drop_eq_nil_of_le h]
  exact id

/-- A group takes its own pixels and leaves the others ahead. -/
theorem ahead_iff_afterGroup {s : State} {r : Run} {n : Nat} (m : Memory) (hcur : s.runs[s.ri]? = some r)
    (hn : s.off + n ≤ r.len) (x y : Nat) :
    let u := afterGroup s r n m
    Ahead s.runs s.ri s.off x y ↔ InGroup r.y (r.x0 + s.off) n x y ∨ Ahead u.runs u.ri u.off x y := by
  dsimp only
  rw [ahead_iff_of_current hcur]
  obtain ⟨-, e⟩ | ⟨hle, -, e⟩ | ⟨hle, -, e⟩ := afterGroup_cases s r n m <;> rw [e]
  · have hrest : Run.Has r s.off x y ↔ InGroup r.y (r.x0 + s.off) n x y ∨ Run.Has r (s.off + n) x y := by
      unfold Run.Has InGroup
      omega
    rw [ahead_iff_of_current hcur, hrest, or_assoc]
  all_goals
    have hwhole : Run.Has r s.off x y ↔ InGroup r.y (r.x0 + s.off) n x y := by
      unfold Run.Has InGroup
      omega
    rw [hwhole]
    exact or_congr_right (ahead_zero_iff _ _ _ _).symm

/-! ## A walk that stores one value -/

/-- The running command stores `v` in every pixel of full coverage, whatever memory holds (R175, R178). -/
def StoresOnly (i : Instr) (v : Word) (s : State) : Prop :=
  match i with
  | .clear => v = 0
  | .fillRect | .fillRle => s.fpath = .opaqueFill ∧ s.c = v
  | .nop | .setup | .imageRect _ | .imageRle _ => False

theorem pixelOf_of_storesOnly {i : Instr} {v : Word} {s : State} (h : StoresOnly i v s) (x y : Nat) :
    pixelOf i s x y 255 = .ok (some v) := by
  cases i with
  | nop | setup | imageRect | imageRle => exact h.elim
  | clear =>
    obtain rfl : v = 0 := h
    rfl
  | fillRect | fillRle =>
    obtain ⟨hpath, rfl⟩ := h
    simp only [pixelOf, fillPixel, hpath, fillSource, if_true]
    rfl

theorem draws_of_storesOnly {i : Instr} {v : Word} {s : State} (h : StoresOnly i v s) : draws i = true := by
  cases i with
  | nop | setup | imageRect | imageRle => exact h.elim
  | clear | fillRect | fillRle => rfl

/-- A walk, left to the engine, that stores `v` in every pixel of its runs. -/
structure UniformWalk (i : Instr) (v : Word) (s : State) : Prop where
  walking : s.ph = .walk
  turns : s.turns = []
  command : decode s.p.cmd = .ok i
  stores : StoresOnly i v s
  surface : SurfaceUsable s.platform s.p.params
  memory : Memory.wf s.mem
  inSurface : ∀ r ∈ s.runs, RunInSurface s.p.params r
  full : ∀ r ∈ s.runs, r.cov = 255
  cursor : ∃ r, s.runs[s.ri]? = some r ∧ s.off < r.len

/-- The walk is over and the command has completed with success (R164; 60_exceptions.md R244). -/
structure WalkEnded (s : State) : Prop where
  idle : s.ph = .idle
  busy : s.busy = false
  done : s.done = true
  err : s.err = false
  runs : s.runs.length ≤ s.ri
  off : s.off = 0

theorem pixelsDone_of_walkEnded {s : State} (h : WalkEnded s) : pixelsDone s = (s.runs.map Run.len).sum := by
  rw [pixelsDone, h.off, List.take_of_length_le h.runs, Nat.add_zero]

section Uniform

variable {i : Instr} {v : Word} {s : State} (h : UniformWalk i v s)
include h

theorem UniformWalk.cursorOn : ∃ r, r.cov = 255 ∧ CursorOn s r := by
  obtain ⟨r, hcur, hoff⟩ := h.cursor
  have hr := List.mem_of_getElem? hcur
  exact ⟨r, h.full r hr, h.walking, hcur, hoff, h.inSurface r hr, h.surface, h.memory⟩

/-- A group leaves such a walk, or ends it. -/
theorem UniformWalk.goes_on_or_ends (r : Run) (n : Nat) {m : Memory} (hcur : s.runs[s.ri]? = some r)
    (hm : Memory.wf m) : UniformWalk i v (afterGroup s r n m) ∨ WalkEnded (afterGroup s r n m) := by
  obtain ⟨hin, e⟩ | ⟨-, hri, e⟩ | ⟨-, hdone, e⟩ := afterGroup_cases s r n m <;> rw [e]
  · exact .inl { h with memory := hm, cursor := ⟨r, hcur, hin⟩ }
  · obtain ⟨hpos, -⟩ := h.inSurface _ (List.getElem_mem hri)
    exact .inl { h with memory := hm, cursor := ⟨_, List.getElem?_eq_getElem hri, hpos⟩ }
  · exact .inr ⟨rfl, rfl, rfl, rfl, hdone, rfl⟩

/-- One step of such a walk is one group of its value. -/
theorem UniformWalk.step_eq : ∃ r m, CursorOn s r ∧ step s = .next (afterGroup s r (groupAt s r) m) ∧
    GroupStored s.p.params r.y (r.x0 + s.off) (groupAt s r) (fun _ => some v) s.mem m := by
  obtain ⟨r, hcov, hc⟩ := h.cursorOn
  have hvalue : ∀ j < groupAt s r, pixelOf i s (r.x0 + s.off + j) r.y r.cov = .ok (some v) := by
    intro j _
    rw [hcov]
    exact pixelOf_of_storesOnly h.stores _ _
  obtain ⟨m, hstep, hstored⟩ := walkStep_eq s r _ hc _ hvalue
  exact ⟨r, m, hc,
    (step_of_walk s i h.walking h.turns h.command (draws_of_storesOnly h.stores)).trans hstep, hstored⟩

end Uniform

/-- A group keeps PIXCOUNT the count of the pixels before the cursor (10_state.md R36). -/
theorem pixcount_afterGroup {s : State} {r : Run} {n : Nat} (m : Memory) (hcur : s.runs[s.ri]? = some r)
    (hn : s.off + n ≤ r.len) (hcount : s.pixcount = BitVec.ofNat 32 (pixelsDone s)) :
    (afterGroup s r n m).pixcount = BitVec.ofNat 32 (pixelsDone (afterGroup s r n m)) := by
  rw [pixelsDone_afterGroup s r n m hcur hn, BitVec.ofNat_add, ← hcount, afterGroup_eq]

/-- What one step of such a walk does: it takes one group off those left, keeps the count, and what is painted
after it adds up to the pixels that were ahead before it. -/
structure UniformStep (i : Instr) (v : Word) (s u : State) : Prop where
  answered : step s = .next u
  next : UniformWalk i v u ∨ WalkEnded u
  groups : groupsLeft s = 1 + groupsLeft u
  runs : u.runs = s.runs
  snapshot : u.p = s.p
  count : s.pixcount = BitVec.ofNat 32 (pixelsDone s) → u.pixcount = BitVec.ofNat 32 (pixelsDone u)
  paints : ∀ m, Painted s.p.params v (Ahead u.runs u.ri u.off) u.mem m →
    Painted s.p.params v (Ahead s.runs s.ri s.off) s.mem m

theorem UniformWalk.exists_step {i : Instr} {v : Word} {s : State} (h : UniformWalk i v s) :
    ∃ u, UniformStep i v s u := by
  obtain ⟨r, m, hc, hstep, hstored⟩ := h.step_eq
  have hin : s.off + groupAt s r ≤ r.len := by
    have hle := groupAt_le s r hc.inRun
    have hoff := hc.inRun
    omega
  have hu := afterGroup_eq s r (groupAt s r) m
  have hmem : (afterGroup s r (groupAt s r) m).mem = m := (congrArg State.mem hu :)
  refine ⟨_, hstep, h.goes_on_or_ends r _ hc.current hstored.form,
    groupsLeft_afterGroup s r _ 1 m hc.current (groupsOf_groupAt s r hc.inRun).1,
    (congrArg State.runs hu :), (congrArg State.p hu :), pixcount_afterGroup m hc.current hin,
    fun m' hrest => ?_⟩
  rw [hmem] at hrest
  exact hstored.painted.trans hrest (ahead_iff_afterGroup m hc.current hin)

/-- Nothing is left to paint when the walk is over. -/
theorem painted_of_walkEnded {s : State} (h : WalkEnded s) (p : Params) (v : Word) :
    Painted p v (Ahead s.runs s.ri s.off) s.mem s.mem :=
  ⟨fun x y hxy => absurd hxy (not_ahead_of_runs_done h.runs _ x y), fun _ _ => rfl⟩

/-- Left to the engine, such a walk completes after the groups left and has painted the pixels ahead; by
induction on the groups. -/
theorem UniformWalk.completes {i : Instr} {v : Word} (g : Nat) (s : State) (h : UniformWalk i v s)
    (hg : groupsLeft s = g) : ∃ t, runSteps g s = .next t ∧ WalkEnded t ∧
      (s.pixcount = BitVec.ofNat 32 (pixelsDone s) → t.pixcount = BitVec.ofNat 32 (s.runs.map Run.len).sum) ∧
      Painted s.p.params v (Ahead s.runs s.ri s.off) s.mem t.mem := by
  induction g generalizing s with
  | zero =>
    obtain ⟨u, hu⟩ := h.exists_step
    have hgroups := hu.groups
    omega
  | succ g ih =>
    obtain ⟨u, hu⟩ := h.exists_step
    have hgroups := hu.groups
    obtain hwalk | hended := hu.next
    · obtain ⟨t, hrun, hended, hcount, hpaint⟩ := ih u hwalk (by omega)
      rw [hu.snapshot] at hpaint
      rw [hu.runs] at hcount
      exact ⟨t, (runSteps_succ g s u hu.answered).trans hrun, hended, fun h0 => hcount (hu.count h0),
        hu.paints _ hpaint⟩
    · obtain rfl : g = 0 := by
        have := groupsLeft_of_runs_done u hended.runs
        omega
      refine ⟨u, runSteps_succ 0 s u hu.answered, hended, fun h0 => ?_,
        hu.paints _ (painted_of_walkEnded hended _ v)⟩
      rw [hu.count h0, pixelsDone_of_walkEnded hended, hu.runs]

/-! ## A whole command that stores one value -/

/-- From its validation, a command that begins such a walk: 1 + G steps (70_reset_and_hazards.md R290). -/
theorem UniformWalk.command_completes {i : Instr} {v : Word} {s u : State} (hph : s.ph = .validate)
    (hturns : s.turns = []) (hcmd : decode s.p.cmd = .ok i) (hbegin : exec i s = .next (walkingState u))
    (h : UniformWalk i v (walkingState u)) : ∃ t,
      runSteps (1 + (u.runs.map fun r => groupsOf u.p.simdEn r.len).sum) s = .next t ∧ WalkEnded t ∧
      (u.pixcount = 0 → t.pixcount = BitVec.ofNat 32 (u.runs.map Run.len).sum) ∧
      Painted u.p.params v (fun x y => ∃ r ∈ u.runs, Run.Has r 0 x y) u.mem t.mem := by
  have hgroups : groupsLeft (walkingState u) = (u.runs.map fun r => groupsOf u.p.simdEn r.len).sum :=
    groupsLeft_of_off_zero _ rfl
  have hfirst := (step_validate_unscheduled s i hph hturns hcmd).trans hbegin
  obtain ⟨t, hrun, hended, hpix, hpaint⟩ := h.completes _ _ hgroups
  have hahead : Ahead u.runs 0 0 = fun x y => ∃ r ∈ u.runs, Run.Has r 0 x y := by
    funext x y
    exact propext (ahead_zero_iff _ _ _ _)
  dsimp only [walkingState] at hpaint
  rw [hahead] at hpaint
  refine ⟨t, ?_, hended, fun h0 => hpix ?_, hpaint⟩
  · rw [Nat.add_comm, runSteps_succ _ s _ hfirst, hrun]
  · show u.pixcount = _
    rw [h0]
    rfl

theorem sum_map_clearRuns (p : Params) (f : Nat → Nat) :
    ((clearRuns p).map fun r => f r.len).sum = p.surfH.toNat * f p.surfW.toNat := by
  simp [clearRuns, Function.comp_def]

theorem sum_map_rowRuns (p : Params) (f : Nat → Nat) :
    ((rowRuns p).map fun r => f r.len).sum = (p.maxY - p.minY) * f (p.maxX - p.minX) := by
  simp [rowRuns, Function.comp_def]

/-- The rows of CLEAR are the pixels of the surface (R173). -/
theorem clearRuns_has_iff (p : Params) (x y : Nat) :
    (∃ r ∈ clearRuns p, Run.Has r 0 x y) ↔ x < p.surfW.toNat ∧ y < p.surfH.toNat := by
  simp only [clearRuns, Run.Has, List.mem_map, List.mem_range, exists_exists_and_eq_and]
  constructor
  · rintro ⟨k, hk, rfl, -, hx⟩
    exact ⟨by omega, hk⟩
  · rintro ⟨hx, hy⟩
    exact ⟨y, hy, rfl, by omega, by omega⟩

/-- The rows of a rectangle are its pixels (R167). -/
theorem rowRuns_has_iff (p : Params) (x y : Nat) : (∃ r ∈ rowRuns p, Run.Has r 0 x y) ↔
    p.minX ≤ x ∧ x < p.maxX ∧ p.minY ≤ y ∧ y < p.maxY := by
  simp only [rowRuns, Run.Has, List.mem_map, List.mem_range, exists_exists_and_eq_and]
  constructor
  · rintro ⟨k, hk, rfl, hle, hlt⟩
    omega
  · rintro ⟨hx, hx', hy, hy'⟩
    exact ⟨y - p.minY, by omega, by omega, by omega, by omega⟩

/-- The walk over runs in the surface starts at their first pixel. -/
theorem cursor_walkingState {u : State} (hruns : u.runs ≠ [])
    (hin : ∀ r ∈ u.runs, RunInSurface u.p.params r) :
    ∃ r, (walkingState u).runs[(walkingState u).ri]? = some r ∧ (walkingState u).off < r.len := by
  obtain ⟨r, rest, hr⟩ := List.exists_cons_of_ne_nil hruns
  obtain ⟨hpos, -⟩ := hin r (by simp [hr])
  exact ⟨r, by simp [walkingState, hr], hpos⟩

/-- The walk that a CLEAR begins. -/
theorem uniformWalk_clear (s : State) (hturns : s.turns = []) (hcmd : decode s.p.cmd = .ok .clear)
    (hmem : Memory.wf s.mem) (hs : SurfaceUsable s.platform s.p.params) :
    UniformWalk .clear 0 (walkingState { s with runs := clearRuns s.p.params }) := by
  have hin := clearRuns_inSurface s.p.params hs.width
  have hfull : ∀ r ∈ clearRuns s.p.params, r.cov = 255 := by
    intro r hr
    obtain ⟨k, -, rfl⟩ := List.mem_map.1 hr
    rfl
  exact ⟨rfl, hturns, hcmd, rfl, hs, hmem, hin, hfull,
    cursor_walkingState (clearRuns_ne_nil _ hs.height) hin⟩

/-- Settles O58: CLEAR paints the rows of the surface with 0. -/
theorem clearZeroesExactlyTheSurface : Obligations.ClearZeroesExactlyTheSurface := by
  intro s hph hturns hword hmem hs hpix
  have hcmd : decode s.p.cmd = .ok .clear := by
    rw [hword]
    decide
  obtain ⟨t, hrun, hended, hcount, hpaint⟩ := UniformWalk.command_completes hph hturns hcmd
    (exec_clear_validate s hph hs) (uniformWalk_clear s hturns hcmd hmem hs)
  dsimp only at hrun hcount hpaint ⊢
  rw [sum_map_clearRuns s.p.params (groupsOf s.p.simdEn)] at hrun
  have hpixels : ((clearRuns s.p.params).map Run.len).sum = s.p.params.surfW.toNat * s.p.params.surfH.toNat :=
    (sum_map_clearRuns s.p.params id).trans (Nat.mul_comm _ _)
  rw [hpixels] at hcount
  simp only [clearRuns_has_iff] at hpaint
  exact ⟨t, hrun, hended.idle, hended.busy, hended.done, hended.err, hcount hpix,
    fun x hx y hy => hpaint.stored x y ⟨hx, hy⟩,
    fun a ha => hpaint.kept a fun x y ⟨hx, hy⟩ => ha x hx y hy⟩

/-- An opaque colour is stored as it is (R182; 40_color_algebra.md R128). -/
theorem colorPm_of_opaque (cs : ColourSpace) (cin : Word) (h : byteOf cin 3 = 255) :
    colorPm cs cin = join cs (byteOf cin 2) (byteOf cin 1) (byteOf cin 0) 255 := by
  simp only [colorPm_eq_join, h, alphaMul8_255_right]

/-- Without a mask a FILL_RECT has no source (20_memory.md R80). -/
theorem buffersApart_fillRect_unmasked (p : Params) (h : p.maskMethod = 0) : BuffersApart .fillRect p := by
  rintro a - (⟨-, hmask, -⟩ | ⟨himage, -⟩ | ⟨hspans, -⟩)
  · rw [h] at hmask
    exact absurd hmask (by decide)
  · exact Bool.false_ne_true himage
  · exact Bool.false_ne_true hspans

/-- `MASK_METHOD` 0 asks nothing of the mask (60_exceptions.md R250). -/
theorem maskUsable_of_none (pl : Platform) (p : Params) (h : p.maskMethod = 0) : MaskUsable pl p := by
  have hnone : ¬ (p.maskMethod = 2 ∨ p.maskMethod = 3) := by
    rw [h]
    decide
  exact ⟨fun hm => absurd hm hnone, fun hm => absurd hm hnone, fun hm => absurd hm hnone⟩

/-- What an opaque FILL_RECT fixes (R170, R172). -/
def opaqueFilled (s : State) : State :=
  let col := colorPm s.blCs s.p.params.colorIn
  { s with runs := rowRuns s.p.params, c := col, colorPm := col, fpath := .opaqueFill }

theorem exec_fillRect_opaque (s : State) (hph : s.ph = .validate) (hready : DrawReady s)
    (hopaque : byteOf s.p.params.colorIn 3 = 255) (hmask : s.p.params.maskMethod = 0)
    (hregion : ¬ RegionEmpty s.p.params) (hx : s.p.params.maxX ≤ s.p.params.surfW.toNat)
    (hy : s.p.params.maxY ≤ s.p.params.surfH.toNat) :
    exec .fillRect s = .next (walkingState (opaqueFilled s)) := by
  obtain ⟨-, hbegin⟩ := fillRectValidates s hph hready
  rw [hbegin hregion hx hy (buffersApart_fillRect_unmasked _ hmask), if_pos ⟨hopaque, hmask⟩]
  rfl

/-- The walk that an opaque FILL_RECT begins. -/
theorem uniformWalk_fillRect (s : State) (hturns : s.turns = []) (hcmd : decode s.p.cmd = .ok .fillRect)
    (hmem : Memory.wf s.mem) (hs : SurfaceUsable s.platform s.p.params)
    (hregion : ¬ RegionEmpty s.p.params) (hx : s.p.params.maxX ≤ s.p.params.surfW.toNat)
    (hy : s.p.params.maxY ≤ s.p.params.surfH.toNat) :
    UniformWalk .fillRect (colorPm s.blCs s.p.params.colorIn) (walkingState (opaqueFilled s)) := by
  have hin := regionRuns_inSurface _ (checkRectBounds_of _ (.inr ⟨hx, hy⟩))
  have hfull : ∀ r ∈ regionRuns s.p.params, r.cov = 255 := by
    intro r hr
    obtain ⟨-, -, -, -, -, hcov⟩ := mem_regionRuns _ r hr
    exact hcov
  rw [regionRuns_eq _ hregion] at hin hfull
  exact ⟨rfl, hturns, hcmd, ⟨rfl, rfl⟩, hs, hmem, hin, hfull,
    cursor_walkingState (rowRuns_ne_nil _ hregion) hin⟩

/-- Settles O59: an opaque FILL_RECT without a mask paints the rows of its region with its colour. -/
theorem opaqueFillRectStoresTheColour : Obligations.OpaqueFillRectStoresTheColour := by
  intro s hph hturns hword hmem hblender hs hopaque hmask hregion hx hy
  have hcmd : decode s.p.cmd = .ok .fillRect := by
    rw [hword]
    decide
  obtain ⟨t, hrun, hended, -, hpaint⟩ := UniformWalk.command_completes hph hturns hcmd
    (exec_fillRect_opaque s hph ⟨hblender, hs, maskUsable_of_none _ _ hmask⟩ hopaque hmask hregion hx hy)
    (uniformWalk_fillRect s hturns hcmd hmem hs hregion hx hy)
  dsimp only [opaqueFilled] at hrun hpaint ⊢
  rw [sum_map_rowRuns s.p.params (groupsOf s.p.simdEn)] at hrun
  rw [colorPm_of_opaque _ _ hopaque] at hpaint
  simp only [rowRuns_has_iff] at hpaint
  exact ⟨t, hrun, hended.idle, hended.busy, hended.done, hended.err,
    fun x y hx hx' hy hy' => hpaint.stored x y ⟨hx, hx', hy, hy'⟩,
    fun a ha => hpaint.kept a fun x y ⟨hx, hx', hy, hy'⟩ => ha x y hx hx' hy hy'⟩

end Sys2Proof.Machine
end

section
/-! PROOFS. The statements of 43_image.md about the transform and the validation step: the identity test (R203),
the singular matrix (R205, R206), what IMAGE_RECT and IMAGE_RLE fix when their checks pass (R204 to R211,
R217), and the identity matrix against no matrix (R220). -/

namespace Sys2Proof.Machine

/-! ## Patterns that equal a value (00_scope.md R14) -/

/-- The significand and exponent of a canonical finite value are fixed by its magnitude. -/
theorem canonical_unique_of_le {m k n l : Nat} (hm : m < 2 ^ 24) (hn : l = 0 ∨ 2 ^ 23 ≤ n) (hle : k ≤ l)
    (h : m * 2 ^ k = n * 2 ^ l) : m = n ∧ k = l := by
  obtain ⟨d, rfl⟩ := Nat.exists_eq_add_of_le hle
  have hsig : m = n * 2 ^ d := by
    refine Nat.eq_of_mul_eq_mul_right (Nat.two_pow_pos k) (h.trans ?_)
    rw [pow_add]
    ring
  cases d with
  | zero => exact ⟨by simpa using hsig, rfl⟩
  | succ d =>
    have hnormal : 2 ^ 23 ≤ n := hn.resolve_left (by omega)
    have hbig : 2 ^ 23 * 2 ≤ n * 2 ^ (d + 1) :=
      Nat.mul_le_mul hnormal (Nat.le_self_pow (Nat.succ_ne_zero d) 2)
    omega

theorem canonical_unique {m k n l : Nat} (hm : m < 2 ^ 24) (hn : n < 2 ^ 24) (hk : k = 0 ∨ 2 ^ 23 ≤ m)
    (hl : l = 0 ∨ 2 ^ 23 ≤ n) (h : m * 2 ^ k = n * 2 ^ l) : m = n ∧ k = l := by
  obtain hle | hle := Nat.le_total k l
  · exact canonical_unique_of_le hm hl hle h
  · obtain ⟨hsig, hexp⟩ := canonical_unique_of_le hn hk hle h.symm
    exact ⟨hsig.symm, hexp.symm⟩

theorem signedUnits_false (m k : Nat) : signedUnits (.fin false m k) = (m * 2 ^ k : Nat) := rfl

theorem signedUnits_true (m k : Nat) : signedUnits (.fin true m k) = -(m * 2 ^ k : Nat) := rfl

theorem natAbs_signedUnits (s : Bool) (m k : Nat) : (signedUnits (.fin s m k)).natAbs = m * 2 ^ k := by
  cases s with
  | false => rw [signedUnits_false, Int.natAbs_natCast]
  | true => rw [signedUnits_true, Int.natAbs_neg, Int.natAbs_natCast]

/-- `feq` against a finite value: only a finite value of the same number is equal to it. -/
theorem feq_fin_iff (a : Binary32) (t : Bool) (n l : Nat) (hn : n < 2 ^ 24) (hl : l ≤ 253) :
    feq a (.fin t n l) = true ↔
      ∃ s m k, a = .fin s m k ∧ signedUnits (.fin s m k) = signedUnits (.fin t n l) := by
  have hsmall : n * 2 ^ l < 2 ^ 24 * 2 ^ 253 :=
    Nat.mul_lt_mul_of_lt_of_le hn (Nat.pow_le_pow_right two_pos hl) (by positivity)
  have hunits : (orderKey (.fin t n l)).natAbs = n * 2 ^ l := natAbs_signedUnits t n l
  cases a with
  | nan b => simp [feq, isNaN]
  | inf s =>
    have hkey : (orderKey (.inf s)).natAbs = 2 ^ 200 * 2 ^ 100 := by cases s <;> rfl
    have hne : orderKey (.inf s) ≠ orderKey (.fin t n l) := by
      intro h
      rw [h, hunits] at hkey
      omega
    simp [feq, hne]
  | fin s m k => simp [feq, isNaN, orderKey]

theorem feq_f32_zero (w : Word) : feq (f32 w) .zero = true ↔ w = 0x00000000 ∨ w = 0x80000000 := by
  constructor
  · intro h
    obtain ⟨s, m, k, hw, hunits⟩ := (feq_fin_iff _ _ _ _ (by norm_num) (by norm_num)).1 h
    obtain ⟨hm, -, hk⟩ := f32_fin w s m k hw
    have hmag : m * 2 ^ k = 0 * 2 ^ 0 := by
      rw [← natAbs_signedUnits s, hunits]
      rfl
    obtain ⟨rfl, rfl⟩ := canonical_unique hm (by norm_num) hk (.inl rfl) hmag
    rw [← patternOfValueIsThePattern w, hw]
    cases s with
    | false => exact .inl rfl
    | true => exact .inr rfl
  · rintro (rfl | rfl) <;> decide

theorem feq_f32_one (w : Word) : feq (f32 w) .one = true ↔ w = 0x3F800000 := by
  constructor
  · intro h
    obtain ⟨s, m, k, hw, hunits⟩ := (feq_fin_iff _ _ _ _ (by norm_num) (by norm_num)).1 h
    obtain ⟨hm, -, hk⟩ := f32_fin w s m k hw
    obtain ⟨rfl, hmag⟩ : s = false ∧ m * 2 ^ k = 2 ^ 23 * 2 ^ 126 := by
      rw [signedUnits_false] at hunits
      cases s with
      | false => exact ⟨rfl, Int.ofNat.inj hunits⟩
      | true =>
        rw [signedUnits_true] at hunits
        omega
    obtain ⟨rfl, rfl⟩ := canonical_unique hm (by norm_num) hk (.inr le_rfl) hmag
    rw [← patternOfValueIsThePattern w, hw]
    rfl
  · rintro rfl
    decide

/-- Settles O30: entry by entry, each comparison by the patterns that equal its value. -/
theorem identityTestByPatterns : Obligations.IdentityTestByPatterns := by
  intro p
  simp only [isIdentity, Params.matrix, Bool.and_eq_true, feq_f32_one, feq_f32_zero, List.forall_mem_cons,
    List.not_mem_nil, false_imp_iff, implies_true, and_true]
  constructor
  · rintro ⟨⟨⟨⟨⟨⟨⟨⟨h11, h12⟩, h13⟩, h21⟩, h22⟩, h23⟩, h31⟩, h32⟩, h33⟩
    exact ⟨h11, h22, h33, h12, h13, h21, h23, h31, h32⟩
  · rintro ⟨h11, h22, h33, h12, h13, h21, h23, h31, h32⟩
    exact ⟨⟨⟨⟨⟨⟨⟨⟨h11, h12⟩, h13⟩, h21⟩, h22⟩, h23⟩, h31⟩, h32⟩, h33⟩

/-! ## Singular matrices (R205, R206) -/

theorem transform_singular (p : Params) (hid : isIdentity p.matrix = false)
    (hdet : flt (fabs (determinant p.matrix)) (f32 0x34000000) = true) :
    transform true p = .error (.error .singular (bits (determinant p.matrix))) := by
  have hpath : ¬ (!true || isIdentity p.matrix) = true := by rw [hid]; decide
  have hsingular : isSingular (determinant p.matrix) = true := hdet
  rw [transform, if_neg hpath]
  dsimp only
  rw [if_pos hsingular]

section Transform

variable {s : State} (hready : DrawReady s) (himage : ImageUsable s.platform s.p.params) {mat : Bool} {e : Halt}
  (h : transform mat s.p.params = .error e)
include hready himage h

theorem validateImageRect_stops_at_transform : validateImageRect mat s = .error e := by
  rw [validateImageRect, checkDraw_of_ready s hready, Except.ok_bind, (checkImage_ok_iff _ _).2 himage,
    Except.ok_bind, h, Except.error_bind]

theorem validateImageRle_stops_at_transform (hspans : SpansUsable s.platform s.p.params) :
    validateImageRle mat s = .error e := by
  rw [validateImageRle, checkDraw_of_ready s hready, Except.ok_bind, (checkImage_ok_iff _ _).2 himage,
    Except.ok_bind, (checkRle_ok_iff _ _).2 hspans, Except.ok_bind, h, Except.error_bind]

end Transform

/-- Settles O38: the transform comes before the bounds checks and before the list is read, so its failure
decides the step. -/
theorem singularMatrixFails : Obligations.SingularMatrixFails := by
  intro s hph hready himage
  dsimp only
  intro hid hdet
  have hfails := transform_singular s.p.params hid hdet
  exact ⟨exec_of_validation_failure (.imageRect true) rfl s hph .singular _
      (validateImageRect_stops_at_transform hready himage hfails),
    fun hspans => exec_of_validation_failure (.imageRle true) rfl s hph .singular _
      (validateImageRle_stops_at_transform hready himage hfails hspans)⟩

/-! ## Validations that pass (R204 to R211, R217) -/

theorem f32_one : f32 0x3F800000 = .one := by decide

/-- What an IMAGE fixes on the direct path, with MASKON in the words of R208. -/
theorem fixImage_none_eq (s : State) (rs : List Run) : fixImage s none rs = { s with
    runs := rs, maskOn := decide (s.p.params.maskMethod = 2 ∨ s.p.params.maskMethod = 3)
    ipath := .direct } := by
  rw [fixImage, maskKind_isSome_eq]

/-- What an IMAGE fixes on the resample path. -/
theorem fixImage_some_eq (s : State) (rows : MatrixRows Binary32) (rs : List Run) :
    fixImage s (some rows) rs = { s with
      runs := rs, maskOn := decide (s.p.params.maskMethod = 2 ∨ s.p.params.maskMethod = 3)
      ipath := .resample, inv := rows, invE := rowBits rows } := by
  rw [fixImage, maskKind_isSome_eq]

section Passes

variable {mat : Bool} {s : State} {t : Option (MatrixRows Binary32)} (hph : s.ph = .validate)
  (hready : DrawReady s) (himage : ImageUsable s.platform s.p.params) (ht : transform mat s.p.params = .ok t)
include hph hready himage ht

theorem exec_imageRect_empty (hempty : RegionEmpty s.p.params) :
    exec (.imageRect mat) s = .next (emptyWalkState (fixImage s t [])) := by
  have hok := validateImageRect_ok mat s t hready himage ht (checkRectBounds_of _ (.inl hempty))
    fun _ => checkRectSource_of _ (.inl hempty)
  rw [regionRuns_of_empty _ hempty] at hok
  obtain ⟨hruns, -⟩ := runs_fixImage s t []
  exact exec_completes_empty (.imageRect mat) rfl s _ hph hok hruns

theorem exec_imageRect_begins_walk (hregion : ¬ RegionEmpty s.p.params)
    (hx : s.p.params.maxX ≤ s.p.params.surfW.toNat) (hy : s.p.params.maxY ≤ s.p.params.surfH.toNat)
    (hsource : t.isNone = true → checkRectSource s.p.params = .ok ())
    (hapart : BuffersApart (.imageRect mat) s.p.params) :
    exec (.imageRect mat) s = .next (walkingState (fixImage s t (rowRuns s.p.params))) := by
  have hok := validateImageRect_ok mat s t hready himage ht (checkRectBounds_of _ (.inr ⟨hx, hy⟩)) hsource
  rw [regionRuns_eq _ hregion] at hok
  obtain ⟨hruns, hp⟩ := runs_fixImage s t (rowRuns s.p.params)
  exact exec_begins_walk (.imageRect mat) rfl s _ hph hok hp
    (hruns.symm ▸ rowRuns_ne_nil _ hregion) hapart

variable (hspans : SpansUsable s.platform s.p.params)
  (hin : ∀ j < s.p.params.rleCount.toNat, SpanInSurface s.p.params s.mem j)
  (hsource : t.isNone = true → ∀ j < s.p.params.rleCount.toNat, SpanInImage s.p.params s.mem j)
include hspans hin hsource

theorem exec_imageRle_empty (hempty : listedRuns s.p.params s.mem = []) :
    exec (.imageRle mat) s = .next (emptyWalkState (fixImage s t [])) := by
  have hok := validateImageRle_ok mat s t hready himage hspans ht hin hsource
  rw [hempty] at hok
  obtain ⟨hruns, -⟩ := runs_fixImage s t []
  exact exec_completes_empty (.imageRle mat) rfl s _ hph hok hruns

theorem exec_imageRle_begins_walk (hlisted : listedRuns s.p.params s.mem ≠ [])
    (hapart : BuffersApart (.imageRle mat) s.p.params) :
    exec (.imageRle mat) s = .next (walkingState (fixImage s t (listedRuns s.p.params s.mem))) := by
  have hok := validateImageRle_ok mat s t hready himage hspans ht hin hsource
  obtain ⟨hruns, hp⟩ := runs_fixImage s t (listedRuns s.p.params s.mem)
  exact exec_begins_walk (.imageRle mat) rfl s _ hph hok hp (hruns.symm ▸ hlisted) hapart

end Passes

/-- Settles O45: by the path, and on each by whether the region has a row. -/
theorem imageRectValidates : Obligations.ImageRectValidates := by
  intro mat s hph hready himage
  dsimp only
  simp only [f32_one]
  refine ⟨fun hdirect => ?direct, fun hresample => ?resample⟩
  case direct =>
    have ht := transform_direct _ _ hdirect
    refine ⟨fun hempty => ?_, fun hregion hx hy hsx hsy hapart => ?_⟩
    · rw [exec_imageRect_empty hph hready himage ht hempty, fixImage_none_eq]
    · rw [exec_imageRect_begins_walk hph hready himage ht hregion hx hy
        (fun _ => checkRectSource_of _ (.inr ⟨hsx, hsy⟩)) hapart, fixImage_none_eq]
  case resample =>
    have ht := transform_resample _ _ hresample
    refine ⟨fun hempty => ?_, fun hregion hx hy hapart => ?_⟩
    · rw [exec_imageRect_empty hph hready himage ht hempty, fixImage_some_eq]
      rfl
    · rw [exec_imageRect_begins_walk hph hready himage ht hregion hx hy nofun hapart, fixImage_some_eq]
      rfl

/-- Settles O46: by the path, and on each by whether a span has a pixel. -/
theorem imageRleValidates : Obligations.ImageRleValidates := by
  intro mat s hph hready himage hspans hin
  dsimp only
  simp only [f32_one]
  refine ⟨fun hdirect hsource => ?direct, fun hresample => ?resample⟩
  case direct =>
    have ht := transform_direct _ _ hdirect
    refine ⟨fun hempty => ?_, fun hlisted hapart => ?_⟩
    · rw [exec_imageRle_empty hph hready himage ht hspans hin (fun _ => hsource) hempty, fixImage_none_eq]
    · rw [exec_imageRle_begins_walk hph hready himage ht hspans hin (fun _ => hsource) hlisted hapart,
        fixImage_none_eq]
  case resample =>
    have ht := transform_resample _ _ hresample
    refine ⟨fun hempty => ?_, fun hlisted hapart => ?_⟩
    · rw [exec_imageRle_empty hph hready himage ht hspans hin nofun hempty, fixImage_some_eq]
      rfl
    · rw [exec_imageRle_begins_walk hph hready himage ht hspans hin nofun hlisted hapart, fixImage_some_eq]
      rfl

/-! ## An identity matrix (R220) -/

/-- With the identity the MAT bit does not reach the path selection (R204). -/
theorem transform_of_isIdentity (mat : Bool) (p : Params) (h : isIdentity p.matrix = true) :
    transform mat p = transform false p := by
  rw [transform_direct mat p (.inr h), transform_direct false p (.inl rfl)]

/-- A drawing step depends on its validation's answer and on the overlap test of the start alone. -/
theorem drawStep_congr {i j : Instr} {v w : State → Except Halt State} (px : State → PixelFn) (s : State)
    (hstart : startWalk i = startWalk j) (h : v s = w s) : drawStep i v px s = drawStep j w px s := by
  unfold drawStep
  rw [h, hstart]

theorem exec_imageRect_of_isIdentity (mat : Bool) (s : State) (h : isIdentity s.p.params.matrix = true) :
    exec (.imageRect mat) s = exec (.imageRect false) s := by
  have hvalidation : validateImageRect mat s = validateImageRect false s := by
    rw [validateImageRect, validateImageRect, transform_of_isIdentity mat _ h]
  exact drawStep_congr imageRectPixel s rfl hvalidation

theorem exec_imageRle_of_isIdentity (mat : Bool) (s : State) (h : isIdentity s.p.params.matrix = true) :
    exec (.imageRle mat) s = exec (.imageRle false) s := by
  have hvalidation : validateImageRle mat s = validateImageRle false s := by
    rw [validateImageRle, validateImageRle, transform_of_isIdentity mat _ h]
  exact drawStep_congr imageRlePixel s rfl hvalidation

theorem directCoord_of_origin (p : Params) (x y : Nat) (h : p.imgOrigin = p.bboxMin) :
    directCoord p x y = ((x : Int), (y : Int)) := by
  have hx : p.originX = p.minX := congrArg lowHalf h
  have hy : p.originY = p.minY := congrArg highHalf h
  rw [directCoord, hx, hy, sub_add_cancel, sub_add_cancel]

/-! ## Arithmetic on integers (00_scope.md R14) -/

theorem toF32_zero : toF32 0 = .zero := by decide

theorem toF32_one : toF32 1 = .one := by decide

/-- A common factor of numerator and denominator does not change the nearest integer. -/
theorem divNearestEven_mul_mul_right (n d c : Nat) (hc : 0 < c) :
    divNearestEven (n * c) (d * c) = divNearestEven n d := by
  have hleft : 2 * (n % d * c) < d * c ↔ 2 * (n % d) < d := by
    rw [← mul_assoc, Nat.mul_lt_mul_right hc]
  have hright : d * c < 2 * (n % d * c) ↔ d < 2 * (n % d) := by
    rw [← mul_assoc, Nat.mul_lt_mul_right hc]
  simp only [divNearestEven, Nat.mul_div_mul_right _ _ hc, Nat.mul_mod_mul_right, hleft, hright]

/-- Nor does it change the nearest binary32 value. -/
theorem roundNearest_mul_mul_right (sign : Bool) (n d c : Nat) (hc : 0 < c) :
    roundNearest sign (n * c) (d * c) = roundNearest sign n d := by
  unfold roundNearest
  dsimp only
  rw [Nat.mul_div_mul_right _ _ hc, mul_right_comm, divNearestEven_mul_mul_right _ _ _ hc]

/-- `fadd` of integers is the sum's nearest value. -/
theorem fadd_toF32 (a b : Nat) (ha : a < 2 ^ 24) (hb : b < 2 ^ 24) :
    fadd (toF32 a) (toF32 b) = toF32 (a + b) := by
  obtain ⟨m, k, hm, hmval⟩ := toF32_exact a ha
  obtain ⟨n, l, hn, hnval⟩ := toF32_exact b hb
  have hsum : signedUnits (.fin false m k) + signedUnits (.fin false n l) = ((a + b) * unitsPerOne : Nat) := by
    rw [signedUnits_false, signedUnits_false, hmval, hnval, add_mul, Nat.cast_add]
  rw [hm, hn, fadd_fin, hsum]
  dsimp only
  split
  next hzero =>
    have hboth : a + b = 0 := (Nat.mul_eq_zero.1 (Int.ofNat.inj hzero)).resolve_right unitsPerOne_pos.ne'
    rw [hboth, toF32_zero]
    rfl
  next => rw [decide_eq_false (by omega), Int.natAbs_natCast, toF32]

/-- `fmul` of integers is the product's nearest value. -/
theorem fmul_toF32 (a b : Nat) (ha : a < 2 ^ 24) (hb : b < 2 ^ 24) :
    fmul (toF32 a) (toF32 b) = toF32 (a * b) := by
  obtain ⟨m, k, hm, hmval⟩ := toF32_exact a ha
  obtain ⟨n, l, hn, hnval⟩ := toF32_exact b hb
  calc fmul (toF32 a) (toF32 b) = roundNearest false (a * b * unitsPerOne * unitsPerOne) (1 * unitsPerOne) := by
        rw [hm, hn, fmul_fin, hmval, hnval, one_mul, mul_mul_mul_comm, mul_assoc (a * b)]
        rfl
    _ = toF32 (a * b) := roundNearest_mul_mul_right _ _ _ _ unitsPerOne_pos

/-- Under the identity the resampler's coordinates are the destination's (R212). -/
theorem resampleUV_identity (x y : Nat) (hx : x < 2 ^ 24) (hy : y < 2 ^ 24) :
    resampleUV ⟨.one, .zero, .zero, .zero, .one, .zero⟩ x y = (toF32 x, toF32 y) := by
  have hzero : 0 < 2 ^ 24 := by norm_num
  have hone : 1 < 2 ^ 24 := by norm_num
  rw [resampleUV, ← toF32_one, ← toF32_zero]
  simp only [fmul_toF32 _ _ hx hone, fmul_toF32 _ _ hx hzero, fmul_toF32 _ _ hy hone, fmul_toF32 _ _ hy hzero,
    mul_one, mul_zero, fadd_toF32 _ _ hx hzero, fadd_toF32 _ _ hzero hy, fadd_toF32 _ _ hy hzero, add_zero,
    zero_add]

/-- The range test of an integer (R213). -/
theorem inRange_toF32 (n size : Nat) (hn : n < 2 ^ 24) (hs : size < 2 ^ 24) :
    inRange (toF32 n) size = decide (n < size) := by
  rw [inRange, ← toF32_zero, flt_toF32 n 0 hn (by norm_num), flt_toF32 n size hn hs]
  simp

theorem resampleCoord_identity (p : Params) (x y : Nat) (hx : x < p.imgW.toNat) (hy : y < p.imgH.toNat) :
    resampleCoord ⟨.one, .zero, .zero, .zero, .one, .zero⟩ p x y = some ((x : Int), (y : Int)) := by
  have hw : p.imgW.toNat < 2 ^ 24 := lt_trans p.imgW.isLt (by norm_num)
  have hh : p.imgH.toNat < 2 ^ 24 := lt_trans p.imgH.isLt (by norm_num)
  have hx24 := hx.trans hw
  have hy24 := hy.trans hh
  simp only [resampleCoord, resampleUV_identity x y hx24 hy24, fround_toF32 _ hx24, fround_toF32 _ hy24,
    inRange_toF32 _ _ hx24 hw, inRange_toF32 _ _ hy24 hh, toInteger_toF32 _ hx24, toInteger_toF32 _ hy24,
    hx, hy, decide_true, Bool.and_self, if_true]

/-- Settles O60: the identity takes the direct path as no matrix does; the coordinates by exact arithmetic on
integers. -/
theorem identityMatrixEqualsNoMatrix : Obligations.IdentityMatrixEqualsNoMatrix :=
  ⟨fun s h => ⟨exec_imageRect_of_isIdentity true s h, exec_imageRle_of_isIdentity true s h⟩,
    fun p x y hx hy => ⟨directCoord_of_origin p x y, resampleCoord_identity p x y hx hy⟩⟩

end Sys2Proof.Machine
end

section
/-! PROOFS. The statements of 60_exceptions.md about the checks of the validation step: the blender's (R253), the
surface's (R249), the mask's (R250), the image's (R251) and the span list's (R252), each as the code its failure
completes the command with; and who takes the next turn, an idle engine among them (R256, R265). -/

namespace Sys2Proof.Machine

/-! ## Alignment and range (R248)

Every buffer's check ends with the same two checks of its base and its range. -/

theorem checkAlign_error (base : Word) (h : base.toNat % 4 ≠ 0) :
    checkAlign base = .error (.error .align base) := by
  rw [checkAlign, if_pos h]

/-- The range check fails before it looks for a device (log 13). -/
theorem checkRange_inadmissible (pl : Platform) (base : Word) (n : Nat) (kinds : List AccessKind)
    (h : 2 ^ 32 < base.toNat + n ∨ ∃ k ∈ kinds, memAdmit pl base.toNat n k = false) :
    checkRange pl base n kinds = .error (.error .addr base) := by
  by_cases hspace : addressSpace < base.toNat + n
  · rw [checkRange, if_pos hspace]
  · obtain ⟨k, hk, hdenied⟩ := h.resolve_left hspace
    have hsome : (!(kinds.all fun k => memAdmit pl base.toNat n k)) = true := by
      rw [Bool.not_eq_true', List.all_eq_false]
      exact ⟨k, hk, by rw [hdenied]; exact Bool.false_ne_true⟩
    rw [checkRange, if_neg hspace, if_pos hsome]

/-- What every buffer's check does once its own conditions hold (R249 to R252). -/
def checkBuffer (pl : Platform) (base : Word) (n : Nat) (kinds : List AccessKind) : Except Halt Unit := do
  checkAlign base
  checkRange pl base n kinds

theorem checkBuffer_misaligned (pl : Platform) (base : Word) (n : Nat) (kinds : List AccessKind)
    (h : base.toNat % 4 ≠ 0) : checkBuffer pl base n kinds = .error (.error .align base) := by
  rw [checkBuffer, checkAlign_error base h, Except.error_bind]

theorem checkBuffer_inadmissible (pl : Platform) (base : Word) (n : Nat) (kinds : List AccessKind)
    (halign : base.toNat % 4 = 0)
    (h : 2 ^ 32 < base.toNat + n ∨ ∃ k ∈ kinds, memAdmit pl base.toNat n k = false) :
    checkBuffer pl base n kinds = .error (.error .addr base) := by
  rw [checkBuffer, (checkAlign_ok_iff base).2 halign, Except.ok_bind, checkRange_inadmissible pl base n kinds h]

/-- Whatever stops the check of a buffer, its failures never name ERR_CS. -/
theorem checkBuffer_ne_cs (pl : Platform) (base : Word) (n : Nat) (kinds : List AccessKind) (info : Word) :
    checkBuffer pl base n kinds ≠ .error (.error .cs info) := by
  intro h
  obtain halign | ⟨-, -, hrange⟩ := (Except.bind_error_iff _ _ _).1 h
  · by_cases haligned : base.toNat % 4 = 0
    · rw [(checkAlign_ok_iff base).2 haligned] at halign
      exact nomatch halign
    · rw [checkAlign_error base haligned] at halign
      exact nomatch halign
  · obtain he | he := checkRange_error pl base n kinds _ hrange
    · exact nomatch he
    · exact nomatch he

theorem ne_zero_of_misaligned {base : Word} (h : base.toNat % 4 ≠ 0) : base ≠ 0 := by
  rintro rfl
  exact h rfl

/-- A command whose validation stops where the check of a buffer does fails by R248. -/
theorem exec_of_bufferFailure {i : Instr} (hi : draws i = true) {s : State} (hph : s.ph = .validate)
    {base : Word} {n : Nat} {kinds : List AccessKind}
    (hstop : ∀ e, checkBuffer s.platform base n kinds = .error e → validationOf i s = .error e) :
    (base.toNat % 4 ≠ 0 → exec i s = .next (failureState 4 base s)) ∧
    (base.toNat % 4 = 0 →
      (2 ^ 32 < base.toNat + n ∨ ∃ k ∈ kinds, memAdmit s.platform base.toNat n k = false) →
      exec i s = .next (failureState 5 base s)) :=
  ⟨fun h => exec_of_validation_failure i hi s hph .align base (hstop _ (checkBuffer_misaligned _ _ _ _ h)),
    fun halign h => exec_of_validation_failure i hi s hph .addr base
      (hstop _ (checkBuffer_inadmissible _ _ _ _ halign h))⟩

/-! ## The buffers' checks, case by case (R249 to R252) -/

theorem checkSurface_degenerate (pl : Platform) (p : Params)
    (h : p.surfBase = 0 ∨ p.surfW = 0 ∨ p.surfH = 0 ∨ p.surfStride.toNat < p.surfW.toNat) :
    checkSurface pl p = .error (.error .surface 0) := by
  rw [checkSurface, if_pos h]
  rfl

theorem checkSurface_eq_checkBuffer (pl : Platform) (p : Params)
    (h : ¬ (p.surfBase = 0 ∨ p.surfW = 0 ∨ p.surfH = 0 ∨ p.surfStride.toNat < p.surfW.toNat)) :
    checkSurface pl p = checkBuffer pl p.surfBase p.surfRange.size [.read, .write] := by
  rw [checkSurface, if_neg h]
  rfl

theorem checkMask_null (pl : Platform) (p : Params) (hmethod : p.maskMethod = 2 ∨ p.maskMethod = 3)
    (h : p.maskBase = 0) : checkMask pl p = .error (.error .mask 0) := by
  rw [checkMask, if_pos ((maskKind_isSome_iff _).2 hmethod), if_pos h]
  rfl

theorem checkMask_eq_checkBuffer (pl : Platform) (p : Params) (hmethod : p.maskMethod = 2 ∨ p.maskMethod = 3)
    (h : p.maskBase ≠ 0) : checkMask pl p = checkBuffer pl p.maskBase p.maskRange.size [.read] := by
  rw [checkMask, if_pos ((maskKind_isSome_iff _).2 hmethod), if_neg h]
  rfl

theorem checkImage_degenerate (pl : Platform) (p : Params)
    (h : p.imgBase = 0 ∨ p.imgW = 0 ∨ p.imgH = 0 ∨ p.imgStride.toNat < p.imgW.toNat) :
    checkImage pl p = .error (.error .image 0) := by
  rw [checkImage, if_pos h]
  rfl

theorem checkImage_eq_checkBuffer (pl : Platform) (p : Params)
    (h : ¬ (p.imgBase = 0 ∨ p.imgW = 0 ∨ p.imgH = 0 ∨ p.imgStride.toNat < p.imgW.toNat)) :
    checkImage pl p = checkBuffer pl p.imgBase p.imgRange.size [.read] := by
  rw [checkImage, if_neg h]
  rfl

theorem checkRle_null (pl : Platform) (p : Params) (hcount : p.rleCount ≠ 0) (h : p.rleBase = 0) :
    checkRle pl p = .error (.error .rle 0) := by
  rw [checkRle, if_pos hcount, if_pos h]
  rfl

theorem checkRle_eq_checkBuffer (pl : Platform) (p : Params) (hcount : p.rleCount ≠ 0) (h : p.rleBase ≠ 0) :
    checkRle pl p = checkBuffer pl p.rleBase p.rleRange.size [.read] := by
  rw [checkRle, if_pos hcount, if_neg h]
  rfl

/-! ## Buffers that cannot be used -/

/-- Settles O34: the surface check decides the step, by its degenerate case and by its base and range. -/
theorem unusableSurfaceFails : Obligations.UnusableSurfaceFails := by
  intro i s hi hblender hph
  dsimp only
  refine ⟨fun hdegenerate => ?_, fun hbase hwidth hheight hstride => ?_⟩
  · exact exec_of_validation_failure i hi s hph .surface 0
      (validation_stops_at_surface i hi s hblender _ (checkSurface_degenerate _ _ hdegenerate))
  · have hcheck := checkSurface_eq_checkBuffer s.platform s.p.params (by
      simp only [not_or]
      exact ⟨hbase, hwidth, hheight, Nat.not_lt.2 hstride⟩)
    have hsize : s.p.params.surfRange.size = _ := extent_of_pos _ _ _ (pos_of_ne_zero _ hheight)
    rw [hsize] at hcheck
    obtain ⟨hmisaligned, hinadmissible⟩ := exec_of_bufferFailure hi hph
      fun e he => validation_stops_at_surface i hi s hblender e (hcheck.trans he)
    exact ⟨hmisaligned, fun halign hrange => hinadmissible halign (by simpa using hrange)⟩

/-- Settles O35: the mask check decides the step once the blender's and the surface's passed. -/
theorem unusableMaskFails : Obligations.UnusableMaskFails := by
  intro i s hi hph hblender hsurface hmethod
  dsimp only
  have hdraws := draws_of_takesMask hi
  have hstop := validation_stops_at_mask i hi s hblender hsurface
  have hsize : s.p.params.maskRange.size = _ := extent_of_pos _ _ _ (pos_of_ne_zero _ hsurface.height)
  have hbuffer (hbase : s.p.params.maskBase ≠ 0) := by
    have hcheck := checkMask_eq_checkBuffer s.platform s.p.params hmethod hbase
    rw [hsize] at hcheck
    exact exec_of_bufferFailure hdraws hph fun e he => hstop e (hcheck.trans he)
  refine ⟨fun hnull => ?_, fun hmisaligned => ?_, fun hbase halign hrange => ?_⟩
  · exact exec_of_validation_failure i hdraws s hph .mask 0 (hstop _ (checkMask_null _ _ hmethod hnull))
  · exact (hbuffer (ne_zero_of_misaligned hmisaligned)).1 hmisaligned
  · exact (hbuffer hbase).2 halign (by simpa using hrange)

/-- Settles O36: the image check decides the step once the opening checks passed. -/
theorem unusableImageFails : Obligations.UnusableImageFails := by
  intro i s hi hph hready
  dsimp only
  have hdraws := draws_of_takesMask (takesMask_of_takesImage hi)
  have hstop := validation_stops_at_image i hi s hready
  refine ⟨fun hdegenerate => ?_, fun hbase hwidth hheight hstride => ?_⟩
  · exact exec_of_validation_failure i hdraws s hph .image 0 (hstop _ (checkImage_degenerate _ _ hdegenerate))
  · have hcheck := checkImage_eq_checkBuffer s.platform s.p.params (by
      simp only [not_or]
      exact ⟨hbase, hwidth, hheight, Nat.not_lt.2 hstride⟩)
    have hsize : s.p.params.imgRange.size = _ := extent_of_pos _ _ _ (pos_of_ne_zero _ hheight)
    rw [hsize] at hcheck
    obtain ⟨hmisaligned, hinadmissible⟩ := exec_of_bufferFailure hdraws hph
      fun e he => hstop e (hcheck.trans he)
    exact ⟨hmisaligned, fun halign hrange => hinadmissible halign (by simpa using hrange)⟩

/-- Settles O37: the check of a list that is not empty decides the step once the buffers' checks passed. -/
theorem unusableSpanListFails : Obligations.UnusableSpanListFails := by
  intro i s hi hph hready himage hcount
  dsimp only
  have hdraws := draws_of_takesMask (takesMask_of_takesSpans hi)
  have hstop := validation_stops_at_spans i hi s hready himage
  have hbuffer (hbase : s.p.params.rleBase ≠ 0) := exec_of_bufferFailure hdraws hph
    fun e he => hstop e ((checkRle_eq_checkBuffer s.platform s.p.params hcount hbase).trans he)
  refine ⟨fun hnull => ?_, fun hmisaligned => ?_, fun hbase halign hrange => ?_⟩
  · exact exec_of_validation_failure i hdraws s hph .rle 0 (hstop _ (checkRle_null _ _ hcount hnull))
  · exact (hbuffer (ne_zero_of_misaligned hmisaligned)).1 hmisaligned
  · exact (hbuffer hbase).2 halign (by simpa [Params.rleRange] using hrange)

/-! ## No blender (R253) -/

theorem checkDraw_withoutBlender (s : State) (h : s.blValid = false) :
    checkDraw s = .error (.error .cs noInfo) := by
  rw [checkDraw, checkBlender, h, if_neg Bool.false_ne_true, Except.error_bind]

theorem takesMask_of_mem {i : Instr} (h : i ∈ [Instr.fillRect, .fillRle, .imageRect false, .imageRect true,
    .imageRle false, .imageRle true]) : takesMask i = true := by
  have hall : ∀ j ∈ [Instr.fillRect, .fillRle, .imageRect false, .imageRect true, .imageRle false,
      .imageRle true], takesMask j = true := by decide
  exact hall i h

/-- The surface check fails with codes of its own, so CLEAR never fails with ERR_CS. -/
theorem checkSurface_ne_cs (pl : Platform) (p : Params) (info : Word) :
    checkSurface pl p ≠ .error (.error .cs info) := by
  by_cases h : p.surfBase = 0 ∨ p.surfW = 0 ∨ p.surfH = 0 ∨ p.surfStride.toNat < p.surfW.toNat
  · rw [checkSurface_degenerate pl p h]
    exact nofun
  · rw [checkSurface_eq_checkBuffer pl p h]
    exact checkBuffer_ne_cs _ _ _ _ _

theorem completeSuccess_ne_failureState (s t : State) (code : BitVec 4) (info : Word) :
    completeSuccess t ≠ failureState code info s :=
  fun h => Bool.false_ne_true (congrArg State.err h)

/-- SETUP's own ERR_CS names the code it did not know, which is one byte (41_setup.md R152). -/
theorem validateSetup_ne_withoutBlender (s : State) : validateSetup s ≠ failureState 2 noInfo s := by
  cases hcode : colourSpaceOf s.p.params.surfCs with
  | some cs =>
    rw [validateSetup_of_some hcode, ← completeSuccess_eq_successState]
    exact completeSuccess_ne_failureState _ _ _ _
  | none =>
    rw [validateSetup_of_none hcode]
    intro h
    have hinfo : BitVec.ofNat 32 s.p.params.surfCs.toNat = noInfo := congrArg State.errinfo h
    have hbyte := s.p.params.surfCs.isLt
    have hones : noInfo.toNat = 2 ^ 32 - 1 := by decide
    rw [← hinfo, BitVec.toNat_ofNat] at hones
    omega

theorem exec_clear_ne_withoutBlender (s : State) (hph : s.ph = .validate) :
    exec .clear s ≠ .next (failureState 2 noInfo s) := by
  cases hsurface : checkSurface s.platform s.p.params with
  | ok =>
    rw [exec_clear_validate s hph ((checkSurface_ok_iff _ _).1 hsurface)]
    intro h
    exact nomatch congrArg State.ph (Host.Outcome.next.inj h)
  | error e =>
    rw [exec_of_validation_error .clear rfl s hph e (validation_stops_at_surface .clear rfl s nofun e hsurface)]
    cases e with
    | fault | refusal => exact nofun
    | error code info =>
      intro h
      have hcode : code.code = 2 := congrArg State.errcode (Host.Outcome.next.inj h)
      have hcs : code = .cs := by revert hcode; cases code <;> decide
      rw [hcs] at hsurface
      exact checkSurface_ne_cs _ _ _ hsurface

/-- Settles O33: a FILL or IMAGE stops at the blender check; NOP succeeds, SETUP's failure carries a byte, and
CLEAR's checks have other codes. -/
theorem drawWithoutBlenderFails : Obligations.DrawWithoutBlenderFails := by
  refine ⟨fun i s hi hph hblender => ?draws, fun i s hi hph => ?others⟩
  case draws =>
    have hmask := takesMask_of_mem hi
    exact exec_of_validation_failure i (draws_of_takesMask hmask) s hph .cs noInfo
      (validation_stops_at_draw i hmask s _ (checkDraw_withoutBlender s hblender))
  case others =>
    cases i with
    | nop =>
      rw [exec_nop_validate s hph]
      exact fun h => completeSuccess_ne_failureState _ _ _ _ (Host.Outcome.next.inj h)
    | setup =>
      rw [exec_setup_validate s hph]
      exact fun h => validateSetup_ne_withoutBlender s (Host.Outcome.next.inj h)
    | clear => exact exec_clear_ne_withoutBlender s hph
    | fillRect | fillRle | imageRect | imageRle => simp at hi

/-! ## Turns (R256, R265) -/

theorem nextAgent_of_turns (s : State) (a : Agent) (l : List Agent) (h : s.turns = a :: l) :
    nextAgent s = a := by
  rw [nextAgent, h]

/-- Past the end of the schedule the engine moves exactly while a command runs (log 1). -/
theorem nextAgent_unscheduled (s : State) (h : s.turns = []) : nextAgent s = .engine ↔ s.ph ≠ .idle := by
  unfold nextAgent
  rw [h]
  cases hph : s.ph with
  | idle | validate | walk => simp

/-- With PH IDLE no command has an engine step to take (R265). -/
theorem exec_idle (i : Instr) (s : State) (hph : s.ph = .idle) : exec i s = .next s := by
  by_cases hi : draws i = true
  · rw [exec_eq_drawStep i hi, drawStep, hph]
  · cases i with
    | nop => rw [exec, execNop, controlStep, hph]
    | setup => rw [exec, execSetup, controlStep, hph]
    | clear | fillRect | fillRle | imageRect | imageRle => exact absurd rfl hi

theorem engineTurn_idle (s : State) (hph : s.ph = .idle) : engineTurn s = .next s := by
  rw [engineTurn, hph]

theorem hostTurn_nil (s : State) (h : s.host = []) : hostTurn s = .next s := by
  rw [hostTurn, h]

theorem hostTurn_cons (s : State) (st : HostStmt) (rest : List HostStmt) (h : s.host = st :: rest) :
    hostTurn s = hostStatement { s with host := rest } rest st := by
  rw [hostTurn, h]

theorem step_of_engine (s : State) (h : nextAgent s = .engine) : step s = engineTurn (takeTurn s) := by
  rw [step, h, agentTurn]

theorem step_of_host (s : State) (h : nextAgent s = .host) : step s = hostTurn (takeTurn s) := by
  rw [step, h, agentTurn]

/-- Settles O5: a step takes its turn off the schedule and is then the agent's event. -/
theorem turnsOfHostAndIdleEngine : Obligations.TurnsOfHostAndIdleEngine := by
  refine ⟨nextAgent_of_turns, nextAgent_unscheduled, exec_idle, fun s hagent hph => ?idleEngine,
    fun s hagent hhost => ?idleHost, fun s st rest hagent hhost => ?hostStatement⟩
  case idleEngine => exact (step_of_engine s hagent).trans (engineTurn_idle (takeTurn s) hph)
  case idleHost => exact (step_of_host s hagent).trans (hostTurn_nil (takeTurn s) hhost)
  case hostStatement => exact (step_of_host s hagent).trans (hostTurn_cons (takeTurn s) st rest hhost)

end Sys2Proof.Machine
end

section
/-! PROOFS. Any good walk, left to the engine, completes with success after the groups that are left
(70_reset_and_hazards.md R290; 10_state.md R36; 60_exceptions.md R244), by induction on these groups. -/

namespace Sys2Proof.Machine

/-! ## A step of a good walk -/

/-- A group of a walk leaves it in phase WALK, or ends it. -/
theorem afterGroup_walking_or_ended (s : State) (r : Run) (n : Nat) (m : Memory) (hph : s.ph = .walk) :
    (afterGroup s r n m).ph = .walk ∨ WalkEnded (afterGroup s r n m) := by
  obtain ⟨-, e⟩ | ⟨-, -, e⟩ | ⟨-, hdone, e⟩ := afterGroup_cases s r n m <;> rw [e]
  · exact .inl hph
  · exact .inl hph
  · exact .inr ⟨rfl, rfl, rfl, rfl, hdone, rfl⟩

/-- What one step of a good walk does: it takes one group off those left, keeps the count of 10_state.md R36,
the runs and the host's side, and goes on or ends. -/
structure GoodWalkStep (s t : State) : Prop where
  answered : step s = .next t
  good : t.Inv
  next : t.ph = .walk ∨ WalkEnded t
  groups : groupsLeft s = 1 + groupsLeft t
  count : t.pixcount = BitVec.ofNat 32 (pixelsDone t)
  runs : t.runs = s.runs
  host : t.host = s.host
  turns : t.turns = s.turns

theorem State.Inv.exists_walk_step {s : State} (h : s.Inv) (hph : s.ph = .walk) (hturns : s.turns = []) :
    ∃ t, GoodWalkStep s t := by
  obtain ⟨r, m, hc, hstep, -⟩ := group_simulated s h hph hturns
  have hin : s.off + groupAt s r ≤ r.len := by
    have hle := groupAt_le s r hc.inRun
    have hoff := hc.inRun
    omega
  have ht := afterGroup_eq s r (groupAt s r) m
  exact ⟨afterGroup s r (groupAt s r) m, hstep, everyStepKeepsAGoodState s _ h hstep,
    afterGroup_walking_or_ended s r _ m hph,
    groupsLeft_afterGroup s r _ 1 m hc.current (groupsOf_groupAt s r hc.inRun).1,
    pixcount_afterGroup m hc.current hin (h.walk hph).count,
    (congrArg State.runs ht :), (congrArg State.host ht :), (congrArg State.turns ht :)⟩

/-! ## The whole walk -/

/-- Before each of the first `n` steps from `s` the machine is in a good walk. -/
def WalksFor (n : Nat) (s : State) : Prop := ∀ k < n, ∃ u, runSteps k s = .next u ∧ u.Inv ∧ u.ph = .walk

theorem walksFor_zero (s : State) : WalksFor 0 s := fun _ hk => absurd hk (Nat.not_lt_zero _)

theorem WalksFor.cons {n : Nat} {s t : State} (h : WalksFor n t) (hs : s.Inv) (hph : s.ph = .walk)
    (hstep : step s = .next t) : WalksFor (n + 1) s := by
  intro k hk
  cases k with
  | zero => exact ⟨s, rfl, hs, hph⟩
  | succ k =>
    obtain ⟨u, hrun, hu⟩ := h k (by omega)
    exact ⟨u, (runSteps_succ k s t hstep).trans hrun, hu⟩

/-- The walk from `s` ends in `t` after `n` steps and not before, every pixel counted. -/
structure WalkCompletes (n : Nat) (s t : State) : Prop where
  run : runSteps n s = .next t
  walks : WalksFor n s
  good : t.Inv
  ended : WalkEnded t
  count : t.pixcount = BitVec.ofNat 32 (s.runs.map Run.len).sum
  host : t.host = s.host

theorem GoodWalkStep.completes_of_ended {s t : State} (h : GoodWalkStep s t) (hs : s.Inv) (hph : s.ph = .walk)
    (hended : WalkEnded t) : WalkCompletes 1 s t where
  run := runSteps_succ 0 s t h.answered
  walks := (walksFor_zero t).cons hs hph h.answered
  good := h.good
  ended := hended
  count := by rw [h.count, pixelsDone_of_walkEnded hended, h.runs]
  host := h.host

theorem WalkCompletes.cons {n : Nat} {s t u : State} (h : WalkCompletes n u t) (hstep : GoodWalkStep s u)
    (hs : s.Inv) (hph : s.ph = .walk) : WalkCompletes (n + 1) s t where
  run := (runSteps_succ n s u hstep.answered).trans h.run
  walks := h.walks.cons hs hph hstep.answered
  good := h.good
  ended := h.ended
  count := hstep.runs ▸ h.count
  host := h.host.trans hstep.host

/-- Left to the engine, a good walk completes after the groups left; by induction on them. -/
theorem State.Inv.walk_completes (g : Nat) (s : State) (h : s.Inv) (hph : s.ph = .walk) (hturns : s.turns = [])
    (hg : groupsLeft s = g) : ∃ t, WalkCompletes g s t := by
  induction g generalizing s with
  | zero =>
    obtain ⟨u, hu⟩ := h.exists_walk_step hph hturns
    have hgroups := hu.groups
    omega
  | succ g ih =>
    obtain ⟨u, hu⟩ := h.exists_walk_step hph hturns
    have hgroups := hu.groups
    obtain hwalk | hended := hu.next
    · obtain ⟨t, ht⟩ := ih u hu.good hwalk (hu.turns.trans hturns) (by omega)
      exact ⟨t, ht.cons hu h hph⟩
    · obtain rfl : g = 0 := by
        have := groupsLeft_of_runs_done u hended.runs
        omega
      exact ⟨u, hu.completes_of_ended h hph hended⟩

/-- Settles O54: a good walk completes after its groups; BUSY is 1 in each good walk before, and the codes of a
success are 0 in the good state after. -/
theorem walkCompletesAfterItsGroups : Obligations.WalkCompletesAfterItsGroups := by
  intro s h hph hturns
  obtain ⟨t, ht⟩ := State.Inv.walk_completes _ s h hph hturns rfl
  obtain ⟨hcode, hinfo⟩ := ht.good.done_clear ht.ended.done
  refine ⟨t, ht.run, fun k hk => ?_, ht.ended.idle, ht.ended.busy, ht.ended.done, ht.ended.err, hcode, hinfo,
    ht.count, ht.host⟩
  obtain ⟨u, hrun, hgood, hwalk⟩ := ht.walks k hk
  exact ⟨u, hrun, hwalk, hgood.busy_of_running (by simp [hwalk])⟩

end Sys2Proof.Machine
end
